-- ==== Sys2Proof/Word.lean ====
section
/-! DEFINITION. The word types of QCORE: the 32-bit transfer unit of 20_memory.md R62, the 8-bit unit a
serialising platform uses (R63), and the largest phase (00_scope.md R8). -/

namespace Sys2Proof

/-- A 32-bit command, operand or result word (R62). A binary32 value is held as its bit pattern. -/
abbrev Word := BitVec 32

/-- The unit of a byte-serialising platform (R63); QCORE itself addresses no bytes. -/
abbrev Byte := BitVec 8

/-- `PMAX = 2^32 - 1`, the maximum representable phase, which is also `end()` (R8). -/
def phaseMax : Word := 0xFFFFFFFF

end Sys2Proof
end

