-- ==== Sys2Proof/Config.lean ====
section
/-! DEFINITION. What an implementation of QCORE fixes: the named parameters of 00_scope.md R9 to R11 and the
named binary32 constants of R13 with the other literals the rules write. -/

namespace Sys2Proof

/-- The parameters that are plain data: the instance counts (R9) and `NOTE_OFF_LEVEL_INIT` (R11). They are part
of `State`, so that every statement about a state holds for every build; no step changes them. -/
structure Params where
  /-- `N_PI`, 1 to 256. -/
  nPi : Nat
  /-- `N_OSC`, 1 to 256. -/
  nOsc : Nat
  /-- `N_WIN`, 0 to 256: a model may build no window generator (R4). -/
  nWin : Nat
  /-- `N_ENV`, 1 to 256. -/
  nEnv : Nat
  /-- `NOTE_OFF_LEVEL_INIT`, any binary32 pattern. -/
  noteOffLevelInit : Word
deriving DecidableEq, Repr

/-- `H`, the hysteresis constant (R13). -/
def hysteresis : Word := 0x38D1B717

/-- `OVERSHOOT`, the attack's target 1.6 (R13). -/
def overshoot : Word := 0x3FCCCCCD

/-- `C01`, the factor 0.1 of the secondary release floor (R13). -/
def secondaryFactor : Word := 0x3DCCCCCD

/-- `BK0`, 0.42 (R13). -/
def blackman0 : Word := 0x3ED70A3D

/-- `BK1`, 0.5 (R13). -/
def blackman1 : Word := 0x3F000000

/-- `BK2`, 0.08 (R13). -/
def blackman2 : Word := 0x3DA3D70A

/-- `PI32` (R13). -/
def pi32 : Word := 0x40490FDB

/-- `ONE`, 1.0 (R13). -/
def oneF : Word := 0x3F800000

/-- The literal 2.0 of R160 and R180. -/
def twoF : Word := 0x40000000

/-- The literal −2.0 of R200. -/
def negTwoF : Word := 0xC0000000

/-- `+0.0`. -/
def zeroF : Word := 0x00000000

/-- `SIN_APPROX` (R10): some total function from binary32 to binary32, and nothing else is known of it.
A named parameter of the spec (decision D6, OPEN), so it has no body here (log entry 2). -/
opaque Config.sinApprox : Word → Word

/-- `EXP_APPROX` (R10): some total function from binary32 to binary32, and nothing else is known of it
(decision D6, OPEN; log entry 2). -/
opaque Config.expApprox : Word → Word

/-- The reference defaults of 92_eei_decisions.md, "OPEN parameters": four instances of each unit, the count the
vectors assume, and `NOTE_OFF_LEVEL_INIT = H` (log entry 1, DESIGN CHOICE: the spec leaves them open). -/
def Params.reference : Params :=
  { nPi := 4, nOsc := 4, nWin := 4, nEnv := 4, noteOffLevelInit := hysteresis }

end Sys2Proof
end

