-- ==== Sys2Proof/Machine/Float.lean ====
section
/-! DEFINITION. Exact values and binary32 arithmetic: `RNI` (00_scope.md R15), `RN32`, `fadd`, `fsub`, `fmul`,
`fdiv`, `fabs`, `flt`, `fgt`, `finite`, `approach` and `near` (R12, R16), by exact integer arithmetic that is
rounded once at the end. The content of IEEE 754 is the spec's general knowledge (93_implementation_defined.md I2;
log entry 6). -/

namespace Sys2Proof.Machine

/-- `RNI` of the exact non-negative rational `num / den`: the nearest integer, ties to the even integer (R15). -/
def roundNearestEven (num den : Nat) : Nat :=
  if den < 2 * (num % den) ∨ (2 * (num % den) = den ∧ num / den % 2 = 1) then num / den + 1
  else num / den

/-- The sign bit of a binary32 pattern. -/
def signBit (x : Word) : Bool := x.getLsbD 31

/-- The 8-bit exponent field. -/
def expField (x : Word) : Nat := (x.extractLsb' 23 8).toNat

/-- The 23-bit fraction field. -/
def fracField (x : Word) : Nat := (x.extractLsb' 0 23).toNat

/-- Is the pattern a NaN? -/
def isNaN (x : Word) : Bool := expField x == 255 && fracField x != 0

/-- Is the pattern an infinity? -/
def isInf (x : Word) : Bool := expField x == 255 && fracField x == 0

/-- `finite(x)`: neither NaN nor infinite (R16). -/
def isFinite (x : Word) : Bool := expField x != 255

/-- The magnitude of a finite pattern in units of 2^-149, the spacing of the subnormals (R12: subnormals are
kept). -/
def magUnits (x : Word) : Nat :=
  if expField x = 0 then fracField x else (2 ^ 23 + fracField x) * 2 ^ (expField x - 1)

/-- The exact value of a finite pattern in units of 2^-149. -/
def valueUnits (x : Word) : Int :=
  if signBit x then -(magUnits x : Int) else magUnits x

/-- The canonical quiet NaN (R12). -/
def canonicalNaN : Word := 0x7FC00000

/-- The magnitude pattern of infinity: every larger magnitude pattern is a NaN's. -/
def infMagnitude : Nat := 0x7F800000

/-- The pattern with this sign and magnitude pattern. -/
def withSign (neg : Bool) (magnitude : Nat) : Word :=
  BitVec.ofNat 32 ((if neg then 2 ^ 31 else 0) + magnitude)

/-- How many times the spacing 2^-149 doubles before it is the spacing at `num / den`, for a format of 24
significant bits: 0 up to the first normal binade, one more for each binade above. -/
def spacingShift (num den : Nat) : Nat :=
  Nat.log2 (num * 2 ^ 149 / den) - 23

/-- The binary32 magnitude pattern nearest `num / den`, ties to even, before overflow. A binade's first pattern is
`spacingShift * 2^23 + 2^23` and rounding up to the next binade carries into the exponent, so the sum of shift and
rounded significand is the pattern. -/
def roundMagnitude (num den : Nat) : Nat :=
  spacingShift num den * 2 ^ 23
    + roundNearestEven (num * 2 ^ 149) (den * 2 ^ spacingShift num den)

/-- `RN32` of the exact real with this sign and magnitude `num / den` (R12, R16): gradual underflow below, overflow
to infinity above. -/
def rn32 (neg : Bool) (num den : Nat) : Word :=
  withSign neg (min (roundMagnitude num den) infMagnitude)

/-- An infinity. -/
def infF (neg : Bool) : Word := withSign neg infMagnitude

/-- A zero. -/
def zeroWithSign (neg : Bool) : Word := withSign neg 0

/-- The exact sum of two finite values, rounded. A zero sum is −0 only for two negative zeros. -/
def faddFinite (x y : Word) : Word :=
  let sum := valueUnits x + valueUnits y
  if sum = 0 then zeroWithSign (signBit x && signBit y)
  else rn32 (decide (sum < 0)) sum.natAbs (2 ^ 149)

/-- `fadd(x, y) = RN32(x + y)` with the IEEE 754 special cases (R16). -/
def fadd (x y : Word) : Word :=
  if isNaN x || isNaN y then canonicalNaN
  else if isInf x then (if isInf y && signBit x != signBit y then canonicalNaN else x)
  else if isInf y then y
  else faddFinite x y

/-- The pattern with its sign bit flipped. -/
def fneg (x : Word) : Word := x ^^^ 0x80000000

/-- `fsub(x, y) = RN32(x - y)` (R16): the sum with the second operand's sign flipped. -/
def fsub (x y : Word) : Word := fadd x (fneg y)

/-- `fmul(x, y) = RN32(x * y)` with the IEEE 754 special cases (R16). -/
def fmul (x y : Word) : Word :=
  let neg := signBit x != signBit y
  if isNaN x || isNaN y then canonicalNaN
  else if isInf x || isInf y then
    (if (isFinite x && magUnits x == 0) || (isFinite y && magUnits y == 0) then canonicalNaN else infF neg)
  else rn32 neg (magUnits x * magUnits y) (2 ^ 298)

/-- `fdiv(x, y) = RN32(x / y)` with the IEEE 754 special cases (R16). -/
def fdiv (x y : Word) : Word :=
  let neg := signBit x != signBit y
  if isNaN x || isNaN y then canonicalNaN
  else if isInf x then (if isInf y then canonicalNaN else infF neg)
  else if isInf y then zeroWithSign neg
  else if magUnits y = 0 then (if magUnits x = 0 then canonicalNaN else infF neg)
  else rn32 neg (magUnits x) (magUnits y)

/-- `fabs(x)` clears the sign bit (R16). -/
def fabs (x : Word) : Word := x &&& 0x7FFFFFFF

/-- The place of a pattern that is no NaN in the order of values: the magnitude pattern with the sign, so that
both zeros stand at 0. -/
def orderKey (x : Word) : Int :=
  if signBit x then -((fabs x).toNat : Int) else ((fabs x).toNat : Int)

/-- `flt(x, y)`, the ordered compare `x < y`: false if either operand is NaN, and −0 = +0 (R16, D49). -/
def flt (x y : Word) : Bool :=
  !isNaN x && !isNaN y && decide (orderKey x < orderKey y)

/-- `fgt(x, y)`, `x > y` (R16). -/
def fgt (x y : Word) : Bool := flt y x

/-- `approach(y, t, c) = fadd(t, fmul(c, fsub(y, t)))` (R16, R205). -/
def approach (y t c : Word) : Word := fadd t (fmul c (fsub y t))

/-- `near(y, t) = flt(fabs(fsub(y, t)), H)` (R16, R206). -/
def near (y t : Word) : Bool := flt (fabs (fsub y t)) hysteresis

/-- The exact value of a floating-point operand, for the converters that compute on exact reals (R120). -/
inductive ExactValue where
  | nan
  | inf (neg : Bool)
  /-- The value `(-1)^neg * num / den`. -/
  | fin (neg : Bool) (num den : Nat)
deriving DecidableEq, Repr

/-- The exact value of a binary32 pattern. -/
def exact32 (x : Word) : ExactValue :=
  if isNaN x then .nan
  else if isInf x then .inf (signBit x)
  else .fin (signBit x) (magUnits x) (2 ^ 149)

/-- The 11-bit exponent field of a binary64 pattern. -/
def expField64 (x : BitVec 64) : Nat := (x.extractLsb' 52 11).toNat

/-- The 52-bit fraction field of a binary64 pattern. -/
def fracField64 (x : BitVec 64) : Nat := (x.extractLsb' 0 52).toNat

/-- The magnitude of a finite binary64 pattern in units of 2^-1074. -/
def magUnits64 (x : BitVec 64) : Nat :=
  if expField64 x = 0 then fracField64 x else (2 ^ 52 + fracField64 x) * 2 ^ (expField64 x - 1)

/-- The exact value of a binary64 pattern (R122). -/
def exact64 (x : BitVec 64) : ExactValue :=
  if expField64 x = 2047 then (if fracField64 x = 0 then .inf (x.getLsbD 63) else .nan)
  else .fin (x.getLsbD 63) (magUnits64 x) (2 ^ 1074)

end Sys2Proof.Machine
end

