-- ==== Sys2Proof/Syntax.lean ====
section
/-! DEFINITION. QCORE's commands as syntax: one constructor of `Instr` per row of spec/opcode_table.json, the
opcode map's row type (30_encoding.md R90), the transaction a host delivers (R80) and the two
pseudo-instructions of R95. -/

namespace Sys2Proof

/-- `MOD[0]` of `PI.INIT` and `PI.LOAD`: the iterator's increment and decrement strategy (R32, R87). -/
inductive PiMode where
  /-- 0: the wrapping phase iterator. -/
  | wrap
  /-- 1: the saturating ("one-shot") phase iterator. -/
  | sat
deriving DecidableEq, Repr

/-- One command transaction (R80): a command word and its operand words. The host delivers it whole, so its
length is the operand list's. -/
structure Transaction where
  cmd : Word
  ops : List Word
deriving DecidableEq, Repr

/-- The 34 operations of the opcode map (R90), in the table's order. -/
inductive Opcode where
  /-- `SYS.NOP` (R260). -/
  | sysNop
  /-- `SYS.PHASE_FRAC32` (R121). -/
  | sysPhaseFrac32
  /-- `SYS.PHASE_FRAC64` (R122). -/
  | sysPhaseFrac64
  /-- `SYS.PHASE_FREQ` (R124). -/
  | sysPhaseFreq
  /-- `SYS.STATUS` (R262). -/
  | sysStatus
  /-- `PI.INIT` (R125). -/
  | piInit
  /-- `PI.LOAD` (R126). -/
  | piLoad
  /-- `PI.INC` (R127). -/
  | piInc
  /-- `PI.DEC` (R128). -/
  | piDec
  /-- `PI.FIRST` (R130). -/
  | piFirst
  /-- `PI.LAST` (R131). -/
  | piLast
  /-- `PI.RD` (R264). -/
  | piRd
  /-- `OSC.INIT` (R161). -/
  | oscInit
  /-- `OSC.CONFIG` (R162). -/
  | oscConfig
  /-- `OSC.TICK` (R163). -/
  | oscTick
  /-- `OSC.RD` (R264). -/
  | oscRd
  /-- `WIN.INIT` (R181). -/
  | winInit
  /-- `WIN.CONFIG` (R182). -/
  | winConfig
  /-- `WIN.TICK` (R183). -/
  | winTick
  /-- `WIN.RD` (R264). -/
  | winRd
  /-- `ENV.INIT` (R201). -/
  | envInit
  /-- `ENV.TICK` (R210). -/
  | envTick
  /-- `ENV.TRIGGER` (R220). -/
  | envTrigger
  /-- `ENV.LEGATO` (R221). -/
  | envLegato
  /-- `ENV.DECAY` (R222). -/
  | envDecay
  /-- `ENV.RELEASE` (R223). -/
  | envRelease
  /-- `ENV.STATE` (R224). -/
  | envState
  /-- `ENV.SET_ATTACK` (R225). -/
  | envSetAttack
  /-- `ENV.SET_DECAY` (R226). -/
  | envSetDecay
  /-- `ENV.SET_SLEVEL` (R227). -/
  | envSetSlevel
  /-- `ENV.SET_SRATE` (R228). -/
  | envSetSrate
  /-- `ENV.SET_RELEASE` (R229). -/
  | envSetRelease
  /-- `ENV.NOTE_OFF_LEVEL` (R230). -/
  | envNoteOffLevel
  /-- `ENV.RD` (R264). -/
  | envRd
deriving DecidableEq, Repr

/-- What an opcode does with the `MOD` field (R87). -/
inductive ModUse where
  /-- `MOD` must be 00. -/
  | zero
  /-- `MOD[0]` is the iterator mode and `MOD[1]` must be 0. -/
  | mode
  /-- `MOD[1:0]` is the auto-decay value; every value is allowed. -/
  | autoDecay
deriving DecidableEq, Repr

/-- One row of the opcode map (R90): `UNIT`, `OP`, `n_ops`, `n_res`, the number of registers an `RD` can name
(R85; 0 where `REG` must be 0) and the use of `MOD`. -/
structure OpcodeRow where
  unit : BitVec 4
  op : BitVec 4
  nOps : Nat
  nRes : Nat
  regCount : Nat
  mod : ModUse
deriving DecidableEq, Repr

/-- A command with its operands (R90). `inst` is the INST field, `reg` the REG field of an `RD`, and every
operand word stands as delivered: a binary32 operand as its bit pattern (R88). -/
inductive Instr where
  /-- `SYS.NOP` (R260). -/
  | sysNop
  /-- `SYS.PHASE_FRAC32` (R121). -/
  | sysPhaseFrac32 (frac : Word)
  /-- `SYS.PHASE_FRAC64` (R122). -/
  | sysPhaseFrac64 (lo hi : Word)
  /-- `SYS.PHASE_FREQ` (R124). -/
  | sysPhaseFreq (f sps : Word)
  /-- `SYS.STATUS` (R262). -/
  | sysStatus
  /-- `PI.INIT` (R125). -/
  | piInit (inst : BitVec 8) (mode : PiMode) (f sps : Word)
  /-- `PI.LOAD` (R126). -/
  | piLoad (inst : BitVec 8) (mode : PiMode) (phase step : Word)
  /-- `PI.INC` (R127). -/
  | piInc (inst : BitVec 8)
  /-- `PI.DEC` (R128). -/
  | piDec (inst : BitVec 8)
  /-- `PI.FIRST` (R130). -/
  | piFirst (inst : BitVec 8)
  /-- `PI.LAST` (R131). -/
  | piLast (inst : BitVec 8)
  /-- `PI.RD` (R264). -/
  | piRd (inst reg : BitVec 8)
  /-- `OSC.INIT` (R161). -/
  | oscInit (inst : BitVec 8) (f sps : Word)
  /-- `OSC.CONFIG` (R162). -/
  | oscConfig (inst : BitVec 8) (f sps : Word)
  /-- `OSC.TICK` (R163). -/
  | oscTick (inst : BitVec 8)
  /-- `OSC.RD` (R264). -/
  | oscRd (inst reg : BitVec 8)
  /-- `WIN.INIT` (R181). -/
  | winInit (inst : BitVec 8) (width sps : Word)
  /-- `WIN.CONFIG` (R182). -/
  | winConfig (inst : BitVec 8) (width sps : Word)
  /-- `WIN.TICK` (R183). -/
  | winTick (inst : BitVec 8)
  /-- `WIN.RD` (R264). -/
  | winRd (inst reg : BitVec 8)
  /-- `ENV.INIT` (R201). -/
  | envInit (inst : BitVec 8) (attack decay slevel srate release sps : Word)
  /-- `ENV.TICK` (R210). -/
  | envTick (inst : BitVec 8)
  /-- `ENV.TRIGGER` (R220). -/
  | envTrigger (inst : BitVec 8) (ad : BitVec 2) (level : Word)
  /-- `ENV.LEGATO` (R221). -/
  | envLegato (inst : BitVec 8)
  /-- `ENV.DECAY` (R222). -/
  | envDecay (inst : BitVec 8)
  /-- `ENV.RELEASE` (R223). -/
  | envRelease (inst : BitVec 8)
  /-- `ENV.STATE` (R224). -/
  | envState (inst : BitVec 8)
  /-- `ENV.SET_ATTACK` (R225). -/
  | envSetAttack (inst : BitVec 8) (sec sps : Word)
  /-- `ENV.SET_DECAY` (R226). -/
  | envSetDecay (inst : BitVec 8) (sec sps : Word)
  /-- `ENV.SET_SLEVEL` (R227). -/
  | envSetSlevel (inst : BitVec 8) (gain : Word)
  /-- `ENV.SET_SRATE` (R228). -/
  | envSetSrate (inst : BitVec 8) (sec sps : Word)
  /-- `ENV.SET_RELEASE` (R229). -/
  | envSetRelease (inst : BitVec 8) (sec sps : Word)
  /-- `ENV.NOTE_OFF_LEVEL` (R230). -/
  | envNoteOffLevel (inst : BitVec 8) (level : Word)
  /-- `ENV.RD` (R264). -/
  | envRd (inst reg : BitVec 8)
deriving DecidableEq, Repr

/-- The opcode of a command. -/
def Instr.opcode : Instr → Opcode
  | .sysNop => .sysNop
  | .sysPhaseFrac32 .. => .sysPhaseFrac32
  | .sysPhaseFrac64 .. => .sysPhaseFrac64
  | .sysPhaseFreq .. => .sysPhaseFreq
  | .sysStatus => .sysStatus
  | .piInit .. => .piInit
  | .piLoad .. => .piLoad
  | .piInc .. => .piInc
  | .piDec .. => .piDec
  | .piFirst .. => .piFirst
  | .piLast .. => .piLast
  | .piRd .. => .piRd
  | .oscInit .. => .oscInit
  | .oscConfig .. => .oscConfig
  | .oscTick .. => .oscTick
  | .oscRd .. => .oscRd
  | .winInit .. => .winInit
  | .winConfig .. => .winConfig
  | .winTick .. => .winTick
  | .winRd .. => .winRd
  | .envInit .. => .envInit
  | .envTick .. => .envTick
  | .envTrigger .. => .envTrigger
  | .envLegato .. => .envLegato
  | .envDecay .. => .envDecay
  | .envRelease .. => .envRelease
  | .envState .. => .envState
  | .envSetAttack .. => .envSetAttack
  | .envSetDecay .. => .envSetDecay
  | .envSetSlevel .. => .envSetSlevel
  | .envSetSrate .. => .envSetSrate
  | .envSetRelease .. => .envSetRelease
  | .envNoteOffLevel .. => .envNoteOffLevel
  | .envRd .. => .envRd

/-- The pseudo-instruction `pi.rewind` (R95): back to `begin()` with a given step. -/
def Instr.piRewind (inst : BitVec 8) (mode : PiMode) (step : Word) : Instr :=
  .piLoad inst mode 0 step

/-- The pseudo-instruction `env.hold` (R95): a held-attack trigger. -/
def Instr.envHold (inst : BitVec 8) (level : Word) : Instr :=
  .envTrigger inst 0 level

end Sys2Proof
end

