-- ==== Sys2Proof/WellFormed.lean ====
section
/-! DEFINITION. What an `Instr` term and a `Params` record must satisfy: an `RD` names a register its unit has
(30_encoding.md R85), and the instance counts lie in their legal ranges (00_scope.md R9). Every other field of an
`Instr` is exactly as wide as its field of the command word, so nothing else can be ill-formed. -/

namespace Sys2Proof

/-- A command that some legal command word encodes: the register index of an `RD` is below its unit's count
(R85: PI 3, OSC 3, WIN 6, ENV 11). -/
def Instr.wellFormed : Instr → Bool
  | .sysNop => true
  | .sysPhaseFrac32 .. => true
  | .sysPhaseFrac64 .. => true
  | .sysPhaseFreq .. => true
  | .sysStatus => true
  | .piInit .. => true
  | .piLoad .. => true
  | .piInc .. => true
  | .piDec .. => true
  | .piFirst .. => true
  | .piLast .. => true
  | .piRd _ reg => decide (reg.toNat < 3)
  | .oscInit .. => true
  | .oscConfig .. => true
  | .oscTick .. => true
  | .oscRd _ reg => decide (reg.toNat < 3)
  | .winInit .. => true
  | .winConfig .. => true
  | .winTick .. => true
  | .winRd _ reg => decide (reg.toNat < 6)
  | .envInit .. => true
  | .envTick .. => true
  | .envTrigger .. => true
  | .envLegato .. => true
  | .envDecay .. => true
  | .envRelease .. => true
  | .envState .. => true
  | .envSetAttack .. => true
  | .envSetDecay .. => true
  | .envSetSlevel .. => true
  | .envSetSrate .. => true
  | .envSetRelease .. => true
  | .envNoteOffLevel .. => true
  | .envRd _ reg => decide (reg.toNat < 11)

/-- The instance counts are legal (R9): `N_PI`, `N_OSC` and `N_ENV` 1 to 256, `N_WIN` 0 to 256. -/
def Params.legal (p : Params) : Bool :=
  decide (1 ≤ p.nPi) && decide (p.nPi ≤ 256) && decide (1 ≤ p.nOsc) && decide (p.nOsc ≤ 256)
    && decide (p.nWin ≤ 256) && decide (1 ≤ p.nEnv) && decide (p.nEnv ≤ 256)

end Sys2Proof
end

