-- ==== Sys2Proof/Decode.lean ====
section
/-! DEFINITION. The decoder, total on every transaction and rejecting by name (30_encoding.md R81 to R93), and
after it the encoder written from the same opcode map; and the little-endian serialisation of 20_memory.md R63. -/

namespace Sys2Proof

/-- The fields of the command word (R81). -/
structure CmdFields where
  unit : BitVec 4
  op : BitVec 4
  inst : BitVec 8
  reg : BitVec 8
  reserved : BitVec 6
  mod : BitVec 2
deriving DecidableEq, Repr

/-- Why a transaction is rejected. All but `badLength` are the cases of R92. -/
inductive DecodeError where
  /-- `UNIT` is 5 to 15 (R82). -/
  | reservedUnit
  /-- `OP` is not listed for its unit (R90). -/
  | reservedOp
  /-- `INST` is not 0 for SYS (R84). -/
  | sysInst
  /-- `REG` is not 0 outside `RD`, or out of range in `RD` (R85). -/
  | badReg
  /-- One of bits 7:2 is 1 (R86). -/
  | reservedBits
  /-- `MOD` is not allowed for the opcode (R87). -/
  | badMod
  /-- The operand count is not the opcode's `n_ops` (R88). -/
  | badLength
deriving DecidableEq, Repr

/-- The fields of a command word, bit for bit as R81 lays them out. -/
def cmdFields (w : Word) : CmdFields :=
  { unit := w.extractLsb' 28 4, op := w.extractLsb' 24 4, inst := w.extractLsb' 16 8,
    reg := w.extractLsb' 8 8, reserved := w.extractLsb' 2 6, mod := w.extractLsb' 0 2 }

/-- The command word with the given fields (R81). -/
def packCmd (f : CmdFields) : Word :=
  f.unit ++ f.op ++ f.inst ++ f.reg ++ f.reserved ++ f.mod

/-- The opcode map of R90, one row per opcode: UNIT, OP, n_ops, n_res, register count (R85), MOD use (R87). -/
def opcodeRow : Opcode → OpcodeRow
  | .sysNop => ⟨0, 0, 0, 0, 0, .zero⟩
  | .sysPhaseFrac32 => ⟨0, 1, 1, 1, 0, .zero⟩
  | .sysPhaseFrac64 => ⟨0, 2, 2, 1, 0, .zero⟩
  | .sysPhaseFreq => ⟨0, 3, 2, 1, 0, .zero⟩
  | .sysStatus => ⟨0, 4, 0, 2, 0, .zero⟩
  | .piInit => ⟨1, 0, 2, 0, 0, .mode⟩
  | .piLoad => ⟨1, 1, 2, 0, 0, .mode⟩
  | .piInc => ⟨1, 2, 0, 1, 0, .zero⟩
  | .piDec => ⟨1, 3, 0, 1, 0, .zero⟩
  | .piFirst => ⟨1, 4, 0, 1, 0, .zero⟩
  | .piLast => ⟨1, 5, 0, 1, 0, .zero⟩
  | .piRd => ⟨1, 15, 0, 1, 3, .zero⟩
  | .oscInit => ⟨2, 0, 2, 0, 0, .zero⟩
  | .oscConfig => ⟨2, 1, 2, 0, 0, .zero⟩
  | .oscTick => ⟨2, 2, 0, 2, 0, .zero⟩
  | .oscRd => ⟨2, 15, 0, 1, 3, .zero⟩
  | .winInit => ⟨3, 0, 2, 0, 0, .zero⟩
  | .winConfig => ⟨3, 1, 2, 0, 0, .zero⟩
  | .winTick => ⟨3, 2, 0, 1, 0, .zero⟩
  | .winRd => ⟨3, 15, 0, 1, 6, .zero⟩
  | .envInit => ⟨4, 0, 6, 0, 0, .zero⟩
  | .envTick => ⟨4, 1, 0, 1, 0, .zero⟩
  | .envTrigger => ⟨4, 2, 1, 0, 0, .autoDecay⟩
  | .envLegato => ⟨4, 3, 0, 0, 0, .zero⟩
  | .envDecay => ⟨4, 4, 0, 0, 0, .zero⟩
  | .envRelease => ⟨4, 5, 0, 0, 0, .zero⟩
  | .envState => ⟨4, 6, 0, 1, 0, .zero⟩
  | .envSetAttack => ⟨4, 7, 2, 0, 0, .zero⟩
  | .envSetDecay => ⟨4, 8, 2, 0, 0, .zero⟩
  | .envSetSlevel => ⟨4, 9, 1, 0, 0, .zero⟩
  | .envSetSrate => ⟨4, 10, 2, 0, 0, .zero⟩
  | .envSetRelease => ⟨4, 11, 2, 0, 0, .zero⟩
  | .envNoteOffLevel => ⟨4, 12, 1, 0, 0, .zero⟩
  | .envRd => ⟨4, 15, 0, 1, 11, .zero⟩

/-- Every opcode, in the order of the opcode map. -/
def allOpcodes : List Opcode :=
  [.sysNop, .sysPhaseFrac32, .sysPhaseFrac64, .sysPhaseFreq, .sysStatus, .piInit,
   .piLoad, .piInc, .piDec, .piFirst, .piLast, .piRd,
   .oscInit, .oscConfig, .oscTick, .oscRd, .winInit, .winConfig,
   .winTick, .winRd, .envInit, .envTick, .envTrigger, .envLegato,
   .envDecay, .envRelease, .envState, .envSetAttack, .envSetDecay, .envSetSlevel,
   .envSetSrate, .envSetRelease, .envNoteOffLevel, .envRd]

/-- The opcode at a UNIT and OP value; `none` where the map lists none (R82, R90). -/
def opcodeAt (unit op : BitVec 4) : Option Opcode :=
  allOpcodes.find? fun k => (opcodeRow k).unit == unit && (opcodeRow k).op == op

/-- Does the opcode allow this `REG` value (R85)? -/
def regAllowed (k : Opcode) (reg : BitVec 8) : Bool :=
  if (opcodeRow k).regCount = 0 then reg == 0 else decide (reg.toNat < (opcodeRow k).regCount)

/-- Does the opcode allow this `MOD` value (R87)? -/
def modAllowed (k : Opcode) (mod : BitVec 2) : Bool :=
  match (opcodeRow k).mod with
  | .zero => mod == 0
  | .mode => mod == 0 || mod == 1
  | .autoDecay => true

/-- The legality checks of R92 on the command word alone. -/
def checkCmd (f : CmdFields) : Except DecodeError Opcode :=
  if 5 ≤ f.unit.toNat then .error .reservedUnit
  else match opcodeAt f.unit f.op with
    | none => .error .reservedOp
    | some k =>
      if (opcodeRow k).unit = 0 ∧ f.inst ≠ 0 then .error .sysInst
      else if !regAllowed k f.reg then .error .badReg
      else if f.reserved ≠ 0 then .error .reservedBits
      else if !modAllowed k f.mod then .error .badMod
      else .ok k

/-- The iterator mode of a `MOD` field (R87). -/
def modeOfMod (mod : BitVec 2) : PiMode :=
  if mod.getLsbD 0 then .sat else .wrap

/-- The `MOD` field of an iterator mode (R87). -/
def modOfMode : PiMode → BitVec 2
  | .wrap => 0
  | .sat => 1

/-- A command with no operand words (R88). -/
def takeOps0 (i : Instr) : List Word → Except DecodeError Instr
  | [] => .ok i
  | _ :: _ => .error .badLength

/-- A command with one operand word (R88). -/
def takeOps1 (mk : Word → Instr) : List Word → Except DecodeError Instr
  | [a] => .ok (mk a)
  | _ => .error .badLength

/-- A command with two operand words (R88). -/
def takeOps2 (mk : Word → Word → Instr) : List Word → Except DecodeError Instr
  | [a, b] => .ok (mk a b)
  | _ => .error .badLength

/-- A command with six operand words (R88). -/
def takeOps6 (mk : Word → Word → Word → Word → Word → Word → Instr) :
    List Word → Except DecodeError Instr
  | [a, b, c, d, e, g] => .ok (mk a b c d e g)
  | _ => .error .badLength

/-- The command of an opcode with its fields and operand words, or `badLength` (R88, R90). -/
def attachOps (k : Opcode) (f : CmdFields) (ops : List Word) : Except DecodeError Instr :=
  match k with
  | .sysNop => takeOps0 .sysNop ops
  | .sysPhaseFrac32 => takeOps1 .sysPhaseFrac32 ops
  | .sysPhaseFrac64 => takeOps2 .sysPhaseFrac64 ops
  | .sysPhaseFreq => takeOps2 .sysPhaseFreq ops
  | .sysStatus => takeOps0 .sysStatus ops
  | .piInit => takeOps2 (.piInit f.inst (modeOfMod f.mod)) ops
  | .piLoad => takeOps2 (.piLoad f.inst (modeOfMod f.mod)) ops
  | .piInc => takeOps0 (.piInc f.inst) ops
  | .piDec => takeOps0 (.piDec f.inst) ops
  | .piFirst => takeOps0 (.piFirst f.inst) ops
  | .piLast => takeOps0 (.piLast f.inst) ops
  | .piRd => takeOps0 (.piRd f.inst f.reg) ops
  | .oscInit => takeOps2 (.oscInit f.inst) ops
  | .oscConfig => takeOps2 (.oscConfig f.inst) ops
  | .oscTick => takeOps0 (.oscTick f.inst) ops
  | .oscRd => takeOps0 (.oscRd f.inst f.reg) ops
  | .winInit => takeOps2 (.winInit f.inst) ops
  | .winConfig => takeOps2 (.winConfig f.inst) ops
  | .winTick => takeOps0 (.winTick f.inst) ops
  | .winRd => takeOps0 (.winRd f.inst f.reg) ops
  | .envInit => takeOps6 (.envInit f.inst) ops
  | .envTick => takeOps0 (.envTick f.inst) ops
  | .envTrigger => takeOps1 (.envTrigger f.inst f.mod) ops
  | .envLegato => takeOps0 (.envLegato f.inst) ops
  | .envDecay => takeOps0 (.envDecay f.inst) ops
  | .envRelease => takeOps0 (.envRelease f.inst) ops
  | .envState => takeOps0 (.envState f.inst) ops
  | .envSetAttack => takeOps2 (.envSetAttack f.inst) ops
  | .envSetDecay => takeOps2 (.envSetDecay f.inst) ops
  | .envSetSlevel => takeOps1 (.envSetSlevel f.inst) ops
  | .envSetSrate => takeOps2 (.envSetSrate f.inst) ops
  | .envSetRelease => takeOps2 (.envSetRelease f.inst) ops
  | .envNoteOffLevel => takeOps1 (.envNoteOffLevel f.inst) ops
  | .envRd => takeOps0 (.envRd f.inst f.reg) ops

/-- The decoder: legality first, then the length (R290), so an illegal word is never a length error. -/
def decode (t : Transaction) : Except DecodeError Instr := do
  let k ← checkCmd (cmdFields t.cmd)
  attachOps k (cmdFields t.cmd) t.ops

/-- The command-word fields of an opcode with the given INST, REG and MOD. -/
def fieldsWith (k : Opcode) (inst reg : BitVec 8) (mod : BitVec 2) : CmdFields :=
  ⟨(opcodeRow k).unit, (opcodeRow k).op, inst, reg, 0, mod⟩

/-- The command-word fields of a command (R81, R90). -/
def instrFields : Instr → CmdFields
  | .sysNop => fieldsWith .sysNop 0 0 0
  | .sysPhaseFrac32 _ => fieldsWith .sysPhaseFrac32 0 0 0
  | .sysPhaseFrac64 _ _ => fieldsWith .sysPhaseFrac64 0 0 0
  | .sysPhaseFreq _ _ => fieldsWith .sysPhaseFreq 0 0 0
  | .sysStatus => fieldsWith .sysStatus 0 0 0
  | .piInit inst mode _ _ => fieldsWith .piInit inst 0 (modOfMode mode)
  | .piLoad inst mode _ _ => fieldsWith .piLoad inst 0 (modOfMode mode)
  | .piInc inst => fieldsWith .piInc inst 0 0
  | .piDec inst => fieldsWith .piDec inst 0 0
  | .piFirst inst => fieldsWith .piFirst inst 0 0
  | .piLast inst => fieldsWith .piLast inst 0 0
  | .piRd inst reg => fieldsWith .piRd inst reg 0
  | .oscInit inst _ _ => fieldsWith .oscInit inst 0 0
  | .oscConfig inst _ _ => fieldsWith .oscConfig inst 0 0
  | .oscTick inst => fieldsWith .oscTick inst 0 0
  | .oscRd inst reg => fieldsWith .oscRd inst reg 0
  | .winInit inst _ _ => fieldsWith .winInit inst 0 0
  | .winConfig inst _ _ => fieldsWith .winConfig inst 0 0
  | .winTick inst => fieldsWith .winTick inst 0 0
  | .winRd inst reg => fieldsWith .winRd inst reg 0
  | .envInit inst _ _ _ _ _ _ => fieldsWith .envInit inst 0 0
  | .envTick inst => fieldsWith .envTick inst 0 0
  | .envTrigger inst ad _ => fieldsWith .envTrigger inst 0 ad
  | .envLegato inst => fieldsWith .envLegato inst 0 0
  | .envDecay inst => fieldsWith .envDecay inst 0 0
  | .envRelease inst => fieldsWith .envRelease inst 0 0
  | .envState inst => fieldsWith .envState inst 0 0
  | .envSetAttack inst _ _ => fieldsWith .envSetAttack inst 0 0
  | .envSetDecay inst _ _ => fieldsWith .envSetDecay inst 0 0
  | .envSetSlevel inst _ => fieldsWith .envSetSlevel inst 0 0
  | .envSetSrate inst _ _ => fieldsWith .envSetSrate inst 0 0
  | .envSetRelease inst _ _ => fieldsWith .envSetRelease inst 0 0
  | .envNoteOffLevel inst _ => fieldsWith .envNoteOffLevel inst 0 0
  | .envRd inst reg => fieldsWith .envRd inst reg 0

/-- The operand words of a command, in the order of R90. -/
def instrOps : Instr → List Word
  | .sysNop => []
  | .sysPhaseFrac32 frac => [frac]
  | .sysPhaseFrac64 lo hi => [lo, hi]
  | .sysPhaseFreq f sps => [f, sps]
  | .sysStatus => []
  | .piInit _ _ f sps => [f, sps]
  | .piLoad _ _ phase step => [phase, step]
  | .piInc .. => []
  | .piDec .. => []
  | .piFirst .. => []
  | .piLast .. => []
  | .piRd .. => []
  | .oscInit _ f sps => [f, sps]
  | .oscConfig _ f sps => [f, sps]
  | .oscTick .. => []
  | .oscRd .. => []
  | .winInit _ width sps => [width, sps]
  | .winConfig _ width sps => [width, sps]
  | .winTick .. => []
  | .winRd .. => []
  | .envInit _ attack decay slevel srate release sps => [attack, decay, slevel, srate, release, sps]
  | .envTick .. => []
  | .envTrigger _ _ level => [level]
  | .envLegato .. => []
  | .envDecay .. => []
  | .envRelease .. => []
  | .envState .. => []
  | .envSetAttack _ sec sps => [sec, sps]
  | .envSetDecay _ sec sps => [sec, sps]
  | .envSetSlevel _ gain => [gain]
  | .envSetSrate _ sec sps => [sec, sps]
  | .envSetRelease _ sec sps => [sec, sps]
  | .envNoteOffLevel _ level => [level]
  | .envRd .. => []

/-- The command word of a command: what fault entry records in `FCMD` (R285). -/
def cmdWord (i : Instr) : Word := packCmd (instrFields i)

/-- The transaction of a command. -/
def encode (i : Instr) : Transaction := ⟨cmdWord i, instrOps i⟩

/-- The operand count UNIT and OP fix, from the command word alone (R93); 0 for a reserved opcode. -/
def opsLength (cmd : Word) : Nat :=
  match opcodeAt (cmdFields cmd).unit (cmdFields cmd).op with
  | some k => (opcodeRow k).nOps
  | none => 0

/-- A word as a serialising platform sends it: least-significant byte first (R63). -/
def wordToBytes (w : Word) : List Byte :=
  [w.extractLsb' 0 8, w.extractLsb' 8 8, w.extractLsb' 16 8, w.extractLsb' 24 8]

/-- The words of a little-endian byte stream (R63); `none` where the bytes are not whole words (R64). -/
def bytesToWords : List Byte → Option (List Word)
  | [] => some []
  | a :: b :: c :: d :: rest => (bytesToWords rest).map fun ws => (d ++ c ++ b ++ a) :: ws
  | _ => none

/-- A transaction as the bytes a serialising platform sends (R63). -/
def transactionToBytes (t : Transaction) : List Byte :=
  (t.cmd :: t.ops).flatMap wordToBytes

/-- The transaction a serialising platform's bytes stand for (R63); a transaction has a command word (R80). -/
def transactionOfBytes (bs : List Byte) : Option Transaction :=
  match bytesToWords bs with
  | some (cmd :: ops) => some ⟨cmd, ops⟩
  | _ => none

/-- The transaction whose bits are `w`, word 0 in bits 31:0: every word `nbits` reaches, and zeros up to the
length UNIT and OP fix (R93). -/
def transactionOfBits (nbits w : Nat) : Transaction :=
  let v := w % 2 ^ nbits
  let cmd : Word := BitVec.ofNat 32 v
  ⟨cmd, (List.range (max (opsLength cmd) ((nbits - 1) / 32))).map
    fun k => BitVec.ofNat 32 (v >>> (32 * (k + 1)))⟩

/-- The instruction the decoder reads from an instruction whose bits are `w`. -/
def decodeTableWord (nbits w : Nat) : Option Instr :=
  match decode (transactionOfBits nbits w) with
  | .ok i => some i
  | .error _ => none

end Sys2Proof
end

