-- ==== Sys2Proof/Machine/State.lean ====
section
/-! DEFINITION. The state of QCORE as plain data: every register of 10_state.md R24, the fault registers of R55,
the host's deliveries and the result words (30_encoding.md R80), and the state after reset (70_reset_and_hazards.md
R310, R311). -/

namespace Sys2Proof.Machine

/-- The codes `FCODE` records (60_exceptions.md R281). Codes 10 to 15 are reserved and never recorded, so they
have no constructor; the 4-bit code is `faultCodeBits`. -/
inductive FaultCode where
  /-- 0: no fault; the reset value. -/
  | none
  /-- 1: the command word is illegal (R92). -/
  | illegalCommand
  /-- 2: the operand-word count is not the opcode's `n_ops` (R88). -/
  | badLength
  /-- 3: `INST` is at or above the unit's count (R84). -/
  | badInstance
  /-- 4: the instance's `INIT` bit is 0 and the command is not a construct command (R282). -/
  | uninitialised
  /-- 5: a fraction operand is negative or NaN (R120). -/
  | negativeFraction
  /-- 6: an sps operand is NaN, infinite, zero or negative. -/
  | badSampleRate
  /-- 7: a frequency operand is NaN or infinite. -/
  | badFrequency
  /-- 8: a time operand is NaN, infinite, zero or negative, or `2/width` overflows. -/
  | badDuration
  /-- 9: a level or gain operand is NaN or infinite. -/
  | badLevel
deriving DecidableEq, Repr

/-- The seven envelope states (10_state.md R51). Code 7 is reserved and never written, so it has no constructor;
the 3-bit code is `envStateCode`. -/
inductive EnvState where
  | noteOff
  | attack
  | legato
  | decay
  | sustain
  | release
  | noteRelease
deriving DecidableEq, Repr

/-- The registers of one phase iterator (R24, R30 to R32) with its `INIT` bit (R23). -/
structure PiRegs where
  init : Bool
  phase : Word
  step : Word
  mode : PiMode
deriving DecidableEq, Repr

/-- The registers of one oscillator (R24, R35) with its `INIT` bit. -/
structure OscRegs where
  init : Bool
  a : Word
  s0 : Word
  s1 : Word
deriving DecidableEq, Repr

/-- The registers of one window generator (R24, R40), two private oscillators, with its `INIT` bit. -/
structure WinRegs where
  init : Bool
  a1 : Word
  s01 : Word
  s11 : Word
  a2 : Word
  s02 : Word
  s12 : Word
deriving DecidableEq, Repr

/-- The registers of one envelope generator (R24, R50) with its `INIT` bit. `ad` is 2-bit two's complement
(R52). -/
structure EnvRegs where
  init : Bool
  state : EnvState
  y : Word
  level : Word
  ca : Word
  cd : Word
  sl : Word
  cs : Word
  cr : Word
  ssl : Word
  nol : Word
  ad : BitVec 2
deriving DecidableEq, Repr

/-- An iterator after reset: `INIT = 0` and its registers unset, held as zeros that no command can observe
(R311; log entry 3). -/
def PiRegs.unset : PiRegs := { init := false, phase := 0, step := 0, mode := .wrap }

/-- An oscillator after reset (R311; log entry 3). -/
def OscRegs.unset : OscRegs := { init := false, a := 0, s0 := 0, s1 := 0 }

/-- A window generator after reset (R311; log entry 3). -/
def WinRegs.unset : WinRegs :=
  { init := false, a1 := 0, s01 := 0, s11 := 0, a2 := 0, s02 := 0, s12 := 0 }

/-- An envelope after reset (R311; log entry 3). -/
def EnvRegs.unset : EnvRegs :=
  { init := false, state := .noteOff, y := 0, level := 0, ca := 0, cd := 0, sl := 0, cs := 0, cr := 0,
    ssl := 0, nol := 0, ad := 0 }

/-- The instances of one unit by index, as a sparse list in one canonical form (`bankWf`): indices strictly
rising, and no entry equal to what an unlisted index reads as, the unit's reset record. So equal banks are equal
data whatever the instance count. -/
abbrev Bank (α : Type) := List (Nat × α)

/-- What reaches QCORE from outside: a transaction (R80), or an assertion of its one reset input (R310), which may
come while a transaction is in progress (R297). -/
inductive HostEvent where
  /-- The host delivers a transaction whole. -/
  | transaction (t : Transaction)
  /-- Reset is asserted, with the transaction it interrupts, if any. -/
  | reset (inProgress : Option Transaction)
deriving DecidableEq, Repr

/-- The whole machine. -/
structure State where
  /-- The implementation parameters (R9, R11); no step changes them (log entry 1). -/
  params : Params
  /-- The phase iterators. -/
  pi : Bank PiRegs
  /-- The oscillators. -/
  osc : Bank OscRegs
  /-- The window generators. -/
  win : Bank WinRegs
  /-- The envelope generators. -/
  env : Bank EnvRegs
  /-- `SYS.FAULTED` (R55). -/
  faulted : Bool
  /-- `SYS.FCODE` (R55). -/
  fcode : FaultCode
  /-- `SYS.FCMD` (R55). -/
  fcmd : Word
  /-- The result words of the latest transaction (R80; log entry 5). -/
  result : List Word
  /-- What the host has delivered and QCORE has not taken yet, oldest first (R22, R66; log entry 4). -/
  inbox : List HostEvent
deriving DecidableEq, Repr

/-- Stops of the model with a fault: none. QCORE's own faults are sticky state that the machine goes on in (R285,
R288), so they are next states, and no rule gives a condition in which the machine has no next state. -/
inductive Fault where
deriving DecidableEq, Repr

/-- Stops of the model without a meaning. -/
inductive Refusal where
  /-- Raised by `exec` for an instruction that has no meaning yet; safe. No arm raises it. -/
  | notModelled (mnemonic : String)
deriving DecidableEq, Repr

/-- The machine after power-up or reset, for the given parameters (R310, R311): every instance unset with
`INIT = 0`, the SYS registers 0, nothing delivered and nothing returned. -/
def State.powerUp (p : Params) : State :=
  { params := p, pi := [], osc := [], win := [], env := [], faulted := false, fcode := .none, fcmd := 0,
    result := [], inbox := [] }

/-- The machine right after reset, with the reference defaults of the OPEN parameters (log entry 1). -/
def State.reset : State := State.powerUp Params.reference

/-- The `FAULT` output line, whose level equals `FAULTED` (R56). -/
def State.faultLine (s : State) : Bool := s.faulted

end Sys2Proof.Machine
end

