-- ==== Sys2Proof/Machine/Operands.lean ====
section
/-! DEFINITION. Operand forms: the operand checks of 60_exceptions.md R281, the converters of 40_phase.md R120 and
R123, the coefficients of R160, R180 and R200, the code numbers of 10_state.md R51 and 60_exceptions.md R281, and
the register an RD index names (R24). -/

namespace Sys2Proof.Machine

/-- The 4-bit code of `FCODE` (R281). -/
def faultCodeBits : FaultCode → BitVec 4
  | .none => 0
  | .illegalCommand => 1
  | .badLength => 2
  | .badInstance => 3
  | .uninitialised => 4
  | .negativeFraction => 5
  | .badSampleRate => 6
  | .badFrequency => 7
  | .badDuration => 8
  | .badLevel => 9

/-- The fault a rejected transaction raises (R92, R88, R281). -/
def decodeFault : DecodeError → FaultCode
  | .reservedUnit => .illegalCommand
  | .reservedOp => .illegalCommand
  | .sysInst => .illegalCommand
  | .badReg => .illegalCommand
  | .reservedBits => .illegalCommand
  | .badMod => .illegalCommand
  | .badLength => .badLength

/-- The 3-bit code of an envelope state (R51). -/
def envStateCode : EnvState → BitVec 3
  | .noteOff => 0
  | .attack => 1
  | .legato => 2
  | .decay => 3
  | .sustain => 4
  | .release => 5
  | .noteRelease => 6

/-- The bit of `PI.MODE` (R32). -/
def piModeBit : PiMode → BitVec 1
  | .wrap => 0
  | .sat => 1

/-- A frequency operand is finite, or `BAD_FREQUENCY` (R123, R160). -/
def checkFrequency (f : Word) : Except FaultCode Unit :=
  if isFinite f then .ok () else .error .badFrequency

/-- A sample-rate operand is finite and positive, or `BAD_SAMPLE_RATE` (R123, R160, R180, R200). -/
def checkRate (sps : Word) : Except FaultCode Unit :=
  if isFinite sps && fgt sps zeroF then .ok () else .error .badSampleRate

/-- A time operand is finite and positive, or `BAD_DURATION` (R180, R200). -/
def checkDuration (sec : Word) : Except FaultCode Unit :=
  if isFinite sec && fgt sec zeroF then .ok () else .error .badDuration

/-- A level or gain operand is finite, or `BAD_LEVEL` (R201, R220, R227, R230). -/
def checkLevel (lv : Word) : Except FaultCode Unit :=
  if isFinite lv then .ok () else .error .badLevel

/-- The two operand words of a binary64 value, the low word first (20_memory.md R62). -/
def joinWords (lo hi : Word) : BitVec 64 := hi ++ lo

/-- `frac_to_phase(x)` (R120): a NaN or negative fraction faults (−0.0 is not negative), +inf and every fraction
that rounds to 2^32 or above saturate at `PMAX`. -/
def fracToPhase : ExactValue → Except FaultCode Word
  | .nan => .error .negativeFraction
  | .inf neg => if neg then .error .negativeFraction else .ok phaseMax
  | .fin neg num den =>
    if neg && num != 0 then .error .negativeFraction
    else .ok (BitVec.ofNat 32 (min (roundNearestEven (num * 2 ^ 32) den) phaseMax.toNat))

/-- `RNI(f * 2^32 / sps) mod 2^32` for finite `f` and positive finite `sps`, in exact rational arithmetic (R123). -/
def freqToPhaseValue (f sps : Word) : Word :=
  let magnitude : Word := BitVec.ofNat 32 (roundNearestEven (magUnits f * 2 ^ 32) (magUnits sps))
  if signBit f then -magnitude else magnitude

/-- `freq_to_phase(f, sps)` (R123). -/
def freqToPhase (f sps : Word) : Except FaultCode Word := do
  checkFrequency f
  checkRate sps
  return freqToPhaseValue f sps

/-- The value of `osc_coef` once its operands passed: `2 * SIN_APPROX(PI32 * (f / sps))` (R160). -/
def oscCoefValue (f sps : Word) : Word :=
  fmul twoF (Config.sinApprox (fmul pi32 (fdiv f sps)))

/-- `osc_coef(f, sps)` (R160). -/
def oscCoef (f sps : Word) : Except FaultCode Word := do
  checkFrequency f
  checkRate sps
  return oscCoefValue f sps

/-- A window width is finite, positive and not so small that `2/width` overflows, or `BAD_DURATION` (R180, R281). -/
def checkWidth (width : Word) : Except FaultCode Unit := do
  checkDuration width
  if isFinite (fdiv twoF width) then .ok () else .error .badDuration

/-- `win_coef(width, sps)` (R180): the coefficients at `1/width` and `2/width`. DESIGN CHOICE (log entry 17): all
checks of the width come before the sample rate's, operand by operand (60_exceptions.md R290 check 5, 00_scope.md
R18, the exception lists of R181 and R182), where R180's pseudocode puts the overflow of `2/width` after the sample
rate. -/
def winCoef (width sps : Word) : Except FaultCode (Word × Word) := do
  checkWidth width
  checkRate sps
  let a1 ← oscCoef (fdiv oneF width) sps
  let a2 ← oscCoef (fdiv twoF width) sps
  return (a1, a2)

/-- The value of `env_coef` once its operands passed: `EXP_APPROX(-2 / (sps * sec))` (R200). DEDUCED (log entry 7): a
NaN of the helper is kept as it is returned. -/
def envCoefValue (sec sps : Word) : Word :=
  Config.expApprox (fdiv negTwoF (fmul sps sec))

/-- `env_coef(sec, sps)` (R200). -/
def envCoef (sec sps : Word) : Except FaultCode Word := do
  checkDuration sec
  checkRate sps
  return envCoefValue sec sps

/-- The value an RD of a phase iterator returns (R24, R264); `none` for an index it does not have (R85). -/
def piRegister (r : PiRegs) (reg : BitVec 8) : Option Word :=
  match reg.toNat with
  | 0 => some r.phase
  | 1 => some r.step
  | 2 => some ((piModeBit r.mode).setWidth 32)
  | _ => none

/-- The value an RD of an oscillator returns (R24, R264). -/
def oscRegister (r : OscRegs) (reg : BitVec 8) : Option Word :=
  match reg.toNat with
  | 0 => some r.a
  | 1 => some r.s0
  | 2 => some r.s1
  | _ => none

/-- The value an RD of a window generator returns (R24, R264). -/
def winRegister (r : WinRegs) (reg : BitVec 8) : Option Word :=
  match reg.toNat with
  | 0 => some r.a1
  | 1 => some r.s01
  | 2 => some r.s11
  | 3 => some r.a2
  | 4 => some r.s02
  | 5 => some r.s12
  | _ => none

/-- The value an RD of an envelope returns (R24, R264): `STATE` zero-extended, `AD` sign-extended. -/
def envRegister (r : EnvRegs) (reg : BitVec 8) : Option Word :=
  match reg.toNat with
  | 0 => some ((envStateCode r.state).setWidth 32)
  | 1 => some r.y
  | 2 => some r.level
  | 3 => some r.ca
  | 4 => some r.cd
  | 5 => some r.sl
  | 6 => some r.cs
  | 7 => some r.cr
  | 8 => some r.ssl
  | 9 => some r.nol
  | 10 => some (r.ad.signExtend 32)
  | _ => none

end Sys2Proof.Machine
end

