-- ==== Sys2Proof/Machine/Flags.lean ====
section
/-! DEFINITION. QCORE has no condition-code register (10_state.md R57); the software-visible Booleans are computed
here: the boundary predicates of an iterator (40_phase.md R130, R131), a Boolean's result word (30_encoding.md R89),
and the status word (43_system.md R262). -/

namespace Sys2Proof.Machine

/-- The result word of a Boolean: 1 for true and 0 for false (R89). -/
def boolWord (b : Bool) : Word := if b then 1 else 0

/-- `first`: the phase is less than one step past zero (R130). -/
def phaseFirst (r : PiRegs) : Bool := r.phase.ult r.step

/-- `last`: the phase is within one step of wraparound (R131). -/
def phaseLast (r : PiRegs) : Bool := (phaseMax - r.phase).ult r.step

/-- Word 0 of the status result: bit 31 is `FAULTED`, bits 3:0 are `FCODE` (R262). -/
def statusWord (faulted : Bool) (code : FaultCode) : Word :=
  BitVec.ofBool faulted ++ (0 : BitVec 27) ++ faultCodeBits code

end Sys2Proof.Machine
end

