-- ==== Sys2Proof/Machine/Ops.lean ====
section
/-! DEFINITION. The shared operations: a unit's instances by index, fault entry (60_exceptions.md R285), refusal
while faulted (R288), reset (70_reset_and_hazards.md R310), the performance of a command as one atomic step
(00_scope.md R18), and the advances of an iterator, an oscillator and an envelope. -/

namespace Sys2Proof.Machine

/-- What stepping the machine answers. -/
abbrev StepOutcome := Host.Outcome State Fault Refusal

/-- The instance at an index; an unlisted one is in its reset state `d`. -/
def bankGet {α : Type} (d : α) : Bank α → Nat → α
  | [], _ => d
  | (k, v) :: rest, i => if k = i then v else bankGet d rest i

/-- The bank without the entries at an index. -/
def bankErase {α : Type} : Bank α → Nat → Bank α
  | [], _ => []
  | (k, v) :: rest, i => if k = i then bankErase rest i else (k, v) :: bankErase rest i

/-- The bank with an entry put before the first higher index. -/
def bankInsert {α : Type} : Bank α → Nat → α → Bank α
  | [], i, v => [(i, v)]
  | (k, w) :: rest, i, v => if i < k then (i, v) :: (k, w) :: rest else (k, w) :: bankInsert rest i v

/-- The bank with the instance at `i` set to `v`, in canonical form: the reset state `d` is not listed. -/
def bankSet {α : Type} [DecidableEq α] (d : α) (b : Bank α) (i : Nat) (v : α) : Bank α :=
  if v = d then bankErase b i else bankInsert (bankErase b i) i v

/-- The canonical form of a bank: indices strictly rising, no entry equal to the reset state. -/
def bankWf {α : Type} [DecidableEq α] (d : α) : Bank α → Bool
  | [] => true
  | (k, v) :: rest => decide (v ≠ d) && rest.all (fun e => decide (k < e.1)) && bankWf d rest

/-- `PI[n]`. -/
def State.piAt (s : State) (n : Nat) : PiRegs := bankGet PiRegs.unset s.pi n

/-- `OSC[n]`. -/
def State.oscAt (s : State) (n : Nat) : OscRegs := bankGet OscRegs.unset s.osc n

/-- `WIN[n]`. -/
def State.winAt (s : State) (n : Nat) : WinRegs := bankGet WinRegs.unset s.win n

/-- `ENV[n]`. -/
def State.envAt (s : State) (n : Nat) : EnvRegs := bankGet EnvRegs.unset s.env n

/-- The state with `PI[n]` set. -/
def State.setPi (s : State) (n : Nat) (r : PiRegs) : State :=
  { s with pi := bankSet PiRegs.unset s.pi n r }

/-- The state with `OSC[n]` set. -/
def State.setOsc (s : State) (n : Nat) (r : OscRegs) : State :=
  { s with osc := bankSet OscRegs.unset s.osc n r }

/-- The state with `WIN[n]` set. -/
def State.setWin (s : State) (n : Nat) (r : WinRegs) : State :=
  { s with win := bankSet WinRegs.unset s.win n r }

/-- The state with `ENV[n]` set. -/
def State.setEnv (s : State) (n : Nat) (r : EnvRegs) : State :=
  { s with env := bankSet EnvRegs.unset s.env n r }

/-- The state with the transaction's result words (R80). -/
def State.withResult (s : State) (ws : List Word) : State := { s with result := ws }

/-- Fault entry (R285): the code and the faulting command word are recorded, no result is returned, no other
register is written. -/
def takeFault (c : FaultCode) (cmd : Word) (s : State) : State :=
  { s with faulted := true, fcode := c, fcmd := cmd, result := [] }

/-- Refusal while faulted (R288): nothing is written or recorded and no result word is returned. -/
def refuseCommand (s : State) : State := s.withResult []

/-- Reset (R310): every instance unset, the SYS registers 0. It is the only return from a fault (R292). The
parameters and what the host has still to deliver are outside the machine's registers and stand. -/
def applyReset (s : State) : State := { State.powerUp s.params with inbox := s.inbox }

/-- A transaction the decoder rejects: refused while faulted (R288), else it faults (R290). -/
def rejectTransaction (e : DecodeError) (cmd : Word) (s : State) : State :=
  if s.faulted then refuseCommand s else takeFault (decodeFault e) cmd s

/-- The performance of a command (R18, R288, R290): refused while faulted; else `body` is the state after all its
writes at once, or the first fault that applies, of which only the record is kept. -/
def perform (i : Instr) (s : State) (body : Except FaultCode State) : StepOutcome :=
  if s.faulted then .next (refuseCommand s)
  else match body with
    | .ok t => .next t
    | .error c => .next (takeFault c (cmdWord i) s)

/-- `INST` is below the unit's count, or `BAD_INSTANCE` (R84). -/
def checkInst (count : Nat) (inst : BitVec 8) : Except FaultCode Unit :=
  if inst.toNat < count then .ok () else .error .badInstance

/-- The instance's `INIT` bit is 1, or `UNINITIALISED` (R282). -/
def checkInit (init : Bool) : Except FaultCode Unit :=
  if init then .ok () else .error .uninitialised

/-- `PI[INST]` for a command that is no construct command (R290 checks 3 and 4). -/
def livePi (s : State) (inst : BitVec 8) : Except FaultCode PiRegs := do
  checkInst s.params.nPi inst
  checkInit (s.piAt inst.toNat).init
  return s.piAt inst.toNat

/-- `OSC[INST]` for a command that is no construct command. -/
def liveOsc (s : State) (inst : BitVec 8) : Except FaultCode OscRegs := do
  checkInst s.params.nOsc inst
  checkInit (s.oscAt inst.toNat).init
  return s.oscAt inst.toNat

/-- `WIN[INST]` for a command that is no construct command. -/
def liveWin (s : State) (inst : BitVec 8) : Except FaultCode WinRegs := do
  checkInst s.params.nWin inst
  checkInit (s.winAt inst.toNat).init
  return s.winAt inst.toNat

/-- `ENV[INST]` for a command that is no construct command. -/
def liveEnv (s : State) (inst : BitVec 8) : Except FaultCode EnvRegs := do
  checkInst s.params.nEnv inst
  checkInit (s.envAt inst.toNat).init
  return s.envAt inst.toNat

/-- The REG field of an RD is below its unit's register count, or the word is illegal (R85, R92). Only an `Instr`
that no word decodes to fails this. -/
def checkReg (k : Opcode) (reg : BitVec 8) : Except FaultCode Unit :=
  if regAllowed k reg then .ok () else .error .illegalCommand

/-- The value of an RD; an index the unit does not have is an illegal command (R85, R92). -/
def readRegister (value : Option Word) : Except FaultCode Word :=
  match value with
  | some v => .ok v
  | none => .error .illegalCommand

/-- The phase after one increment (R127): in SAT mode a carry out clamps to `PMAX`. -/
def phaseInc (r : PiRegs) : Word :=
  match r.mode with
  | .wrap => r.phase + r.step
  | .sat => if (r.phase + r.step).ult r.phase then phaseMax else r.phase + r.step

/-- The phase after one decrement (R128): in SAT mode a borrow clamps to 0. -/
def phaseDec (r : PiRegs) : Word :=
  match r.mode with
  | .wrap => r.phase - r.step
  | .sat => if r.phase.ult (r.phase - r.step) then 0 else r.phase - r.step

/-- One step of the two-pole recurrence (R163): the second update reads the first one's result. The pair is
`(s0, s1)` after the step. -/
def oscStep (a s0 s1 : Word) : Word × Word :=
  let s0n := fsub s0 (fmul a s1)
  (s0n, fadd s1 (fmul a s0n))

/-- The window sample `(BK0 - BK1*c1) + BK2*c2` (R183). -/
def blackmanSum (c1 c2 : Word) : Word :=
  fadd (fsub blackman0 (fmul blackman1 c1)) (fmul blackman2 c2)

/-- A tick in `attack` (R212): +1 moves to `decay`, −1 to `sustain`, the other auto-decay values hold. -/
def tickAttack (r : EnvRegs) : EnvRegs :=
  let y := approach r.y overshoot r.ca
  if fgt y r.level then
    if r.ad = 1 then { r with y := r.level, state := .decay }
    else if r.ad = 3 then { r with y := r.level, state := .sustain, ssl := r.level }
    else { r with y := r.level }
  else { r with y := y }

/-- A tick in `decay` (R213). -/
def tickDecay (r : EnvRegs) : EnvRegs :=
  let t := fmul r.level r.sl
  let y := approach r.y t r.cd
  if near y t then { r with y := t, ssl := t, state := .sustain } else { r with y := y }

/-- A tick in `sustain` (R214). -/
def tickSustain (r : EnvRegs) : EnvRegs := { r with y := fmul r.y r.cs }

/-- A tick in `legato` (R215). -/
def tickLegato (r : EnvRegs) : EnvRegs :=
  let y := approach r.y r.ssl r.ca
  if near y r.ssl then { r with y := r.ssl, state := .sustain } else { r with y := y }

/-- A tick in `release` (R216): the branch tests `NOL > H` (90_conflicts.md C6). -/
def tickRelease (r : EnvRegs) : EnvRegs :=
  let y := approach r.y r.nol r.cr
  if near y r.nol then
    if fgt r.nol hysteresis then { r with y := r.nol, state := .noteRelease }
    else { r with y := zeroF, state := .noteOff }
  else { r with y := y }

/-- A tick in `note_release` (R217): the secondary floor is `0.1 * NOL` (90_conflicts.md C6). -/
def tickNoteRelease (r : EnvRegs) : EnvRegs :=
  let t := fmul secondaryFactor r.nol
  let y := approach r.y t r.cr
  if near y t then { r with y := zeroF, state := .noteOff } else { r with y := y }

/-- One sample of the envelope (R210): at most one state transition, which the next tick sees. In `note_off` no
register is written (R211). -/
def envAdvance (r : EnvRegs) : EnvRegs :=
  match r.state with
  | .noteOff => r
  | .attack => tickAttack r
  | .decay => tickDecay r
  | .sustain => tickSustain r
  | .legato => tickLegato r
  | .release => tickRelease r
  | .noteRelease => tickNoteRelease r

/-- The result of a tick: the level after it, `+0.0` in `note_off` (R210, R211). -/
def envTickResult (r : EnvRegs) : Word :=
  match r.state with
  | .noteOff => zeroF
  | _ => (envAdvance r).y

end Sys2Proof.Machine
end

