-- ==== Sys2Proof/Machine/Env.lean ====
section
/-! DEFINITION. The meanings of the ENV commands: 42_envelope.md R201 to R230; 43_system.md R264. -/

namespace Sys2Proof.Machine

/-- `ENV.INIT` (R201): the operands are checked in order before any coefficient is derived. -/
def execEnvInit (inst : BitVec 8) (attack decay slevel srate release sps : Word) (s : State) : StepOutcome :=
  perform (.envInit inst attack decay slevel srate release sps) s do
    checkInst s.params.nEnv inst
    checkDuration attack
    checkDuration decay
    checkLevel slevel
    checkDuration srate
    checkDuration release
    checkRate sps
    return (s.setEnv inst.toNat
      { init := true, state := .noteOff, y := zeroF, level := zeroF,
        ca := envCoefValue attack sps, cd := envCoefValue decay sps, sl := slevel,
        cs := envCoefValue srate sps, cr := envCoefValue release sps,
        ssl := zeroF, nol := s.params.noteOffLevelInit, ad := 1 }).withResult []

/-- `ENV.TICK` (R210 to R217): the result is the level after the update. -/
def execEnvTick (inst : BitVec 8) (s : State) : StepOutcome :=
  perform (.envTick inst) s do
    let r ← liveEnv s inst
    return (s.setEnv inst.toNat (envAdvance r)).withResult [envTickResult r]

/-- `ENV.TRIGGER` (R220): a level not above `Y` is ignored whole. -/
def execEnvTrigger (inst : BitVec 8) (ad : BitVec 2) (level : Word) (s : State) : StepOutcome :=
  perform (.envTrigger inst ad level) s do
    let r ← liveEnv s inst
    checkLevel level
    if flt r.y level then
      return (s.setEnv inst.toNat { r with state := .attack, level := level, ad := ad }).withResult []
    else return s.withResult []

/-- `ENV.LEGATO` (R221). -/
def execEnvLegato (inst : BitVec 8) (s : State) : StepOutcome :=
  perform (.envLegato inst) s do
    let r ← liveEnv s inst
    if r.state = .sustain ∧ flt r.y r.ssl = true then
      return (s.setEnv inst.toNat { r with state := .legato }).withResult []
    else return s.withResult []

/-- `ENV.DECAY` (R222): only `AD` is written. -/
def execEnvDecay (inst : BitVec 8) (s : State) : StepOutcome :=
  perform (.envDecay inst) s do
    let r ← liveEnv s inst
    return (s.setEnv inst.toNat { r with ad := 1 }).withResult []

/-- `ENV.RELEASE` (R223). -/
def execEnvRelease (inst : BitVec 8) (s : State) : StepOutcome :=
  perform (.envRelease inst) s do
    let r ← liveEnv s inst
    if r.state = .noteOff then return s.withResult []
    else return (s.setEnv inst.toNat { r with state := .release }).withResult []

/-- `ENV.STATE` (R224). -/
def execEnvState (inst : BitVec 8) (s : State) : StepOutcome :=
  perform (.envState inst) s do
    let r ← liveEnv s inst
    return s.withResult [(envStateCode r.state).setWidth 32]

/-- `ENV.SET_ATTACK` (R225). -/
def execEnvSetAttack (inst : BitVec 8) (sec sps : Word) (s : State) : StepOutcome :=
  perform (.envSetAttack inst sec sps) s do
    let r ← liveEnv s inst
    let c ← envCoef sec sps
    return (s.setEnv inst.toNat { r with ca := c }).withResult []

/-- `ENV.SET_DECAY` (R226). -/
def execEnvSetDecay (inst : BitVec 8) (sec sps : Word) (s : State) : StepOutcome :=
  perform (.envSetDecay inst sec sps) s do
    let r ← liveEnv s inst
    let c ← envCoef sec sps
    return (s.setEnv inst.toNat { r with cd := c }).withResult []

/-- `ENV.SET_SLEVEL` (R227). -/
def execEnvSetSlevel (inst : BitVec 8) (gain : Word) (s : State) : StepOutcome :=
  perform (.envSetSlevel inst gain) s do
    let r ← liveEnv s inst
    checkLevel gain
    return (s.setEnv inst.toNat { r with sl := gain }).withResult []

/-- `ENV.SET_SRATE` (R228). -/
def execEnvSetSrate (inst : BitVec 8) (sec sps : Word) (s : State) : StepOutcome :=
  perform (.envSetSrate inst sec sps) s do
    let r ← liveEnv s inst
    let c ← envCoef sec sps
    return (s.setEnv inst.toNat { r with cs := c }).withResult []

/-- `ENV.SET_RELEASE` (R229). -/
def execEnvSetRelease (inst : BitVec 8) (sec sps : Word) (s : State) : StepOutcome :=
  perform (.envSetRelease inst sec sps) s do
    let r ← liveEnv s inst
    let c ← envCoef sec sps
    return (s.setEnv inst.toNat { r with cr := c }).withResult []

/-- `ENV.NOTE_OFF_LEVEL` (R230): the floor is only lowered. -/
def execEnvNoteOffLevel (inst : BitVec 8) (level : Word) (s : State) : StepOutcome :=
  perform (.envNoteOffLevel inst level) s do
    let r ← liveEnv s inst
    checkLevel level
    if flt level r.nol then return (s.setEnv inst.toNat { r with nol := level }).withResult []
    else return s.withResult []

/-- `ENV.RD` (R264). -/
def execEnvRd (inst reg : BitVec 8) (s : State) : StepOutcome :=
  perform (.envRd inst reg) s do
    checkReg .envRd reg
    let r ← liveEnv s inst
    let v ← readRegister (envRegister r reg)
    return s.withResult [v]

end Sys2Proof.Machine
end

