-- ==== Sys2Proof/Machine/Osc.lean ====
section
/-! DEFINITION. The meanings of the OSC commands: 41_oscillator.md R161 to R163; 43_system.md R264. -/

namespace Sys2Proof.Machine

/-- `OSC.INIT` (R161): the state starts at `(1, 0)`. -/
def execOscInit (inst : BitVec 8) (f sps : Word) (s : State) : StepOutcome :=
  perform (.oscInit inst f sps) s do
    checkInst s.params.nOsc inst
    let a ← oscCoef f sps
    return (s.setOsc inst.toNat { init := true, a := a, s0 := oneF, s1 := zeroF }).withResult []

/-- `OSC.CONFIG` (R162): the coefficient is derived again and the state kept. -/
def execOscConfig (inst : BitVec 8) (f sps : Word) (s : State) : StepOutcome :=
  perform (.oscConfig inst f sps) s do
    let r ← liveOsc s inst
    let a ← oscCoef f sps
    return (s.setOsc inst.toNat { r with a := a }).withResult []

/-- `OSC.TICK` (R163): the result is the new `(cos, sin)` pair. -/
def execOscTick (inst : BitVec 8) (s : State) : StepOutcome :=
  perform (.oscTick inst) s do
    let r ← liveOsc s inst
    let p := oscStep r.a r.s0 r.s1
    return (s.setOsc inst.toNat { r with s0 := p.1, s1 := p.2 }).withResult [p.1, p.2]

/-- `OSC.RD` (R264). -/
def execOscRd (inst reg : BitVec 8) (s : State) : StepOutcome :=
  perform (.oscRd inst reg) s do
    checkReg .oscRd reg
    let r ← liveOsc s inst
    let v ← readRegister (oscRegister r reg)
    return s.withResult [v]

end Sys2Proof.Machine
end

