-- ==== Sys2Proof/Machine/Pi.lean ====
section
/-! DEFINITION. The meanings of the PI commands: 40_phase.md R125 to R131; 43_system.md R264. -/

namespace Sys2Proof.Machine

/-- `PI.INIT` (R125). -/
def execPiInit (inst : BitVec 8) (mode : PiMode) (f sps : Word) (s : State) : StepOutcome :=
  perform (.piInit inst mode f sps) s do
    checkInst s.params.nPi inst
    let step ← freqToPhase f sps
    return (s.setPi inst.toNat { init := true, phase := 0, step := step, mode := mode }).withResult []

/-- `PI.LOAD` (R126). -/
def execPiLoad (inst : BitVec 8) (mode : PiMode) (phase step : Word) (s : State) : StepOutcome :=
  perform (.piLoad inst mode phase step) s do
    checkInst s.params.nPi inst
    return (s.setPi inst.toNat { init := true, phase := phase, step := step, mode := mode }).withResult []

/-- `PI.INC` (R127): the result is the new phase. -/
def execPiInc (inst : BitVec 8) (s : State) : StepOutcome :=
  perform (.piInc inst) s do
    let r ← livePi s inst
    return (s.setPi inst.toNat { r with phase := phaseInc r }).withResult [phaseInc r]

/-- `PI.DEC` (R128): the result is the new phase. -/
def execPiDec (inst : BitVec 8) (s : State) : StepOutcome :=
  perform (.piDec inst) s do
    let r ← livePi s inst
    return (s.setPi inst.toNat { r with phase := phaseDec r }).withResult [phaseDec r]

/-- `PI.FIRST` (R130). -/
def execPiFirst (inst : BitVec 8) (s : State) : StepOutcome :=
  perform (.piFirst inst) s do
    let r ← livePi s inst
    return s.withResult [boolWord (phaseFirst r)]

/-- `PI.LAST` (R131). -/
def execPiLast (inst : BitVec 8) (s : State) : StepOutcome :=
  perform (.piLast inst) s do
    let r ← livePi s inst
    return s.withResult [boolWord (phaseLast r)]

/-- `PI.RD` (R264). The index is checked first: it is part of the command word's legality (R290). -/
def execPiRd (inst reg : BitVec 8) (s : State) : StepOutcome :=
  perform (.piRd inst reg) s do
    checkReg .piRd reg
    let r ← livePi s inst
    let v ← readRegister (piRegister r reg)
    return s.withResult [v]

end Sys2Proof.Machine
end

