-- ==== Sys2Proof/Machine/Sys.lean ====
section
/-! DEFINITION. The meanings of the SYS commands: 43_system.md R260, R262; 40_phase.md R121, R122, R124. -/

namespace Sys2Proof.Machine

/-- `SYS.NOP` (R260). -/
def execSysNop (s : State) : StepOutcome :=
  perform .sysNop s (.ok (s.withResult []))

/-- `SYS.PHASE_FRAC32` (R121). -/
def execSysPhaseFrac32 (frac : Word) (s : State) : StepOutcome :=
  perform (.sysPhaseFrac32 frac) s do
    let p ← fracToPhase (exact32 frac)
    return s.withResult [p]

/-- `SYS.PHASE_FRAC64` (R122). -/
def execSysPhaseFrac64 (lo hi : Word) (s : State) : StepOutcome :=
  perform (.sysPhaseFrac64 lo hi) s do
    let p ← fracToPhase (exact64 (joinWords lo hi))
    return s.withResult [p]

/-- `SYS.PHASE_FREQ` (R124). -/
def execSysPhaseFreq (f sps : Word) (s : State) : StepOutcome :=
  perform (.sysPhaseFreq f sps) s do
    let p ← freqToPhase f sps
    return s.withResult [p]

/-- `SYS.STATUS` (R262): the one command that is performed while faulted (R288). It writes no register. -/
def execSysStatus (s : State) : StepOutcome :=
  .next (s.withResult [statusWord s.faulted s.fcode, s.fcmd])

end Sys2Proof.Machine
end

