-- ==== Sys2Proof/Machine/Win.lean ====
section
/-! DEFINITION. The meanings of the WIN commands: 41_oscillator.md R181 to R183; 43_system.md R264. -/

namespace Sys2Proof.Machine

/-- `WIN.INIT` (R181): both oscillators start at `(1, 0)`. -/
def execWinInit (inst : BitVec 8) (width sps : Word) (s : State) : StepOutcome :=
  perform (.winInit inst width sps) s do
    checkInst s.params.nWin inst
    let a ← winCoef width sps
    return (s.setWin inst.toNat
      { init := true, a1 := a.1, s01 := oneF, s11 := zeroF, a2 := a.2, s02 := oneF, s12 := zeroF }).withResult []

/-- `WIN.CONFIG` (R182): both coefficients are derived again and the states kept. -/
def execWinConfig (inst : BitVec 8) (width sps : Word) (s : State) : StepOutcome :=
  perform (.winConfig inst width sps) s do
    let r ← liveWin s inst
    let a ← winCoef width sps
    return (s.setWin inst.toNat { r with a1 := a.1, a2 := a.2 }).withResult []

/-- `WIN.TICK` (R183): both oscillators advance, and the result is the window sample of their new cosines. -/
def execWinTick (inst : BitVec 8) (s : State) : StepOutcome :=
  perform (.winTick inst) s do
    let r ← liveWin s inst
    let p := oscStep r.a1 r.s01 r.s11
    let q := oscStep r.a2 r.s02 r.s12
    return (s.setWin inst.toNat { r with s01 := p.1, s11 := p.2, s02 := q.1, s12 := q.2 }).withResult
      [blackmanSum p.1 q.1]

/-- `WIN.RD` (R264). -/
def execWinRd (inst reg : BitVec 8) (s : State) : StepOutcome :=
  perform (.winRd inst reg) s do
    checkReg .winRd reg
    let r ← liveWin s inst
    let v ← readRegister (winRegister r reg)
    return s.withResult [v]

end Sys2Proof.Machine
end

