-- ==== Sys2Proof/Machine/Dispatch.lean ====
section
/-! DEFINITION. The one dispatch: an arm per constructor of `Instr`, each one call of that command's meaning. -/

namespace Sys2Proof.Machine

def exec (i : Instr) (s : State) : Host.Outcome State Fault Refusal :=
  match i with
  | .sysNop => Sys2Proof.Machine.execSysNop s
  | .sysPhaseFrac32 frac => Sys2Proof.Machine.execSysPhaseFrac32 frac s
  | .sysPhaseFrac64 lo hi => Sys2Proof.Machine.execSysPhaseFrac64 lo hi s
  | .sysPhaseFreq f sps => Sys2Proof.Machine.execSysPhaseFreq f sps s
  | .sysStatus => Sys2Proof.Machine.execSysStatus s
  | .piInit inst mode f sps => Sys2Proof.Machine.execPiInit inst mode f sps s
  | .piLoad inst mode phase step => Sys2Proof.Machine.execPiLoad inst mode phase step s
  | .piInc inst => Sys2Proof.Machine.execPiInc inst s
  | .piDec inst => Sys2Proof.Machine.execPiDec inst s
  | .piFirst inst => Sys2Proof.Machine.execPiFirst inst s
  | .piLast inst => Sys2Proof.Machine.execPiLast inst s
  | .piRd inst reg => Sys2Proof.Machine.execPiRd inst reg s
  | .oscInit inst f sps => Sys2Proof.Machine.execOscInit inst f sps s
  | .oscConfig inst f sps => Sys2Proof.Machine.execOscConfig inst f sps s
  | .oscTick inst => Sys2Proof.Machine.execOscTick inst s
  | .oscRd inst reg => Sys2Proof.Machine.execOscRd inst reg s
  | .winInit inst width sps => Sys2Proof.Machine.execWinInit inst width sps s
  | .winConfig inst width sps => Sys2Proof.Machine.execWinConfig inst width sps s
  | .winTick inst => Sys2Proof.Machine.execWinTick inst s
  | .winRd inst reg => Sys2Proof.Machine.execWinRd inst reg s
  | .envInit inst attack decay slevel srate release sps => Sys2Proof.Machine.execEnvInit inst attack decay slevel srate release sps s
  | .envTick inst => Sys2Proof.Machine.execEnvTick inst s
  | .envTrigger inst ad level => Sys2Proof.Machine.execEnvTrigger inst ad level s
  | .envLegato inst => Sys2Proof.Machine.execEnvLegato inst s
  | .envDecay inst => Sys2Proof.Machine.execEnvDecay inst s
  | .envRelease inst => Sys2Proof.Machine.execEnvRelease inst s
  | .envState inst => Sys2Proof.Machine.execEnvState inst s
  | .envSetAttack inst sec sps => Sys2Proof.Machine.execEnvSetAttack inst sec sps s
  | .envSetDecay inst sec sps => Sys2Proof.Machine.execEnvSetDecay inst sec sps s
  | .envSetSlevel inst gain => Sys2Proof.Machine.execEnvSetSlevel inst gain s
  | .envSetSrate inst sec sps => Sys2Proof.Machine.execEnvSetSrate inst sec sps s
  | .envSetRelease inst sec sps => Sys2Proof.Machine.execEnvSetRelease inst sec sps s
  | .envNoteOffLevel inst level => Sys2Proof.Machine.execEnvNoteOffLevel inst level s
  | .envRd inst reg => Sys2Proof.Machine.execEnvRd inst reg s

end Sys2Proof.Machine
end

