-- ==== Sys2Proof/Machine/Step.lean ====
section
/-! DEFINITION. One step of the machine: it takes the oldest delivery of the host (10_state.md R22, 20_memory.md
R66) and performs it to completion; with nothing delivered, nothing happens (60_exceptions.md R305). -/

namespace Sys2Proof.Machine

/-- A delivered transaction: decoded, then performed; or rejected (R290). -/
def performTransaction (t : Transaction) (s : State) : Host.Outcome State Fault Refusal :=
  match decode t with
  | .ok i => exec i s
  | .error e => .next (rejectTransaction e t.cmd s)

/-- One step. A reset wins over the transaction it interrupts, which has no effect (R297). -/
def step (s : State) : Host.Outcome State Fault Refusal :=
  match s.inbox with
  | [] => .next s
  | .transaction t :: rest => performTransaction t { s with inbox := rest }
  | .reset _ :: rest => .next (applyReset { s with inbox := rest })

/-- The state with the instruction whose bits are `w` delivered as the next transaction (log entry 4). -/
def State.withFetchWord (s : State) (nbits w : Nat) : State :=
  { s with inbox := .transaction (transactionOfBits nbits w) :: s.inbox }

end Sys2Proof.Machine
end

