-- ==== Sys2Proof/Machine/Assembler.lean ====
section
/-! DEFINITION. The assembler syntax of 30_encoding.md R94 and the pseudo-instructions of R95: from one source line
to the transaction the host delivers. It is the spec's written form of commands; no step runs it (log entry 16). -/

namespace Sys2Proof.Machine

/-- Why a source line is rejected. -/
inductive AsmError where
  /-- No command and no pseudo-instruction has this mnemonic. -/
  | unknownMnemonic
  /-- `i<inst>` is not a decimal index that fits the INST field. -/
  | badInstance
  /-- An operand is not written in a form of its type. -/
  | badOperand
  /-- `rd` names no register of its unit. -/
  | badRegister
  /-- `ad=<n>` is not one of 1, 0, -1, -2. -/
  | badAutoDecay
  /-- The number of operands is not the command's. -/
  | operandCount
deriving DecidableEq, Repr

/-- The type of a written operand (R88). -/
inductive OperandType where
  | f32
  | u32
  | f64
deriving DecidableEq, Repr

/-- Upper-case letters as lower-case: a line is read without regard to case (R94; log entry 16). -/
def lowerChar (c : Char) : Char :=
  if 65 ≤ c.toNat ∧ c.toNat ≤ 90 then Char.ofNat (c.toNat + 32) else c

/-- A space or a tab. -/
def isBlank (c : Char) : Bool := c == ' ' || c == '\t'

/-- The text without the blanks around it. -/
def trimBlanks (cs : List Char) : List Char :=
  ((cs.dropWhile isBlank).reverse.dropWhile isBlank).reverse

/-- The text before and after the first `sep`; `none` after it where there is none. -/
def splitOnce (sep : Char) : List Char → List Char × Option (List Char)
  | [] => ([], none)
  | c :: cs =>
    if c = sep then ([], some cs)
    else ((c :: (splitOnce sep cs).1), (splitOnce sep cs).2)

/-- The pieces between commas. -/
def splitCommas : List Char → List (List Char)
  | [] => [[]]
  | c :: cs =>
    if c = ',' then [] :: splitCommas cs
    else
      match splitCommas cs with
      | [] => [[c]]
      | piece :: rest => (c :: piece) :: rest

/-- The value of a decimal or, with `hex`, a hexadecimal digit in lower case. -/
def digitValue (hex : Bool) (c : Char) : Option Nat :=
  if 48 ≤ c.toNat ∧ c.toNat ≤ 57 then some (c.toNat - 48)
  else if hex ∧ 97 ≤ c.toNat ∧ c.toNat ≤ 102 then some (c.toNat - 87)
  else none

/-- The number that digits continue from `acc`. -/
def readDigits (hex : Bool) (acc : Nat) : List Char → Option Nat
  | [] => some acc
  | c :: cs =>
    match digitValue hex c with
    | some d => readDigits hex (acc * (if hex then 16 else 10) + d) cs
    | none => none

/-- A number written with at least one digit. -/
def readNat (hex : Bool) (cs : List Char) : Option Nat :=
  if cs.isEmpty then none else readDigits hex 0 cs

/-- An optional `-` and the text after it. -/
def readSign : List Char → Bool × List Char
  | '-' :: cs => (true, cs)
  | cs => (false, cs)

/-- The decimal exponent of a literal; 0 where it has none. -/
def readExponent : Option (List Char) → Option Int
  | none => some 0
  | some cs => (readNat false (readSign cs).2).map fun n => if (readSign cs).1 then -(n : Int) else n

/-- A decimal literal (`440.0`, `-12`, `1e-4`) as its exact value: sign, numerator, denominator (R94). -/
def readDecimal (cs : List Char) : Option (Bool × Nat × Nat) := do
  let (neg, body) := readSign cs
  let (mantissa, expText) := splitOnce 'e' body
  let (whole, fracText) := splitOnce '.' mantissa
  let frac := fracText.getD []
  let _ ← readNat false whole
  let digits ← readNat false (whole ++ frac)
  let e ← readExponent expText
  if fracText = some [] then none
  else
    let scale := e - frac.length
    if 0 ≤ scale then some (neg, digits * 10 ^ scale.toNat, 1)
    else some (neg, digits, 10 ^ (-scale).toNat)

/-- The binary64 pattern nearest a rational, ties to even, infinite on overflow: `rn32` for the wider format
(R94). -/
def rn64 (neg : Bool) (num den : Nat) : BitVec 64 :=
  let shift := Nat.log2 (num * 2 ^ 1074 / den) - 52
  let magnitude := shift * 2 ^ 52 + roundNearestEven (num * 2 ^ 1074) (den * 2 ^ shift)
  BitVec.ofNat 64 ((if neg then 2 ^ 63 else 0) + min magnitude 0x7FF0000000000000)

/-- The text of a `0x` hexadecimal integer after its prefix. -/
def hexText : List Char → Option (List Char)
  | '0' :: 'x' :: cs => some cs
  | _ => none

/-- The raw word form `w:0xHHHHHHHH`, with its eight digits. -/
def readRawWord : List Char → Option Word
  | 'w' :: ':' :: cs =>
    match hexText cs with
    | some ds => if ds.length = 8 then (readNat true ds).map (BitVec.ofNat 32) else none
    | none => none
  | _ => none

/-- An `f32` operand: a decimal literal rounded by `RN32`, or a raw word (R94). -/
def readF32 (cs : List Char) : Option Word :=
  match readRawWord cs with
  | some w => some w
  | none => (readDecimal cs).map fun v => rn32 v.1 v.2.1 v.2.2

/-- A `u32` operand: a decimal or `0x` hexadecimal integer below 2^32 (R94). -/
def readU32 (cs : List Char) : Option Word := do
  let n ← match hexText cs with
    | some ds => readNat true ds
    | none => readNat false cs
  if n < 2 ^ 32 then some (BitVec.ofNat 32 n) else none

/-- An `f64` operand: the nearest binary64 value, the low word first (R94, R62). -/
def readF64 (cs : List Char) : Option (List Word) :=
  (readDecimal cs).map fun v =>
    [(rn64 v.1 v.2.1 v.2.2).extractLsb' 0 32, (rn64 v.1 v.2.1 v.2.2).extractLsb' 32 32]

/-- The words of one operand. -/
def readOperand : OperandType → List Char → Option (List Word)
  | .f32, cs => (readF32 cs).map fun w => [w]
  | .u32, cs => (readU32 cs).map fun w => [w]
  | .f64, cs => readF64 cs

/-- The words of the operands in order. -/
def readOperands : List OperandType → List (List Char) → Except AsmError (List Word)
  | [], [] => .ok []
  | k :: ks, cs :: rest =>
    match readOperand k cs with
    | some ws => (readOperands ks rest).map fun more => ws ++ more
    | none => .error .badOperand
  | _, _ => .error .operandCount

/-- The mnemonic of an opcode (R90), in lower case. -/
def mnemonicText : Opcode → String
  | .sysNop => "sys.nop"
  | .sysPhaseFrac32 => "sys.phase_frac32"
  | .sysPhaseFrac64 => "sys.phase_frac64"
  | .sysPhaseFreq => "sys.phase_freq"
  | .sysStatus => "sys.status"
  | .piInit => "pi.init"
  | .piLoad => "pi.load"
  | .piInc => "pi.inc"
  | .piDec => "pi.dec"
  | .piFirst => "pi.first"
  | .piLast => "pi.last"
  | .piRd => "pi.rd"
  | .oscInit => "osc.init"
  | .oscConfig => "osc.config"
  | .oscTick => "osc.tick"
  | .oscRd => "osc.rd"
  | .winInit => "win.init"
  | .winConfig => "win.config"
  | .winTick => "win.tick"
  | .winRd => "win.rd"
  | .envInit => "env.init"
  | .envTick => "env.tick"
  | .envTrigger => "env.trigger"
  | .envLegato => "env.legato"
  | .envDecay => "env.decay"
  | .envRelease => "env.release"
  | .envState => "env.state"
  | .envSetAttack => "env.set_attack"
  | .envSetDecay => "env.set_decay"
  | .envSetSlevel => "env.set_slevel"
  | .envSetSrate => "env.set_srate"
  | .envSetRelease => "env.set_release"
  | .envNoteOffLevel => "env.note_off_level"
  | .envRd => "env.rd"

/-- The operand types of an opcode (R88, R90): u32 for `PI.LOAD`, binary64 for `SYS.PHASE_FRAC64`, binary32
elsewhere. -/
def operandTypes (k : Opcode) : List OperandType :=
  match k with
  | .sysPhaseFrac64 => [.f64]
  | .piLoad => [.u32, .u32]
  | _ => List.replicate (opcodeRow k).nOps .f32

/-- The register names of a unit in the order of their RD indices (10_state.md R24), in lower case. -/
def registerNames : Opcode → List String
  | .piRd => ["phase", "step", "mode"]
  | .oscRd => ["a", "s0", "s1"]
  | .winRd => ["a1", "s0_1", "s1_1", "a2", "s0_2", "s1_2"]
  | .envRd => ["state", "y", "level", "ca", "cd", "sl", "cs", "cr", "ssl", "nol", "ad"]
  | _ => []

/-- The position of a name in a list of names. -/
def findName (cs : List Char) : List String → Option Nat
  | [] => none
  | n :: rest => if n.toList = cs then some 0 else (findName cs rest).map (· + 1)

/-- The register an `rd` names, by its name or as `r<n>` (R94). -/
def readRegisterName (k : Opcode) (cs : List Char) : Option (BitVec 8) := do
  let n ← match findName cs (registerNames k), cs with
    | some n, _ => some n
    | none, 'r' :: ds => readNat false ds
    | none, _ => none
  if n < (opcodeRow k).regCount then some (BitVec.ofNat 8 n) else none

/-- The auto-decay value `ad=<n>` as the MOD field (R87, R94). -/
def readAutoDecay (cs : List Char) : Option (BitVec 2) :=
  if cs = "ad=1".toList then some 1
  else if cs = "ad=0".toList then some 0
  else if cs = "ad=-1".toList then some 3
  else if cs = "ad=-2".toList then some 2
  else none

/-- The instance of a command and its other operands: none for SYS, `i0` where it is left out (R94). -/
def takeInst (k : Opcode) (args : List (List Char)) : Except AsmError (BitVec 8 × List (List Char)) :=
  if (opcodeRow k).unit = 0 then .ok (0, args)
  else
    match args with
    | ('i' :: ds) :: rest =>
      match readNat false ds with
      | some n => if n < 256 then .ok (BitVec.ofNat 8 n, rest) else .error .badInstance
      | none => .error .badInstance
    | _ => .ok (0, args)

/-- The mode of `pi.init` and `pi.load`, `wrap` where it is left out, and the other operands (R94). -/
def takeMode : List (List Char) → BitVec 2 × List (List Char)
  | cs :: rest =>
    if cs = "wrap".toList then (0, rest)
    else if cs = "sat".toList then (1, rest)
    else (0, cs :: rest)
  | [] => (0, [])

/-- The auto-decay value of `env.trigger`, `ad=1` where it is left out, and the level (R94). -/
def takeAutoDecay : List (List Char) → Except AsmError (BitVec 2 × List (List Char))
  | [level, cs] =>
    match readAutoDecay cs with
    | some ad => .ok (ad, [level])
    | none => .error .badAutoDecay
  | args => .ok (1, args)

/-- The pseudo-instructions (R95): each expands into one command before its operands are read. -/
def expandPseudo (mnemonic : List Char) (args : List (List Char)) : List Char × List (List Char) :=
  if mnemonic = "pi.rewind".toList then
    ("pi.load".toList, args.dropLast ++ ['0'] :: args.getLast?.toList)
  else if mnemonic = "env.hold".toList then ("env.trigger".toList, args ++ ["ad=0".toList])
  else (mnemonic, args)

/-- The transaction of a command with its written operands. -/
def assembleCommand (k : Opcode) (args : List (List Char)) : Except AsmError Transaction := do
  let row := opcodeRow k
  let (inst, rest) ← takeInst k args
  if row.regCount ≠ 0 then
    match rest with
    | [cs] =>
      match readRegisterName k cs with
      | some reg => return ⟨packCmd ⟨row.unit, row.op, inst, reg, 0, 0⟩, []⟩
      | none => .error .badRegister
    | _ => .error .operandCount
  else
    let (mod, operands) ← match row.mod with
      | .zero => .ok (0, rest)
      | .mode => .ok (takeMode rest)
      | .autoDecay => takeAutoDecay rest
    let ws ← readOperands (operandTypes k) operands
    return ⟨packCmd ⟨row.unit, row.op, inst, 0, 0, mod⟩, ws⟩

/-- One source line (R94): the general form `<unit>.<op> [i<inst>] [, <mode>] [, <operand> ...]` with a comment from
`;` on; `none` for a line without a command. -/
def assembleLine (line : List Char) : Except AsmError (Option Transaction) :=
  let text := trimBlanks ((splitOnce ';' line).1.map lowerChar)
  let mnemonic := text.takeWhile fun c => !isBlank c
  let operandText := trimBlanks (text.drop mnemonic.length)
  let args := if operandText.isEmpty then [] else (splitCommas operandText).map trimBlanks
  let expanded := expandPseudo mnemonic args
  if text.isEmpty then .ok none
  else
    match allOpcodes.find? fun k => (mnemonicText k).toList == expanded.1 with
    | some k => (assembleCommand k expanded.2).map some
    | none => .error .unknownMnemonic

end Sys2Proof.Machine
end

