-- ==== Sys2Proof/Safety.lean ====
section
/-! DEFINITION. The terms statements are made in: when a command runs to its own effect, what a command leaves
alone, what a delivered word stands for, the invariant every step keeps, and the nearest-value predicates of the
arithmetic. -/

namespace Sys2Proof.Machine

/-- A command other than a construct command runs on `PI[inst]`: no fault is pending, the instance exists, and it is
constructed (60_exceptions.md R288, R290). -/
def PiReady (s : State) (inst : BitVec 8) : Prop :=
  s.faulted = false ∧ inst.toNat < s.params.nPi ∧ (s.piAt inst.toNat).init = true

/-- The same for `OSC[inst]`. -/
def OscReady (s : State) (inst : BitVec 8) : Prop :=
  s.faulted = false ∧ inst.toNat < s.params.nOsc ∧ (s.oscAt inst.toNat).init = true

/-- The same for `WIN[inst]`. -/
def WinReady (s : State) (inst : BitVec 8) : Prop :=
  s.faulted = false ∧ inst.toNat < s.params.nWin ∧ (s.winAt inst.toNat).init = true

/-- The same for `ENV[inst]`. -/
def EnvReady (s : State) (inst : BitVec 8) : Prop :=
  s.faulted = false ∧ inst.toNat < s.params.nEnv ∧ (s.envAt inst.toNat).init = true

/-- A construct command may run on `PI[inst]`: no fault is pending and the instance exists (R282, R290). -/
def PiSlot (s : State) (inst : BitVec 8) : Prop := s.faulted = false ∧ inst.toNat < s.params.nPi

/-- The same for `OSC[inst]`. -/
def OscSlot (s : State) (inst : BitVec 8) : Prop := s.faulted = false ∧ inst.toNat < s.params.nOsc

/-- The same for `WIN[inst]`. -/
def WinSlot (s : State) (inst : BitVec 8) : Prop := s.faulted = false ∧ inst.toNat < s.params.nWin

/-- The same for `ENV[inst]`. -/
def EnvSlot (s : State) (inst : BitVec 8) : Prop := s.faulted = false ∧ inst.toNat < s.params.nEnv

/-- The registers outside the four units, the parameters and the deliveries are as before. -/
def sysFrame (s t : State) : Prop :=
  t.faulted = s.faulted ∧ t.fcode = s.fcode ∧ t.fcmd = s.fcmd ∧ t.params = s.params ∧ t.inbox = s.inbox

/-- Nothing but `PI[inst]` and the result has changed. -/
def piFrame (inst : BitVec 8) (s t : State) : Prop :=
  (∀ n, n ≠ inst.toNat → t.piAt n = s.piAt n) ∧ t.osc = s.osc ∧ t.win = s.win ∧ t.env = s.env ∧ sysFrame s t

/-- Nothing but `OSC[inst]` and the result has changed. -/
def oscFrame (inst : BitVec 8) (s t : State) : Prop :=
  (∀ n, n ≠ inst.toNat → t.oscAt n = s.oscAt n) ∧ t.pi = s.pi ∧ t.win = s.win ∧ t.env = s.env ∧ sysFrame s t

/-- Nothing but `WIN[inst]` and the result has changed. -/
def winFrame (inst : BitVec 8) (s t : State) : Prop :=
  (∀ n, n ≠ inst.toNat → t.winAt n = s.winAt n) ∧ t.pi = s.pi ∧ t.osc = s.osc ∧ t.env = s.env ∧ sysFrame s t

/-- Nothing but `ENV[inst]` and the result has changed. -/
def envFrame (inst : BitVec 8) (s t : State) : Prop :=
  (∀ n, n ≠ inst.toNat → t.envAt n = s.envAt n) ∧ t.pi = s.pi ∧ t.osc = s.osc ∧ t.win = s.win ∧ sysFrame s t

/-- `i` is the command of exactly the transaction `cmd, ops`; and with another number of operand words, `cmd` is
rejected for its length (30_encoding.md R80, R88). -/
def DeliveredAs (i : Instr) (cmd : Word) (ops : List Word) : Prop :=
  (∀ t, decode t = .ok i ↔ t = ⟨cmd, ops⟩)
    ∧ ∀ ops', ops'.length ≠ ops.length → decode ⟨cmd, ops'⟩ = .error .badLength

/-- The command word `0x..ii....`: `base` with INST in bits 23:16 (30_encoding.md R81). -/
def withInst (base : Word) (inst : BitVec 8) : Word := base + BitVec.ofNat 32 (inst.toNat * 65536)

/-- `i` raises fault `c`: the next state is fault entry with its own command word (60_exceptions.md R285). -/
def Raises (i : Instr) (s : State) (c : FaultCode) : Prop :=
  exec i s = .next { s with faulted := true, fcode := c, fcmd := cmdWord i, result := [] }

/-- Delivered while no fault is pending, the transaction is answered with fault entry `c` and its own command word, and
is used up (60_exceptions.md R285). -/
def StepRaises (t : Transaction) (c : FaultCode) : Prop :=
  ∀ (s : State) (rest : List HostEvent), s.inbox = .transaction t :: rest → s.faulted = false →
    step s = .next { s with inbox := rest, faulted := true, fcode := c, fcmd := t.cmd, result := [] }

/-- `w` is word 0 of the status result (43_system.md R262): `FAULTED` in bit 31, zeros below it, and in bits 3:0 the
number that 60_exceptions.md R281 gives the recorded code. -/
def IsStatusWord (w : Word) (faulted : Bool) (c : FaultCode) : Prop :=
  w.toNat = (if faulted then 2 ^ 31 else 0) + w.toNat % 16
    ∧ [FaultCode.none, .illegalCommand, .badLength, .badInstance, .uninitialised, .negativeFraction, .badSampleRate,
        .badFrequency, .badDuration, .badLevel][w.toNat % 16]? = some c

/-- A PI command that is no construct command faults on a missing and on an unset instance (R290 checks 3, 4). -/
def PiChecks (i : Instr) (inst : BitVec 8) (s : State) : Prop :=
  (s.faulted = false → s.params.nPi ≤ inst.toNat → Raises i s .badInstance)
    ∧ (s.faulted = false → inst.toNat < s.params.nPi → (s.piAt inst.toNat).init = false →
        Raises i s .uninitialised)

/-- The same for an OSC command. -/
def OscChecks (i : Instr) (inst : BitVec 8) (s : State) : Prop :=
  (s.faulted = false → s.params.nOsc ≤ inst.toNat → Raises i s .badInstance)
    ∧ (s.faulted = false → inst.toNat < s.params.nOsc → (s.oscAt inst.toNat).init = false →
        Raises i s .uninitialised)

/-- The same for a WIN command. -/
def WinChecks (i : Instr) (inst : BitVec 8) (s : State) : Prop :=
  (s.faulted = false → s.params.nWin ≤ inst.toNat → Raises i s .badInstance)
    ∧ (s.faulted = false → inst.toNat < s.params.nWin → (s.winAt inst.toNat).init = false →
        Raises i s .uninitialised)

/-- The same for an ENV command. -/
def EnvChecks (i : Instr) (inst : BitVec 8) (s : State) : Prop :=
  (s.faulted = false → s.params.nEnv ≤ inst.toNat → Raises i s .badInstance)
    ∧ (s.faulted = false → inst.toNat < s.params.nEnv → (s.envAt inst.toNat).init = false →
        Raises i s .uninitialised)

/-- A sample rate the rules accept: finite and above zero (R281, `BAD_SAMPLE_RATE`). A duration is checked the same
way (`BAD_DURATION`). -/
def PositiveFinite (x : Word) : Prop := isFinite x = true ∧ fgt x zeroF = true

/-- The UNIT of a command (30_encoding.md R82, R90). -/
def instrUnit (i : Instr) : BitVec 4 := (opcodeRow i.opcode).unit

/-- The INST of a command (R84). -/
def instrInst (i : Instr) : BitVec 8 := (instrFields i).inst

/-- The construct commands (10_state.md R23). -/
def isConstruct (i : Instr) : Bool :=
  i.opcode == .piInit || i.opcode == .piLoad || i.opcode == .oscInit || i.opcode == .winInit
    || i.opcode == .envInit

/-- The instance count of a unit (00_scope.md R9). -/
def unitCount (s : State) (unit : BitVec 4) : Nat :=
  match unit.toNat with
  | 1 => s.params.nPi
  | 2 => s.params.nOsc
  | 3 => s.params.nWin
  | 4 => s.params.nEnv
  | _ => 0

/-- The `INIT` bit of an instance of a unit (10_state.md R23). -/
def unitInit (s : State) (unit : BitVec 4) (n : Nat) : Bool :=
  match unit.toNat with
  | 1 => (s.piAt n).init
  | 2 => (s.oscAt n).init
  | 3 => (s.winAt n).init
  | 4 => (s.envAt n).init
  | _ => false

/-- A command performed `n` times in a row. -/
def repeatExec (i : Instr) : Nat → State → StepOutcome
  | 0, s => .next s
  | n + 1, s =>
    match exec i s with
    | .next t => repeatExec i n t
    | .fault r => .fault r
    | .refused r => .refused r

/-- `v` is the integer nearest the rational `num / den`, the even one where two are equally near (00_scope.md
R15). -/
def IsNearestEven (v num : Int) (den : Nat) : Prop :=
  2 * (v * den - num).natAbs ≤ den ∧ (2 * (v * den - num).natAbs = den → v % 2 = 0)

/-- How far the magnitude of a finite pattern is from `num / den`, in units of `2^-149 / den`. -/
def magError (w : Word) (num den : Nat) : Nat :=
  ((magUnits w * den : Nat) - (num * 2 ^ 149 : Nat) : Int).natAbs

/-- `w` is `RN32` of the real with sign `neg` and magnitude `num / den` (00_scope.md R12, R16): its sign is `neg`;
it is infinite exactly from half a spacing above the largest finite value on, `(2^25 - 1) * 2^103`; and a finite `w`
is at least as near as every finite value, with an even last bit where another one is as near. -/
def IsRN32 (w : Word) (neg : Bool) (num den : Nat) : Prop :=
  signBit w = neg ∧ isNaN w = false
    ∧ (isInf w = true ↔ (2 ^ 25 - 1) * 2 ^ 103 * den ≤ num)
    ∧ (isFinite w = true → ∀ v : Word, isFinite v = true →
        magError w num den ≤ magError v num den
          ∧ (magUnits v ≠ magUnits w → magError v num den = magError w num den → w.getLsbD 0 = false))

/-- An iterator's listed entry: the index exists and the instance is constructed. -/
def listedPi (p : Params) (e : Nat × PiRegs) : Bool := decide (e.1 < p.nPi) && e.2.init

/-- The same for an oscillator. -/
def listedOsc (p : Params) (e : Nat × OscRegs) : Bool := decide (e.1 < p.nOsc) && e.2.init

/-- The same for a window generator. -/
def listedWin (p : Params) (e : Nat × WinRegs) : Bool := decide (e.1 < p.nWin) && e.2.init

/-- The same for an envelope; and in `note_off` its level is `+0.0` (42_envelope.md R201, R216, R217). -/
def listedEnv (p : Params) (e : Nat × EnvRegs) : Bool :=
  decide (e.1 < p.nEnv) && e.2.init && (e.2.state != .noteOff || e.2.y == zeroF)

/-- The invariant of the machine: the parameters are legal (R9), each unit lists its constructed instances and no
other in canonical form (10_state.md R23), an envelope in `note_off` is at `+0.0`, and the fault registers hold a
fault exactly while `FAULTED` is 1 (R55). -/
def State.wf (s : State) : Bool :=
  s.params.legal
    && (bankWf PiRegs.unset s.pi && s.pi.all (listedPi s.params))
    && (bankWf OscRegs.unset s.osc && s.osc.all (listedOsc s.params))
    && (bankWf WinRegs.unset s.win && s.win.all (listedWin s.params))
    && (bankWf EnvRegs.unset s.env && s.env.all (listedEnv s.params))
    && (if s.faulted then s.fcode != .none else s.fcode == .none && s.fcmd == 0)

/-- Two states no command can tell apart: they differ at most in the values their unset registers hold
(70_reset_and_hazards.md R311). -/
def SameButUnset (s t : State) : Prop :=
  sysFrame s t ∧ t.result = s.result
    ∧ (∀ n, (t.piAt n).init = (s.piAt n).init ∧ ((s.piAt n).init = true → t.piAt n = s.piAt n))
    ∧ (∀ n, (t.oscAt n).init = (s.oscAt n).init ∧ ((s.oscAt n).init = true → t.oscAt n = s.oscAt n))
    ∧ (∀ n, (t.winAt n).init = (s.winAt n).init ∧ ((s.winAt n).init = true → t.winAt n = s.winAt n))
    ∧ (∀ n, (t.envAt n).init = (s.envAt n).init ∧ ((s.envAt n).init = true → t.envAt n = s.envAt n))

/-- A row of spec/opcode_table.json: match, mask, the operand count of its format, and the number of registers an
`RD` can name (30_encoding.md R85; 0 for any other command). -/
structure TableRow where
  bits : Word
  mask : Word
  nOps : Nat
  regCount : Nat
deriving DecidableEq, Repr

/-- spec/opcode_table.json, row by row. -/
def tableRows : List TableRow :=
  [⟨0x00000000, 0xFFFFFFFF, 0, 0⟩, ⟨0x01000000, 0xFFFFFFFF, 1, 0⟩, ⟨0x02000000, 0xFFFFFFFF, 2, 0⟩,
   ⟨0x03000000, 0xFFFFFFFF, 2, 0⟩, ⟨0x04000000, 0xFFFFFFFF, 0, 0⟩, ⟨0x10000000, 0xFF00FFFE, 2, 0⟩,
   ⟨0x11000000, 0xFF00FFFE, 2, 0⟩, ⟨0x12000000, 0xFF00FFFF, 0, 0⟩, ⟨0x13000000, 0xFF00FFFF, 0, 0⟩,
   ⟨0x14000000, 0xFF00FFFF, 0, 0⟩, ⟨0x15000000, 0xFF00FFFF, 0, 0⟩, ⟨0x1F000000, 0xFF0000FF, 0, 3⟩,
   ⟨0x20000000, 0xFF00FFFF, 2, 0⟩, ⟨0x21000000, 0xFF00FFFF, 2, 0⟩, ⟨0x22000000, 0xFF00FFFF, 0, 0⟩,
   ⟨0x2F000000, 0xFF0000FF, 0, 3⟩, ⟨0x30000000, 0xFF00FFFF, 2, 0⟩, ⟨0x31000000, 0xFF00FFFF, 2, 0⟩,
   ⟨0x32000000, 0xFF00FFFF, 0, 0⟩, ⟨0x3F000000, 0xFF0000FF, 0, 6⟩, ⟨0x40000000, 0xFF00FFFF, 6, 0⟩,
   ⟨0x41000000, 0xFF00FFFF, 0, 0⟩, ⟨0x42000000, 0xFF00FFFC, 1, 0⟩, ⟨0x43000000, 0xFF00FFFF, 0, 0⟩,
   ⟨0x44000000, 0xFF00FFFF, 0, 0⟩, ⟨0x45000000, 0xFF00FFFF, 0, 0⟩, ⟨0x46000000, 0xFF00FFFF, 0, 0⟩,
   ⟨0x47000000, 0xFF00FFFF, 2, 0⟩, ⟨0x48000000, 0xFF00FFFF, 2, 0⟩, ⟨0x49000000, 0xFF00FFFF, 1, 0⟩,
   ⟨0x4A000000, 0xFF00FFFF, 2, 0⟩, ⟨0x4B000000, 0xFF00FFFF, 2, 0⟩, ⟨0x4C000000, 0xFF00FFFF, 1, 0⟩,
   ⟨0x4F000000, 0xFF0000FF, 0, 11⟩]

/-- A row covers a command word: its fixed bits agree, and an `RD` names a register its unit has. -/
def TableRow.covers (r : TableRow) (w : Word) : Prop :=
  w &&& r.mask = r.bits ∧ (r.regCount = 0 ∨ w.toNat / 256 % 256 < r.regCount)

end Sys2Proof.Machine
end

