-- ==== Sys2Proof/Certificates/Slice0/Obligations.lean ====
section
/-! DEFINITION. The statements for the provers. Each docstring names the rule of spec/ it formalises. -/

open Sys2Proof Sys2Proof.Machine

/-! ### SYS: the converters, the status and the no-op -/

/-- R260: `SYS.NOP` is the word 0 with no operands, and it changes no register, performed or refused. -/
def Obligations.NopChangesNoRegister : Prop :=
  DeliveredAs .sysNop 0x00000000 [] ∧ ∀ s : State, exec .sysNop s = .next { s with result := [] }

/-- R262, with the code numbers of R281: `SYS.STATUS` returns `FAULTED` in bit 31, zeros in bits 30:4 and `FCODE` in bits
3:0 of word 0, and `FCMD` as word 1, in every state, faulted or not, and writes no register. -/
def Obligations.StatusReturnsTheFaultRegisters : Prop :=
  DeliveredAs .sysStatus 0x04000000 []
    ∧ ∀ s : State, ∃ w : Word,
        exec .sysStatus s = .next { s with result := [w, s.fcmd] } ∧ IsStatusWord w s.faulted s.fcode

/-- R120, R121: `SYS.PHASE_FRAC32` returns the phase nearest the fraction, ties to even, saturated at `PMAX`, and
changes no register; a NaN or negative fraction faults, and −0.0 is not negative. -/
def Obligations.PhaseFrac32ReturnsNearestPhase : Prop :=
  ∀ x : Word, DeliveredAs (.sysPhaseFrac32 x) 0x01000000 [x]
    ∧ ∀ s : State, s.faulted = false →
        (isNaN x = true ∨ (signBit x = true ∧ fabs x ≠ 0) → Raises (.sysPhaseFrac32 x) s .negativeFraction)
          ∧ (isNaN x = false → signBit x = false ∨ fabs x = 0 →
              ∃ p : Word, exec (.sysPhaseFrac32 x) s = .next { s with result := [p] }
                ∧ (isInf x = true → p = phaseMax)
                ∧ (isFinite x = true → ∃ v : Nat,
                    IsNearestEven v (magUnits x * 2 ^ 32 : Nat) (2 ^ 149) ∧ p.toNat = min v (2 ^ 32 - 1)))

/-- R122: `SYS.PHASE_FRAC64` is the same conversion of a binary64 fraction, delivered low word first. -/
def Obligations.PhaseFrac64ReturnsNearestPhase : Prop :=
  ∀ lo hi : Word, DeliveredAs (.sysPhaseFrac64 lo hi) 0x02000000 [lo, hi]
    ∧ ∀ (s : State) (x : BitVec 64), s.faulted = false → x = hi ++ lo →
        ((expField64 x = 2047 ∧ fracField64 x ≠ 0) ∨ (x.getLsbD 63 = true ∧ x.setWidth 63 ≠ 0) →
          Raises (.sysPhaseFrac64 lo hi) s .negativeFraction)
          ∧ (¬ (expField64 x = 2047 ∧ fracField64 x ≠ 0) → x.getLsbD 63 = false ∨ x.setWidth 63 = 0 →
              ∃ p : Word, exec (.sysPhaseFrac64 lo hi) s = .next { s with result := [p] }
                ∧ (expField64 x = 2047 → p = phaseMax)
                ∧ (expField64 x ≠ 2047 → ∃ v : Nat,
                    IsNearestEven v (magUnits64 x * 2 ^ 32 : Nat) (2 ^ 1074) ∧ p.toNat = min v (2 ^ 32 - 1)))

/-- R123, R124: `SYS.PHASE_FREQ` returns `RNI(f * 2^32 / sps) mod 2^32` in exact arithmetic; a frequency that is not
finite faults first, then a sample rate that is not finite and positive. -/
def Obligations.PhaseFreqReturnsExactIncrement : Prop :=
  ∀ f sps : Word, DeliveredAs (.sysPhaseFreq f sps) 0x03000000 [f, sps]
    ∧ ∀ s : State, s.faulted = false →
        (isFinite f = false → Raises (.sysPhaseFreq f sps) s .badFrequency)
          ∧ (isFinite f = true → ¬ PositiveFinite sps → Raises (.sysPhaseFreq f sps) s .badSampleRate)
          ∧ (isFinite f = true → PositiveFinite sps → ∃ v : Int,
              IsNearestEven v (valueUnits f * 2 ^ 32) (magUnits sps)
                ∧ exec (.sysPhaseFreq f sps) s = .next { s with result := [BitVec.ofInt 32 v] })

/-! ### PI: the phase iterators -/

/-- R125: `PI.INIT` constructs `PI[i]` at phase 0 with the exact increment of `f / sps` and the given mode,
overwriting every register of it and nothing else; it faults on a missing instance, then on its operands in order,
and never on an unset instance. -/
def Obligations.PiInitConstructsAtPhaseZero : Prop :=
  ∀ (inst : BitVec 8) (mode : PiMode) (f sps : Word),
    DeliveredAs (.piInit inst mode f sps) (withInst 0x10000000 inst + (if mode = .sat then 1 else 0)) [f, sps]
    ∧ ∀ s : State,
        (s.faulted = false → s.params.nPi ≤ inst.toNat → Raises (.piInit inst mode f sps) s .badInstance)
          ∧ (PiSlot s inst → isFinite f = false → Raises (.piInit inst mode f sps) s .badFrequency)
          ∧ (PiSlot s inst → isFinite f = true → ¬ PositiveFinite sps →
              Raises (.piInit inst mode f sps) s .badSampleRate)
          ∧ (PiSlot s inst → isFinite f = true → PositiveFinite sps → ∃ (t : State) (v : Int),
              exec (.piInit inst mode f sps) s = .next t
                ∧ IsNearestEven v (valueUnits f * 2 ^ 32) (magUnits sps)
                ∧ t.piAt inst.toNat = { init := true, phase := 0, step := BitVec.ofInt 32 v, mode := mode }
                ∧ t.result = [] ∧ piFrame inst s t)

/-- R126: `PI.LOAD` constructs `PI[i]` from explicit phase, step and mode; every phase and step is valid (R33), so
its operands raise nothing. -/
def Obligations.PiLoadConstructsFromOperands : Prop :=
  ∀ (inst : BitVec 8) (mode : PiMode) (phase step : Word),
    DeliveredAs (.piLoad inst mode phase step) (withInst 0x11000000 inst + (if mode = .sat then 1 else 0))
      [phase, step]
    ∧ ∀ s : State,
        (s.faulted = false → s.params.nPi ≤ inst.toNat → Raises (.piLoad inst mode phase step) s .badInstance)
          ∧ (PiSlot s inst → ∃ t : State, exec (.piLoad inst mode phase step) s = .next t
              ∧ t.piAt inst.toNat = { init := true, phase := phase, step := step, mode := mode }
              ∧ t.result = [] ∧ piFrame inst s t)

/-- R127: `PI.INC` moves the phase by one step, modulo 2^32 in WRAP mode and clamped at 2^32 - 1 in SAT mode, returns
the new phase, and changes nothing else. -/
def Obligations.PiIncAdvancesByModeAndReturnsPhase : Prop :=
  ∀ inst : BitVec 8, DeliveredAs (.piInc inst) (withInst 0x12000000 inst) []
    ∧ ∀ s : State, PiChecks (.piInc inst) inst s
        ∧ (PiReady s inst → ∃ (t : State) (p : Word), exec (.piInc inst) s = .next t
            ∧ p.toNat = (if (s.piAt inst.toNat).mode = .wrap
                then ((s.piAt inst.toNat).phase.toNat + (s.piAt inst.toNat).step.toNat) % 2 ^ 32
                else min ((s.piAt inst.toNat).phase.toNat + (s.piAt inst.toNat).step.toNat) (2 ^ 32 - 1))
            ∧ t.piAt inst.toNat = { s.piAt inst.toNat with phase := p }
            ∧ t.result = [p] ∧ piFrame inst s t)

/-- R128: `PI.DEC` moves the phase back by one step, modulo 2^32 in WRAP mode and clamped at 0 in SAT mode, returns
the new phase, and changes nothing else. -/
def Obligations.PiDecRetreatsByModeAndReturnsPhase : Prop :=
  ∀ inst : BitVec 8, DeliveredAs (.piDec inst) (withInst 0x13000000 inst) []
    ∧ ∀ s : State, PiChecks (.piDec inst) inst s
        ∧ (PiReady s inst → ∃ (t : State) (p : Word), exec (.piDec inst) s = .next t
            ∧ (p.toNat : Int) = (if (s.piAt inst.toNat).mode = .wrap
                then ((s.piAt inst.toNat).phase.toNat - (s.piAt inst.toNat).step.toNat : Int) % 2 ^ 32
                else max ((s.piAt inst.toNat).phase.toNat - (s.piAt inst.toNat).step.toNat : Int) 0)
            ∧ t.piAt inst.toNat = { s.piAt inst.toNat with phase := p }
            ∧ t.result = [p] ∧ piFrame inst s t)

/-- R130: `PI.FIRST` returns 1 exactly when the phase is below the step, as unsigned integers, else 0, and it writes
no state; so after an increment in WRAP mode it is 1 exactly when that increment wrapped. -/
def Obligations.PiFirstComparesPhaseWithStep : Prop :=
  ∀ inst : BitVec 8, DeliveredAs (.piFirst inst) (withInst 0x14000000 inst) []
    ∧ ∀ s : State, PiChecks (.piFirst inst) inst s
        ∧ (PiReady s inst → exec (.piFirst inst) s = .next { s with
            result := [if (s.piAt inst.toNat).phase.toNat < (s.piAt inst.toNat).step.toNat then 1 else 0] })
        ∧ (PiReady s inst → (s.piAt inst.toNat).mode = .wrap → ∃ (t : State) (b : Bool),
            exec (.piInc inst) s = .next t
              ∧ exec (.piFirst inst) t = .next { t with result := [if b then 1 else 0] }
              ∧ (b = true ↔ 2 ^ 32 ≤ (s.piAt inst.toNat).phase.toNat + (s.piAt inst.toNat).step.toNat))

/-- R131: `PI.LAST` returns 1 exactly when the next WRAP increment would wrap, `PHASE + STEP ≥ 2^32`, else 0; it
writes no state. -/
def Obligations.PiLastTellsTheNextIncrementWraps : Prop :=
  ∀ inst : BitVec 8, DeliveredAs (.piLast inst) (withInst 0x15000000 inst) []
    ∧ ∀ s : State, PiChecks (.piLast inst) inst s
        ∧ (PiReady s inst → ∃ b : Bool,
            exec (.piLast inst) s = .next { s with result := [if b then 1 else 0] }
              ∧ (b = true ↔ 2 ^ 32 ≤ (s.piAt inst.toNat).phase.toNat + (s.piAt inst.toNat).step.toNat))

/-- R132 laws 1, 3 and 4: increments and decrements are inverse in WRAP mode; in SAT mode an increment never lowers
the phase and stays at `PMAX`, and a decrement never raises it and stays at 0. -/
def Obligations.IteratorLawsOfIncAndDec : Prop :=
  ∀ (inst : BitVec 8) (s : State), PiReady s inst → ∃ t u t' u' : State,
    exec (.piInc inst) s = .next t ∧ exec (.piDec inst) t = .next u
      ∧ exec (.piDec inst) s = .next t' ∧ exec (.piInc inst) t' = .next u'
      ∧ ((s.piAt inst.toNat).mode = .wrap →
          u.piAt inst.toNat = s.piAt inst.toNat ∧ u'.piAt inst.toNat = s.piAt inst.toNat)
      ∧ ((s.piAt inst.toNat).mode = .sat →
          (s.piAt inst.toNat).phase.toNat ≤ (t.piAt inst.toNat).phase.toNat
            ∧ (t'.piAt inst.toNat).phase.toNat ≤ (s.piAt inst.toNat).phase.toNat
            ∧ ((s.piAt inst.toNat).phase = phaseMax → (t.piAt inst.toNat).phase = phaseMax)
            ∧ ((s.piAt inst.toNat).phase = 0 → (t'.piAt inst.toNat).phase = 0))

/-- R132 law 2: in WRAP mode `2^32` increments bring the phase back for every step, and for an odd step no smaller
number but 0 does. -/
def Obligations.FullCycleOfIncrementsRestoresPhase : Prop :=
  ∀ (inst : BitVec 8) (s : State), PiReady s inst → (s.piAt inst.toNat).mode = .wrap →
    (∃ t, repeatExec (.piInc inst) (2 ^ 32) s = .next t ∧ t.piAt inst.toNat = s.piAt inst.toNat)
      ∧ ((s.piAt inst.toNat).step.toNat % 2 = 1 → ∀ n, 0 < n → n < 2 ^ 32 →
          ∃ t, repeatExec (.piInc inst) n s = .next t
            ∧ (t.piAt inst.toNat).phase ≠ (s.piAt inst.toNat).phase)

/-! ### OSC and WIN: the oscillators and the window generators -/

/-- R161, with the coefficient of R160: `OSC.INIT` sets `A = 2·SIN_APPROX(PI32·(f/sps))`, `S0 = 1.0`, `S1 = 0.0`,
whatever `SIN_APPROX` is. -/
def Obligations.OscInitStartsAtCosineOneSineZero : Prop :=
  ∀ (inst : BitVec 8) (f sps : Word), DeliveredAs (.oscInit inst f sps) (withInst 0x20000000 inst) [f, sps]
    ∧ ∀ s : State,
        (s.faulted = false → s.params.nOsc ≤ inst.toNat → Raises (.oscInit inst f sps) s .badInstance)
          ∧ (OscSlot s inst → isFinite f = false → Raises (.oscInit inst f sps) s .badFrequency)
          ∧ (OscSlot s inst → isFinite f = true → ¬ PositiveFinite sps →
              Raises (.oscInit inst f sps) s .badSampleRate)
          ∧ (OscSlot s inst → isFinite f = true → PositiveFinite sps → ∃ t : State,
              exec (.oscInit inst f sps) s = .next t
                ∧ t.oscAt inst.toNat =
                  { init := true, a := fmul 0x40000000 (Config.sinApprox (fmul 0x40490FDB (fdiv f sps))),
                    s0 := 0x3F800000, s1 := 0x00000000 }
                ∧ t.result = [] ∧ oscFrame inst s t)

/-- R162: `OSC.CONFIG` derives the coefficient again and keeps `S0` and `S1`. -/
def Obligations.OscConfigKeepsTheState : Prop :=
  ∀ (inst : BitVec 8) (f sps : Word), DeliveredAs (.oscConfig inst f sps) (withInst 0x21000000 inst) [f, sps]
    ∧ ∀ s : State, OscChecks (.oscConfig inst f sps) inst s
        ∧ (OscReady s inst → isFinite f = false → Raises (.oscConfig inst f sps) s .badFrequency)
        ∧ (OscReady s inst → isFinite f = true → ¬ PositiveFinite sps →
            Raises (.oscConfig inst f sps) s .badSampleRate)
        ∧ (OscReady s inst → isFinite f = true → PositiveFinite sps → ∃ t : State,
            exec (.oscConfig inst f sps) s = .next t
              ∧ t.oscAt inst.toNat = { s.oscAt inst.toNat with
                  a := fmul 0x40000000 (Config.sinApprox (fmul 0x40490FDB (fdiv f sps))) }
              ∧ t.result = [] ∧ oscFrame inst s t)

/-- R163: `OSC.TICK` writes `S0 - A·S1` and then `S1 + A·(the new S0)`, each operation rounded, and returns the new
pair; no numeric condition faults. -/
def Obligations.OscTickAppliesTheSequentialRecurrence : Prop :=
  ∀ inst : BitVec 8, DeliveredAs (.oscTick inst) (withInst 0x22000000 inst) []
    ∧ ∀ s : State, OscChecks (.oscTick inst) inst s
        ∧ (OscReady s inst → ∃ (t : State) (c d : Word), exec (.oscTick inst) s = .next t
            ∧ c = fsub (s.oscAt inst.toNat).s0 (fmul (s.oscAt inst.toNat).a (s.oscAt inst.toNat).s1)
            ∧ d = fadd (s.oscAt inst.toNat).s1 (fmul (s.oscAt inst.toNat).a c)
            ∧ t.oscAt inst.toNat = { s.oscAt inst.toNat with s0 := c, s1 := d }
            ∧ t.result = [c, d] ∧ oscFrame inst s t)

/-- R181, with the coefficients of R180: `WIN.INIT` sets the coefficients at `1/width` and `2/width` and both
oscillators to `(1.0, 0.0)`; a width that is not finite and positive faults, or one whose `2/width` overflows, and
then a sample rate that is not finite and positive. That the overflow comes before the sample rate, as R290 check 5
and the exception list of R181 say, and not after it, as R180's pseudocode has it, is the model's choice (log
entry 17). -/
def Obligations.WinInitStartsBothOscillators : Prop :=
  ∀ (inst : BitVec 8) (width sps : Word),
    DeliveredAs (.winInit inst width sps) (withInst 0x30000000 inst) [width, sps]
    ∧ ∀ s : State,
        (s.faulted = false → s.params.nWin ≤ inst.toNat → Raises (.winInit inst width sps) s .badInstance)
          ∧ (WinSlot s inst → ¬ PositiveFinite width → Raises (.winInit inst width sps) s .badDuration)
          ∧ (WinSlot s inst → PositiveFinite width → isFinite (fdiv 0x40000000 width) = false →
              Raises (.winInit inst width sps) s .badDuration)
          ∧ (WinSlot s inst → PositiveFinite width → isFinite (fdiv 0x40000000 width) = true → ¬ PositiveFinite sps →
              Raises (.winInit inst width sps) s .badSampleRate)
          ∧ (WinSlot s inst → PositiveFinite width → PositiveFinite sps →
              isFinite (fdiv 0x40000000 width) = true → ∃ t : State,
                exec (.winInit inst width sps) s = .next t
                  ∧ t.winAt inst.toNat =
                    { init := true
                      a1 := fmul 0x40000000
                        (Config.sinApprox (fmul 0x40490FDB (fdiv (fdiv 0x3F800000 width) sps)))
                      s01 := 0x3F800000, s11 := 0x00000000
                      a2 := fmul 0x40000000
                        (Config.sinApprox (fmul 0x40490FDB (fdiv (fdiv 0x40000000 width) sps)))
                      s02 := 0x3F800000, s12 := 0x00000000 }
                  ∧ t.result = [] ∧ winFrame inst s t)

/-- R182, with the coefficients of R180: `WIN.CONFIG` derives both coefficients again and keeps both oscillator
states, with the operand faults of `WIN.INIT`. That an overflow of `2/width` faults before the sample rate, as R290
check 5 and the exception list of R182 say, and not after it, as R180's pseudocode has it, is the model's choice (log
entry 17). -/
def Obligations.WinConfigKeepsBothStates : Prop :=
  ∀ (inst : BitVec 8) (width sps : Word),
    DeliveredAs (.winConfig inst width sps) (withInst 0x31000000 inst) [width, sps]
    ∧ ∀ s : State, WinChecks (.winConfig inst width sps) inst s
        ∧ (WinReady s inst → ¬ PositiveFinite width → Raises (.winConfig inst width sps) s .badDuration)
        ∧ (WinReady s inst → PositiveFinite width → isFinite (fdiv 0x40000000 width) = false →
            Raises (.winConfig inst width sps) s .badDuration)
        ∧ (WinReady s inst → PositiveFinite width → isFinite (fdiv 0x40000000 width) = true → ¬ PositiveFinite sps →
            Raises (.winConfig inst width sps) s .badSampleRate)
        ∧ (WinReady s inst → PositiveFinite width → PositiveFinite sps →
            isFinite (fdiv 0x40000000 width) = true → ∃ t : State,
              exec (.winConfig inst width sps) s = .next t
                ∧ t.winAt inst.toNat = { s.winAt inst.toNat with
                    a1 := fmul 0x40000000
                      (Config.sinApprox (fmul 0x40490FDB (fdiv (fdiv 0x3F800000 width) sps)))
                    a2 := fmul 0x40000000
                      (Config.sinApprox (fmul 0x40490FDB (fdiv (fdiv 0x40000000 width) sps))) }
                ∧ t.result = [] ∧ winFrame inst s t)

/-- R183: `WIN.TICK` advances both oscillators by the recurrence of R163 and returns
`(0.42 - 0.5·c1) + 0.08·c2` of their new cosines, with no clamp. -/
def Obligations.WinTickReturnsTheBlackmanSum : Prop :=
  ∀ inst : BitVec 8, DeliveredAs (.winTick inst) (withInst 0x32000000 inst) []
    ∧ ∀ s : State, WinChecks (.winTick inst) inst s
        ∧ (WinReady s inst → ∃ (t : State) (c1 d1 c2 d2 : Word), exec (.winTick inst) s = .next t
            ∧ c1 = fsub (s.winAt inst.toNat).s01 (fmul (s.winAt inst.toNat).a1 (s.winAt inst.toNat).s11)
            ∧ d1 = fadd (s.winAt inst.toNat).s11 (fmul (s.winAt inst.toNat).a1 c1)
            ∧ c2 = fsub (s.winAt inst.toNat).s02 (fmul (s.winAt inst.toNat).a2 (s.winAt inst.toNat).s12)
            ∧ d2 = fadd (s.winAt inst.toNat).s12 (fmul (s.winAt inst.toNat).a2 c2)
            ∧ t.winAt inst.toNat = { s.winAt inst.toNat with s01 := c1, s11 := d1, s02 := c2, s12 := d2 }
            ∧ t.result = [fadd (fsub 0x3ED70A3D (fmul 0x3F000000 c1)) (fmul 0x3DA3D70A c2)]
            ∧ winFrame inst s t)

/-! ### ENV: the envelope generators -/

/-- R201: `ENV.INIT` constructs `ENV[i]` in `note_off` at level 0 with the coefficients of R200, `AD = +1` and the
floor `NOTE_OFF_LEVEL_INIT`; the first operand in order that fails names the fault. That a NaN `EXP_APPROX` returns
is stored bit for bit is the model's reading of R12 and R200 (log entry 7). -/
def Obligations.EnvInitConstructsInNoteOff : Prop :=
  ∀ (inst : BitVec 8) (attack decay slevel srate release sps : Word),
    DeliveredAs (.envInit inst attack decay slevel srate release sps) (withInst 0x40000000 inst)
      [attack, decay, slevel, srate, release, sps]
    ∧ ∀ (s : State) (i : Instr), i = .envInit inst attack decay slevel srate release sps →
        (s.faulted = false → s.params.nEnv ≤ inst.toNat → Raises i s .badInstance)
          ∧ (EnvSlot s inst → ¬ PositiveFinite attack → Raises i s .badDuration)
          ∧ (EnvSlot s inst → PositiveFinite attack → ¬ PositiveFinite decay → Raises i s .badDuration)
          ∧ (EnvSlot s inst → PositiveFinite attack → PositiveFinite decay → isFinite slevel = false →
              Raises i s .badLevel)
          ∧ (EnvSlot s inst → PositiveFinite attack → PositiveFinite decay → isFinite slevel = true →
              ¬ PositiveFinite srate → Raises i s .badDuration)
          ∧ (EnvSlot s inst → PositiveFinite attack → PositiveFinite decay → isFinite slevel = true →
              PositiveFinite srate → ¬ PositiveFinite release → Raises i s .badDuration)
          ∧ (EnvSlot s inst → PositiveFinite attack → PositiveFinite decay → isFinite slevel = true →
              PositiveFinite srate → PositiveFinite release → ¬ PositiveFinite sps → Raises i s .badSampleRate)
          ∧ (EnvSlot s inst → PositiveFinite attack → PositiveFinite decay → isFinite slevel = true →
              PositiveFinite srate → PositiveFinite release → PositiveFinite sps → ∃ t : State,
                exec i s = .next t
                  ∧ t.envAt inst.toNat =
                    { init := true, state := .noteOff, y := 0, level := 0
                      ca := Config.expApprox (fdiv 0xC0000000 (fmul sps attack))
                      cd := Config.expApprox (fdiv 0xC0000000 (fmul sps decay))
                      sl := slevel
                      cs := Config.expApprox (fdiv 0xC0000000 (fmul sps srate))
                      cr := Config.expApprox (fdiv 0xC0000000 (fmul sps release))
                      ssl := 0, nol := s.params.noteOffLevelInit, ad := 1 }
                  ∧ t.result = [] ∧ envFrame inst s t)

/-- R210: `ENV.TICK` returns the level after the update, `+0.0` in `note_off`; no numeric condition faults; and
`STATE`, `Y` and `SSL` are all it writes (R232 law 4). -/
def Obligations.EnvTickReturnsTheUpdatedLevel : Prop :=
  ∀ inst : BitVec 8, DeliveredAs (.envTick inst) (withInst 0x41000000 inst) []
    ∧ ∀ s : State, EnvChecks (.envTick inst) inst s
        ∧ (EnvReady s inst → ∃ t : State, exec (.envTick inst) s = .next t
            ∧ t.result = [if (s.envAt inst.toNat).state = .noteOff then 0 else (t.envAt inst.toNat).y]
            ∧ t.envAt inst.toNat = { s.envAt inst.toNat with
                state := (t.envAt inst.toNat).state, y := (t.envAt inst.toNat).y,
                ssl := (t.envAt inst.toNat).ssl }
            ∧ envFrame inst s t)

/-- R211: a tick in `note_off` returns `+0.0` and writes no register. -/
def Obligations.TickInNoteOffWritesNothing : Prop :=
  ∀ (inst : BitVec 8) (s : State), EnvReady s inst → (s.envAt inst.toNat).state = .noteOff →
    ∃ t : State, exec (.envTick inst) s = .next t ∧ t.result = [0x00000000]
      ∧ t.envAt inst.toNat = s.envAt inst.toNat ∧ envFrame inst s t

/-- R212: a tick in `attack` approaches `OVERSHOOT` with `CA`; above `LEVEL` it clamps there and moves to `decay` for
`AD = +1`, to `sustain` with `SSL = LEVEL` for −1, and stays in `attack` for 0 and −2. -/
def Obligations.TickInAttackClampsAtLevelAndMoves : Prop :=
  ∀ (inst : BitVec 8) (s : State) (r : EnvRegs) (y : Word), EnvReady s inst → r = s.envAt inst.toNat →
    r.state = .attack → y = fadd 0x3FCCCCCD (fmul r.ca (fsub r.y 0x3FCCCCCD)) →
    ∃ t : State, exec (.envTick inst) s = .next t ∧ envFrame inst s t
      ∧ t.envAt inst.toNat =
        (if fgt y r.level = false then { r with y := y }
         else if r.ad = 0b01 then { r with y := r.level, state := .decay }
         else if r.ad = 0b11 then { r with y := r.level, state := .sustain, ssl := r.level }
         else { r with y := r.level })

/-- R213: a tick in `decay` approaches `LEVEL·SL` with `CD`, and within `H` of it snaps there, records it in `SSL`
and moves to `sustain`. -/
def Obligations.TickInDecaySnapsIntoSustain : Prop :=
  ∀ (inst : BitVec 8) (s : State) (r : EnvRegs) (goal y : Word), EnvReady s inst → r = s.envAt inst.toNat →
    r.state = .decay → goal = fmul r.level r.sl → y = fadd goal (fmul r.cd (fsub r.y goal)) →
    ∃ t : State, exec (.envTick inst) s = .next t ∧ envFrame inst s t
      ∧ t.envAt inst.toNat =
        (if flt (fabs (fsub y goal)) 0x38D1B717 then { r with y := goal, ssl := goal, state := .sustain }
         else { r with y := y })

/-- R214: a tick in `sustain` multiplies `Y` by `CS` and leaves the state. -/
def Obligations.TickInSustainDroops : Prop :=
  ∀ (inst : BitVec 8) (s : State) (r : EnvRegs), EnvReady s inst → r = s.envAt inst.toNat →
    r.state = .sustain →
    ∃ t : State, exec (.envTick inst) s = .next t ∧ envFrame inst s t
      ∧ t.envAt inst.toNat = { r with y := fmul r.y r.cs }

/-- R215: a tick in `legato` approaches `SSL` with `CA`, and within `H` of it snaps there and moves to `sustain`. -/
def Obligations.TickInLegatoSnapsIntoSustain : Prop :=
  ∀ (inst : BitVec 8) (s : State) (r : EnvRegs) (y : Word), EnvReady s inst → r = s.envAt inst.toNat →
    r.state = .legato → y = fadd r.ssl (fmul r.ca (fsub r.y r.ssl)) →
    ∃ t : State, exec (.envTick inst) s = .next t ∧ envFrame inst s t
      ∧ t.envAt inst.toNat =
        (if flt (fabs (fsub y r.ssl)) 0x38D1B717 then { r with y := r.ssl, state := .sustain }
         else { r with y := y })

/-- R216: a tick in `release` approaches `NOL` with `CR`, and within `H` of it moves to `note_release` at `NOL` when
`NOL > H`, else to `note_off` at `+0.0`. -/
def Obligations.TickInReleaseEndsByTheFloor : Prop :=
  ∀ (inst : BitVec 8) (s : State) (r : EnvRegs) (y : Word), EnvReady s inst → r = s.envAt inst.toNat →
    r.state = .release → y = fadd r.nol (fmul r.cr (fsub r.y r.nol)) →
    ∃ t : State, exec (.envTick inst) s = .next t ∧ envFrame inst s t
      ∧ t.envAt inst.toNat =
        (if flt (fabs (fsub y r.nol)) 0x38D1B717 = false then { r with y := y }
         else if fgt r.nol 0x38D1B717 then { r with y := r.nol, state := .noteRelease }
         else { r with y := 0x00000000, state := .noteOff })

/-- R217: a tick in `note_release` approaches `0.1·NOL` with `CR`, and within `H` of it moves to `note_off` at
`+0.0`. -/
def Obligations.TickInNoteReleaseEndsInNoteOff : Prop :=
  ∀ (inst : BitVec 8) (s : State) (r : EnvRegs) (goal y : Word), EnvReady s inst → r = s.envAt inst.toNat →
    r.state = .noteRelease → goal = fmul 0x3DCCCCCD r.nol → y = fadd goal (fmul r.cr (fsub r.y goal)) →
    ∃ t : State, exec (.envTick inst) s = .next t ∧ envFrame inst s t
      ∧ t.envAt inst.toNat =
        (if flt (fabs (fsub y goal)) 0x38D1B717 then { r with y := 0x00000000, state := .noteOff }
         else { r with y := y })

/-- R220: `ENV.TRIGGER` with a level above `Y` enters `attack` with that level and auto-decay value, in every state
and from the present `Y`; any other finite level is ignored whole; a level that is not finite faults. -/
def Obligations.TriggerRestartsOnlyWhenLouder : Prop :=
  ∀ (inst : BitVec 8) (ad : BitVec 2) (level : Word),
    DeliveredAs (.envTrigger inst ad level) (withInst 0x42000000 inst + ad.setWidth 32) [level]
    ∧ ∀ s : State, EnvChecks (.envTrigger inst ad level) inst s
        ∧ (EnvReady s inst → isFinite level = false → Raises (.envTrigger inst ad level) s .badLevel)
        ∧ (EnvReady s inst → isFinite level = true → ∃ t : State,
            exec (.envTrigger inst ad level) s = .next t ∧ t.result = [] ∧ envFrame inst s t
              ∧ t.envAt inst.toNat =
                (if flt (s.envAt inst.toNat).y level
                 then { s.envAt inst.toNat with state := .attack, level := level, ad := ad }
                 else s.envAt inst.toNat))

/-- R221: `ENV.LEGATO` enters `legato` from `sustain` when `Y` is below `SSL`, and does nothing otherwise. -/
def Obligations.LegatoOnlyFromSustainBelowStart : Prop :=
  ∀ inst : BitVec 8, DeliveredAs (.envLegato inst) (withInst 0x43000000 inst) []
    ∧ ∀ s : State, EnvChecks (.envLegato inst) inst s
        ∧ (EnvReady s inst → ∃ t : State, exec (.envLegato inst) s = .next t ∧ t.result = []
            ∧ envFrame inst s t
            ∧ t.envAt inst.toNat =
              (if (s.envAt inst.toNat).state = .sustain
                  ∧ flt (s.envAt inst.toNat).y (s.envAt inst.toNat).ssl = true
               then { s.envAt inst.toNat with state := .legato } else s.envAt inst.toNat))

/-- R222: `ENV.DECAY` sets `AD` to +1 in every state, and writes nothing else. -/
def Obligations.DecayOnlySetsAutoDecay : Prop :=
  ∀ inst : BitVec 8, DeliveredAs (.envDecay inst) (withInst 0x44000000 inst) []
    ∧ ∀ s : State, EnvChecks (.envDecay inst) inst s
        ∧ (EnvReady s inst → ∃ t : State, exec (.envDecay inst) s = .next t ∧ t.result = []
            ∧ envFrame inst s t ∧ t.envAt inst.toNat = { s.envAt inst.toNat with ad := 0b01 })

/-- R223: `ENV.RELEASE` enters `release` from every state but `note_off`, where it does nothing; `Y` is not
changed. -/
def Obligations.ReleaseFromEveryStateButNoteOff : Prop :=
  ∀ inst : BitVec 8, DeliveredAs (.envRelease inst) (withInst 0x45000000 inst) []
    ∧ ∀ s : State, EnvChecks (.envRelease inst) inst s
        ∧ (EnvReady s inst → ∃ t : State, exec (.envRelease inst) s = .next t ∧ t.result = []
            ∧ envFrame inst s t
            ∧ t.envAt inst.toNat =
              (if (s.envAt inst.toNat).state = .noteOff then s.envAt inst.toNat
               else { s.envAt inst.toNat with state := .release }))

/-- R224, with the codes of R51: `ENV.STATE` returns the code of the state, 0 to 6 in the order note_off, attack,
legato, decay, sustain, release, note_release, and writes nothing. -/
def Obligations.EnvStateReturnsTheCode : Prop :=
  ∀ inst : BitVec 8, DeliveredAs (.envState inst) (withInst 0x46000000 inst) []
    ∧ ∀ s : State, EnvChecks (.envState inst) inst s
        ∧ (EnvReady s inst → ∃ w : Word, exec (.envState inst) s = .next { s with result := [w] }
            ∧ [EnvState.noteOff, .attack, .legato, .decay, .sustain, .release, .noteRelease][w.toNat]?
                = some (s.envAt inst.toNat).state)

/-- R225, R226, R228, R229: each rate setter writes its own coefficient, derived as R200 says, and no other
register; a bad duration faults before a bad sample rate. That a NaN `EXP_APPROX` returns is stored bit for bit is the
model's reading of R12 and R200 (log entry 7). -/
def Obligations.RateSettersWriteTheirOwnCoefficient : Prop :=
  ∀ (inst : BitVec 8) (sec sps : Word),
    DeliveredAs (.envSetAttack inst sec sps) (withInst 0x47000000 inst) [sec, sps]
    ∧ DeliveredAs (.envSetDecay inst sec sps) (withInst 0x48000000 inst) [sec, sps]
    ∧ DeliveredAs (.envSetSrate inst sec sps) (withInst 0x4A000000 inst) [sec, sps]
    ∧ DeliveredAs (.envSetRelease inst sec sps) (withInst 0x4B000000 inst) [sec, sps]
    ∧ ∀ s : State,
        (∀ i ∈ [Instr.envSetAttack inst sec sps, .envSetDecay inst sec sps, .envSetSrate inst sec sps,
            .envSetRelease inst sec sps],
          EnvChecks i inst s
            ∧ (EnvReady s inst → ¬ PositiveFinite sec → Raises i s .badDuration)
            ∧ (EnvReady s inst → PositiveFinite sec → ¬ PositiveFinite sps → Raises i s .badSampleRate))
        ∧ (∀ c : Word, EnvReady s inst → PositiveFinite sec → PositiveFinite sps →
            c = Config.expApprox (fdiv 0xC0000000 (fmul sps sec)) → ∃ t u v w : State,
              exec (.envSetAttack inst sec sps) s = .next t ∧ exec (.envSetDecay inst sec sps) s = .next u
                ∧ exec (.envSetSrate inst sec sps) s = .next v ∧ exec (.envSetRelease inst sec sps) s = .next w
                ∧ t.envAt inst.toNat = { s.envAt inst.toNat with ca := c }
                ∧ u.envAt inst.toNat = { s.envAt inst.toNat with cd := c }
                ∧ v.envAt inst.toNat = { s.envAt inst.toNat with cs := c }
                ∧ w.envAt inst.toNat = { s.envAt inst.toNat with cr := c }
                ∧ (∀ x ∈ [t, u, v, w], x.result = [] ∧ envFrame inst s x))

/-- R227: `ENV.SET_SLEVEL` writes a finite gain into `SL` unchanged and nothing else; a gain that is not finite
faults. -/
def Obligations.SetSlevelStoresTheGain : Prop :=
  ∀ (inst : BitVec 8) (gain : Word), DeliveredAs (.envSetSlevel inst gain) (withInst 0x49000000 inst) [gain]
    ∧ ∀ s : State, EnvChecks (.envSetSlevel inst gain) inst s
        ∧ (EnvReady s inst → isFinite gain = false → Raises (.envSetSlevel inst gain) s .badLevel)
        ∧ (EnvReady s inst → isFinite gain = true → ∃ t : State,
            exec (.envSetSlevel inst gain) s = .next t ∧ t.result = [] ∧ envFrame inst s t
              ∧ t.envAt inst.toNat = { s.envAt inst.toNat with sl := gain })

/-- R230: `ENV.NOTE_OFF_LEVEL` writes a finite level into `NOL` when it is below it, and changes nothing otherwise; a
level that is not finite faults. -/
def Obligations.NoteOffLevelOnlyLowersTheFloor : Prop :=
  ∀ (inst : BitVec 8) (level : Word),
    DeliveredAs (.envNoteOffLevel inst level) (withInst 0x4C000000 inst) [level]
    ∧ ∀ s : State, EnvChecks (.envNoteOffLevel inst level) inst s
        ∧ (EnvReady s inst → isFinite level = false → Raises (.envNoteOffLevel inst level) s .badLevel)
        ∧ (EnvReady s inst → isFinite level = true → ∃ t : State,
            exec (.envNoteOffLevel inst level) s = .next t ∧ t.result = [] ∧ envFrame inst s t
              ∧ t.envAt inst.toNat =
                (if flt level (s.envAt inst.toNat).nol then { s.envAt inst.toNat with nol := level }
                 else s.envAt inst.toNat))

/-- R231: the complete transition relation. Whatever the command, the state of an envelope changes only as one of
the table's rows says, under that row's condition, but for `ENV.INIT`, which constructs it anew. -/
def Obligations.EnvelopeChangesStateOnlyByTheTable : Prop :=
  ∀ (i : Instr) (s t : State) (inst : BitVec 8) (r r' : EnvRegs),
    exec i s = .next t → r = s.envAt inst.toNat → r' = t.envAt inst.toNat → r'.state ≠ r.state →
      (i.opcode = .envInit ∧ instrInst i = inst ∧ r'.state = .noteOff)
      ∨ (∃ ad level, i = .envTrigger inst ad level ∧ flt r.y level = true ∧ r'.state = .attack
          ∧ r'.level = level ∧ r'.ad = ad)
      ∨ (i = .envLegato inst ∧ r.state = .sustain ∧ flt r.y r.ssl = true ∧ r'.state = .legato)
      ∨ (i = .envRelease inst ∧ r.state ≠ .noteOff ∧ r'.state = .release)
      ∨ (i = .envTick inst ∧ r.state = .attack ∧ fgt (approach r.y 0x3FCCCCCD r.ca) r.level = true
          ∧ r'.y = r.level
          ∧ ((r.ad = 0b01 ∧ r'.state = .decay)
            ∨ (r.ad = 0b11 ∧ r'.state = .sustain ∧ r'.ssl = r.level)))
      ∨ (∃ goal, goal = fmul r.level r.sl ∧ i = .envTick inst ∧ r.state = .decay
          ∧ near (approach r.y goal r.cd) goal = true ∧ r'.state = .sustain ∧ r'.y = goal ∧ r'.ssl = goal)
      ∨ (i = .envTick inst ∧ r.state = .legato ∧ near (approach r.y r.ssl r.ca) r.ssl = true
          ∧ r'.state = .sustain ∧ r'.y = r.ssl)
      ∨ (i = .envTick inst ∧ r.state = .release ∧ near (approach r.y r.nol r.cr) r.nol = true
          ∧ ((fgt r.nol 0x38D1B717 = true ∧ r'.state = .noteRelease ∧ r'.y = r.nol)
            ∨ (fgt r.nol 0x38D1B717 = false ∧ r'.state = .noteOff ∧ r'.y = 0)))
      ∨ (∃ goal, goal = fmul 0x3DCCCCCD r.nol ∧ i = .envTick inst ∧ r.state = .noteRelease
          ∧ near (approach r.y goal r.cr) goal = true ∧ r'.state = .noteOff ∧ r'.y = 0)

/-! ### Readback, faults and refusal -/

/-- R264, with the indices of R24: each `RD` returns the register at its index, bit for bit, `MODE` and `STATE`
zero-extended and `AD` sign-extended, and writes nothing. The last clause, that `exec` takes ILLEGAL_COMMAND for an
index its unit does not have, is about terms no word decodes to: it is the model's choice (log entry 14). -/
def Obligations.ReadbackReturnsTheNamedRegister : Prop :=
  ∀ inst reg : BitVec 8,
    (reg.toNat < 3 → DeliveredAs (.piRd inst reg) (withInst 0x1F000000 inst + BitVec.ofNat 32 (256 * reg.toNat)) [])
    ∧ (reg.toNat < 3 → DeliveredAs (.oscRd inst reg) (withInst 0x2F000000 inst + BitVec.ofNat 32 (256 * reg.toNat)) [])
    ∧ (reg.toNat < 6 → DeliveredAs (.winRd inst reg) (withInst 0x3F000000 inst + BitVec.ofNat 32 (256 * reg.toNat)) [])
    ∧ (reg.toNat < 11 → DeliveredAs (.envRd inst reg) (withInst 0x4F000000 inst + BitVec.ofNat 32 (256 * reg.toNat)) [])
    ∧ ∀ s : State,
    (reg.toNat < 3 → PiChecks (.piRd inst reg) inst s ∧ (PiReady s inst → ∃ v : Word,
      exec (.piRd inst reg) s = .next { s with result := [v] }
        ∧ [(s.piAt inst.toNat).phase, (s.piAt inst.toNat).step,
            if (s.piAt inst.toNat).mode = .sat then 1 else 0][reg.toNat]? = some v))
    ∧ (reg.toNat < 3 → OscChecks (.oscRd inst reg) inst s ∧ (OscReady s inst → ∃ v : Word,
      exec (.oscRd inst reg) s = .next { s with result := [v] }
        ∧ [(s.oscAt inst.toNat).a, (s.oscAt inst.toNat).s0, (s.oscAt inst.toNat).s1][reg.toNat]? = some v))
    ∧ (reg.toNat < 6 → WinChecks (.winRd inst reg) inst s ∧ (WinReady s inst → ∃ v : Word,
      exec (.winRd inst reg) s = .next { s with result := [v] }
        ∧ [(s.winAt inst.toNat).a1, (s.winAt inst.toNat).s01, (s.winAt inst.toNat).s11,
            (s.winAt inst.toNat).a2, (s.winAt inst.toNat).s02, (s.winAt inst.toNat).s12][reg.toNat]? = some v))
    ∧ (reg.toNat < 11 → EnvChecks (.envRd inst reg) inst s ∧ (EnvReady s inst → ∃ v : Word,
      exec (.envRd inst reg) s = .next { s with result := [v] }
        ∧ [BitVec.ofNat 32 (envStateCode (s.envAt inst.toNat).state).toNat, (s.envAt inst.toNat).y,
            (s.envAt inst.toNat).level, (s.envAt inst.toNat).ca, (s.envAt inst.toNat).cd,
            (s.envAt inst.toNat).sl, (s.envAt inst.toNat).cs, (s.envAt inst.toNat).cr,
            (s.envAt inst.toNat).ssl, (s.envAt inst.toNat).nol,
            BitVec.ofInt 32 (s.envAt inst.toNat).ad.toInt][reg.toNat]? = some v))
    ∧ (s.faulted = false →
        (3 ≤ reg.toNat → Raises (.piRd inst reg) s .illegalCommand ∧ Raises (.oscRd inst reg) s .illegalCommand)
          ∧ (6 ≤ reg.toNat → Raises (.winRd inst reg) s .illegalCommand)
          ∧ (11 ≤ reg.toNat → Raises (.envRd inst reg) s .illegalCommand))

/-- R84: every command of PI, OSC, WIN or ENV whose `INST` is at or above the unit's count faults `BAD_INSTANCE`,
the construct commands too, and with `INST` below the count none does; a SYS word with `INST` other than 0 is rejected,
and the step that takes it faults `ILLEGAL_COMMAND`. (An `RD` with an index its unit does not have is no such command:
it is illegal.) -/
def Obligations.MissingInstanceFaults : Prop :=
  (∀ (i : Instr) (s t : State), s.faulted = false → i.wellFormed = true → instrUnit i ≠ 0 →
    exec i s = .next t →
      (unitCount s (instrUnit i) ≤ (instrInst i).toNat → Raises i s .badInstance)
        ∧ ((instrInst i).toNat < unitCount s (instrUnit i) →
            ¬ (t.faulted = true ∧ t.fcode = .badInstance)))
  ∧ ∀ t : Transaction, t.cmd.extractLsb' 28 4 = 0 → t.cmd.extractLsb' 16 8 ≠ 0 →
      (∃ e, decode t = .error e ∧ decodeFault e = .illegalCommand) ∧ StepRaises t .illegalCommand

/-- R282: every command but a construct command faults `UNINITIALISED` on an instance whose `INIT` bit is 0, before
any operand check. -/
def Obligations.UnsetInstanceFaults : Prop :=
  ∀ (i : Instr) (s : State), s.faulted = false → i.wellFormed = true → instrUnit i ≠ 0 →
    (instrInst i).toNat < unitCount s (instrUnit i) → isConstruct i = false →
    unitInit s (instrUnit i) (instrInst i).toNat = false → Raises i s .uninitialised

/-- R90, R92 and R88, against the rows of spec/opcode_table.json: a word no row covers is rejected at every length, and
the step that takes it faults `ILLEGAL_COMMAND`; a covered word is a command exactly with that row's operand count, and
with any other the step faults `BAD_LENGTH` (R64). -/
def Obligations.DecoderAcceptsExactlyTheTable : Prop :=
  ∀ t : Transaction,
    ((∀ r ∈ tableRows, ¬ r.covers t.cmd) →
      (∃ e, decode t = .error e ∧ decodeFault e = .illegalCommand) ∧ StepRaises t .illegalCommand)
    ∧ (∀ r ∈ tableRows, r.covers t.cmd → t.ops.length = r.nOps → ∃ i, decode t = .ok i)
    ∧ (∀ r ∈ tableRows, r.covers t.cmd → t.ops.length ≠ r.nOps →
        decode t = .error .badLength ∧ StepRaises t .badLength)

/-- R285: when a step raises a fault, it records a code other than `NONE` and the delivered command word, drives the
`FAULT` line high, returns no result and writes no other register. -/
def Obligations.FaultEntryRecordsAndWritesNothingElse : Prop :=
  ∀ (s u : State) (t : Transaction) (rest : List HostEvent),
    s.inbox = .transaction t :: rest → s.faulted = false → step s = .next u → u.faulted = true →
      u.fcode ≠ .none ∧ u.faultLine = true
        ∧ u = { s with inbox := rest, faulted := true, fcode := u.fcode, fcmd := t.cmd, result := [] }

/-- R288, R292: while `FAULTED = 1` every transaction but the word `0x04000000` without operands is refused: no
register is written, no result returned, no fault recorded; and that one is performed and writes no register. So
only reset clears a fault. -/
def Obligations.FaultedMachinePerformsOnlyStatus : Prop :=
  ∀ (s : State) (t : Transaction) (rest : List HostEvent),
    s.inbox = .transaction t :: rest → s.faulted = true →
      (t ≠ ⟨0x04000000, []⟩ → step s = .next { s with inbox := rest, result := [] })
        ∧ (t = ⟨0x04000000, []⟩ → ∃ w : Word, step s = .next { s with inbox := rest, result := [w, s.fcmd] }
            ∧ IsStatusWord w true s.fcode)

/-! ### Reset, the step and the whole machine -/

/-- R310, R311, R297: reset, in any state and during any command, leaves every instance with `INIT = 0`, the SYS
registers 0, the `FAULT` line low and no result, and the interrupted command has no effect. Power-up is the same
state. Three things here are the model's choice: the deliveries not taken yet and the parameters stand through a reset
(log entry 9), the state reset reaches is one state, with the unset registers held as zeros (log entry 3), and `result`
is empty in it (log entry 5). -/
def Obligations.ResetUnsetsEveryInstanceAndClearsTheFault : Prop :=
  (∀ (s : State) (c : Option Transaction) (rest : List HostEvent), s.inbox = .reset c :: rest →
    step s = .next { State.powerUp s.params with inbox := rest })
  ∧ ∀ (p : Params) (s : State), s = State.powerUp p →
    (∀ n, (s.piAt n).init = false ∧ (s.oscAt n).init = false ∧ (s.winAt n).init = false
      ∧ (s.envAt n).init = false)
    ∧ s.faulted = false ∧ s.fcode = .none ∧ faultCodeBits s.fcode = 0 ∧ s.fcmd = 0 ∧ s.faultLine = false ∧ s.result = []

/-- R22, R66, R305: a step takes the oldest delivery; when that is a transaction that decodes to `i`, the step is
`exec i` at the state without that delivery; when it is one the decoder rejects and no fault is pending, the step is
fault entry with `BAD_LENGTH` for the operand count and `ILLEGAL_COMMAND` for the word (R281, R285, R290; for a pending
fault see `FaultedMachinePerformsOnlyStatus`); with nothing delivered, nothing changes. -/
def Obligations.StepRunsTheDecodedCommand : Prop :=
  (∀ (s : State) (t : Transaction) (rest : List HostEvent) (i : Instr),
    s.inbox = .transaction t :: rest → decode t = .ok i → step s = exec i { s with inbox := rest })
  ∧ (∀ (t : Transaction) (e : DecodeError), decode t = .error e →
      StepRaises t (if e = .badLength then .badLength else .illegalCommand))
  ∧ ∀ s : State, s.inbox = [] → step s = .next s

/-- R65, R316: every step of every state completes: the model never stops. -/
def Obligations.EveryStepCompletes : Prop :=
  (∀ s : State, ∃ t : State, step s = .next t) ∧ ∀ (i : Instr) (s : State), ∃ t : State, exec i s = .next t

/-- R80: a command that completes without a fault, and `SYS.STATUS` always, returns exactly its opcode's number of
result words; a faulting or refused command returns none. -/
def Obligations.ResultCountIsTheOpcodes : Prop :=
  ∀ (i : Instr) (s t : State), exec i s = .next t →
    t.result.length = if t.faulted = true ∧ i.opcode ≠ .sysStatus then 0 else (opcodeRow i.opcode).nRes

/-- R23: no command clears an `INIT` bit, and a bit is set only by a construct command on its instance. -/
def Obligations.InitBitsAreSetOnlyByConstructCommands : Prop :=
  ∀ (i : Instr) (s t : State) (unit : BitVec 4) (inst : BitVec 8), exec i s = .next t →
    (unitInit s unit inst.toNat = true → unitInit t unit inst.toNat = true)
      ∧ (unitInit s unit inst.toNat = false → unitInit t unit inst.toNat = true →
          isConstruct i = true ∧ instrUnit i = unit ∧ instrInst i = inst)

/-- R20, R21: a command changes no register of another instance or of another unit, and no parameter. -/
def Obligations.InstancesAreIndependent : Prop :=
  ∀ (i : Instr) (s t : State) (n : Nat), exec i s = .next t →
    (¬ (instrUnit i = 1 ∧ (instrInst i).toNat = n) → t.piAt n = s.piAt n)
    ∧ (¬ (instrUnit i = 2 ∧ (instrInst i).toNat = n) → t.oscAt n = s.oscAt n)
    ∧ (¬ (instrUnit i = 3 ∧ (instrInst i).toNat = n) → t.winAt n = s.winAt n)
    ∧ (¬ (instrUnit i = 4 ∧ (instrInst i).toNat = n) → t.envAt n = s.envAt n)
    ∧ t.params = s.params

/-- R311, "Unset": no command can observe the value an unset register holds: two states that differ only there
answer every command with states that differ only there, and with the same result words and fault record. -/
def Obligations.UnsetValuesAreUnobservable : Prop :=
  ∀ (i : Instr) (s s' t t' : State), SameButUnset s s' → exec i s = .next t → exec i s' = .next t' →
    SameButUnset t t'

/-- The invariant holds after power-up with any legal parameters. -/
def Obligations.PowerUpSatisfiesTheInvariant : Prop :=
  ∀ p : Params, p.legal = true → (State.powerUp p).wf = true

/-- Every step from every state keeps the invariant: legal parameters, each unit listing exactly its constructed
instances in canonical form (R23), `note_off` at `+0.0`, and a fault record exactly while `FAULTED` (R55). -/
def Obligations.EveryStepKeepsTheInvariant : Prop :=
  ∀ s t : State, s.wf = true → step s = .next t → t.wf = true

/-! ### Encoding -/

/-- R81, R90: decoding the encoding of a well-formed command gives that command, for every command and operand. -/
def Obligations.DecodeOfEncodeIsTheCommand : Prop :=
  ∀ i : Instr, i.wellFormed = true → decode (encode i) = .ok i

/-- R81, R92: a transaction that decodes is the encoding of its command, so every legal word has one meaning and
`FCMD` is the delivered word; and the command is well-formed. -/
def Obligations.EncodeOfDecodeIsTheTransaction : Prop :=
  ∀ (t : Transaction) (i : Instr), decode t = .ok i → encode i = t ∧ i.wellFormed = true

/-- R94, R95, the spec's own encodings of 95_test_vectors.md section 8: a few words decode to the commands they
stand for. -/
def Obligations.SampleWordsDecode : Prop :=
  decode ⟨0x10020001, [0x43DC0000, 0x473B8000]⟩ = .ok (.piInit 2 .sat 0x43DC0000 0x473B8000)
    ∧ decode ⟨0x1F030100, []⟩ = .ok (.piRd 3 1)
    ∧ decode ⟨0x21010000, [0x45BB8000, 0x473B8000]⟩ = .ok (.oscConfig 1 0x45BB8000 0x473B8000)
    ∧ decode ⟨0x3F000500, []⟩ = .ok (.winRd 0 5)
    ∧ decode ⟨0x42000003, [0x3F4CCCCD]⟩ = .ok (.envTrigger 0 0b11 0x3F4CCCCD)
    ∧ decode ⟨0x04000000, []⟩ = .ok .sysStatus

/-- R63: a serialising host sends each word of a transaction least-significant byte first, and the bytes are read
back as that transaction. -/
def Obligations.LittleEndianBytesReadBack : Prop :=
  ∀ t : Transaction, transactionOfBytes (transactionToBytes t) = some t
    ∧ ∀ (k j : Nat) (w : Word), (t.cmd :: t.ops)[k]? = some w → j < 4 →
        (transactionToBytes t)[4 * k + j]? = some (w.extractLsb' (8 * j) 8)

/-- R94, R95: the source lines of 95_test_vectors.md section 8, with the two pseudo-instructions, the default
auto-decay value and a register by its number, assemble to the words the spec lists. -/
def Obligations.SampleLinesAssemble : Prop :=
  ∀ e ∈ [("sys.nop", (⟨0x00000000, []⟩ : Transaction)),
      ("sys.status", ⟨0x04000000, []⟩),
      ("pi.init i2, sat, 440.0, 48000.0", ⟨0x10020001, [0x43DC0000, 0x473B8000]⟩),
      ("pi.rewind i1, sat, 0x40000000", ⟨0x11010001, [0x00000000, 0x40000000]⟩),
      ("pi.rd i3, step", ⟨0x1F030100, []⟩),
      ("osc.config i1, 6000.0, 48000.0", ⟨0x21010000, [0x45BB8000, 0x473B8000]⟩),
      ("win.rd i0, s1_2", ⟨0x3F000500, []⟩),
      ("env.trigger i0, 1.0", ⟨0x42000001, [0x3F800000]⟩),
      ("env.trigger i0, 0.8, ad=-1", ⟨0x42000003, [0x3F4CCCCD]⟩),
      ("env.hold i0, 0.8", ⟨0x42000000, [0x3F4CCCCD]⟩),
      ("env.trigger i0, 0.8, ad=-2", ⟨0x42000002, [0x3F4CCCCD]⟩),
      ("env.rd i0, r10", ⟨0x4F000A00, []⟩),
      ("env.note_off_level i0, 0.0", ⟨0x4C000000, [0x00000000]⟩)],
    assembleLine e.1.toList = .ok (some e.2)

/-! ### The arithmetic -/

/-- R12, R16: `rn32` is round to nearest, ties to even, of every exact rational: subnormals kept, overflow to
infinity, no value nearer. What the spec leaves to IEEE 754 is general knowledge (log entry 6). -/
def Obligations.RoundingIsToNearestTiesToEven : Prop :=
  ∀ (neg : Bool) (num den : Nat), 0 < den → IsRN32 (rn32 neg num den) neg num den

/-- R12, R16: the four operations on every pair of operands. On finite operands `fadd`, `fsub`, `fmul` and `fdiv` return
the exact result rounded once; an exact zero sum or difference is −0 only for `-0 + -0` and `-0 - +0`; a finite
dividend over zero is an infinity, or the NaN for `0/0`. A NaN operand and an invalid operation (`inf - inf`,
`0 * inf`, `inf / inf`) give 0x7FC00000; every other sum, product and quotient with an infinity is that infinity, the
infinity or the zero of the operands' signs. What the spec leaves to IEEE 754 is general knowledge (log entry 6). -/
def Obligations.ArithmeticRoundsTheExactResultOnce : Prop :=
  ∀ x y signedInf : Word, signedInf = (if signBit x = signBit y then 0x7F800000 else 0xFF800000) →
    (isFinite x = true → isFinite y = true →
      (∀ z ∈ [(valueUnits x + valueUnits y, fadd x y), (valueUnits x - valueUnits y, fsub x y)], z.1 ≠ 0 →
          IsRN32 z.2 (decide (z.1 < 0)) z.1.natAbs (2 ^ 149))
        ∧ (valueUnits x + valueUnits y = 0 → fadd x y = if x = 0x80000000 ∧ y = 0x80000000 then 0x80000000 else 0)
        ∧ (valueUnits x = valueUnits y → fsub x y = if x = 0x80000000 ∧ y = 0 then 0x80000000 else 0)
        ∧ IsRN32 (fmul x y) (signBit x != signBit y) (magUnits x * magUnits y) (2 ^ 298)
        ∧ (magUnits y ≠ 0 → IsRN32 (fdiv x y) (signBit x != signBit y) (magUnits x) (magUnits y))
        ∧ (magUnits y = 0 → fdiv x y = if magUnits x = 0 then 0x7FC00000 else signedInf))
    ∧ (isNaN x = true ∨ isNaN y = true → ∀ z ∈ [fadd x y, fsub x y, fmul x y, fdiv x y], z = 0x7FC00000)
    ∧ (isInf x = true → isInf y = true →
        fadd x y = (if signBit x = signBit y then x else 0x7FC00000)
          ∧ fsub x y = (if signBit x = signBit y then 0x7FC00000 else x)
          ∧ fmul x y = signedInf ∧ fdiv x y = 0x7FC00000)
    ∧ (isInf x = true → isFinite y = true →
        fadd x y = x ∧ fsub x y = x ∧ fmul x y = (if magUnits y = 0 then 0x7FC00000 else signedInf)
          ∧ fdiv x y = signedInf)
    ∧ (isFinite x = true → isInf y = true →
        fadd x y = y ∧ fsub x y = (if signBit y then 0x7F800000 else 0xFF800000)
          ∧ fmul x y = (if magUnits x = 0 then 0x7FC00000 else signedInf)
          ∧ fdiv x y = if signBit x = signBit y then 0x00000000 else 0x80000000)

/-- R16: `flt` compares finite operands by their exact values, so −0 equals +0; minus infinity is below and plus
infinity above everything else but a NaN; a NaN makes every compare false; and `fgt` is `flt` the other way round.
What the spec leaves to IEEE 754 is general knowledge (log entry 6). -/
def Obligations.OrderedCompareFollowsTheValues : Prop :=
  ∀ x y : Word,
    (isFinite x = true → isFinite y = true → (flt x y = true ↔ valueUnits x < valueUnits y))
      ∧ (isNaN y = false → flt 0x7F800000 y = false ∧ (flt 0xFF800000 y = true ↔ y ≠ 0xFF800000))
      ∧ (isNaN x = false → flt x 0xFF800000 = false ∧ (flt x 0x7F800000 = true ↔ x ≠ 0x7F800000))
      ∧ (isNaN x = true ∨ isNaN y = true → flt x y = false)
      ∧ (fgt x y = true ↔ flt y x = true)
end

