-- ==== Sys2Proof/Laws/Bank.lean ====
section
/-! SUPPORT. The laws of a unit's instances by index: reading after writing, and the canonical form kept. -/

namespace Sys2Proof.Machine

variable {α : Type}

theorem bankGet_bankErase (d : α) (b : Bank α) (i j : Nat) :
    bankGet d (bankErase b i) j = if j = i then d else bankGet d b j := by
  induction b with
  | nil => simp [bankErase, bankGet]
  | cons e rest ih =>
    obtain ⟨k, v⟩ := e
    by_cases hk : k = i
    · subst hk
      by_cases hj : j = k
      · subst hj; simpa [bankErase] using ih
      · have : k ≠ j := fun h => hj h.symm
        simp [bankErase, bankGet, ih, hj, this]
    · by_cases hkj : k = j
      · subst hkj; simp [bankErase, bankGet, hk]
      · simp [bankErase, bankGet, ih, hk, hkj]

theorem bankGet_bankInsert (d : α) (b : Bank α) (i j : Nat) (v : α)
    (hb : bankGet d b i = d) (hn : ∀ e ∈ b, e.1 ≠ i) :
    bankGet d (bankInsert b i v) j = if j = i then v else bankGet d b j := by
  induction b with
  | nil => by_cases h : i = j <;> simp [bankInsert, bankGet, h, eq_comm]
  | cons e rest ih =>
    obtain ⟨k, w⟩ := e
    have hk : k ≠ i := hn (k, w) (by simp)
    have hr : bankGet d rest i = d := by simpa [bankGet, hk] using hb
    have ih' := ih hr (fun e he => hn e (by simp [he]))
    by_cases hlt : i < k
    · by_cases hij : i = j
      · subst hij; simp [bankInsert, bankGet, hlt]
      · have : j ≠ i := fun h => hij h.symm
        simp [bankInsert, bankGet, hlt, hij, this]
    · by_cases hkj : k = j
      · subst hkj; simp [bankInsert, bankGet, hlt, hk]
      · simp [bankInsert, bankGet, hlt, hkj, ih']

theorem bankErase_not_mem (b : Bank α) (i : Nat) : ∀ e ∈ bankErase b i, e.1 ≠ i := by
  induction b with
  | nil => simp [bankErase]
  | cons e rest ih =>
    obtain ⟨k, v⟩ := e
    by_cases hk : k = i
    · simpa [bankErase, hk] using ih
    · intro e he
      simp only [bankErase, hk, if_false, List.mem_cons] at he
      rcases he with rfl | he
      · exact hk
      · exact ih e he

/-- Reading an instance after writing one: the written index gives the written value, every other index what it
gave before. It holds for every bank, canonical or not. -/
@[simp] theorem bankGet_bankSet [DecidableEq α] (d : α) (b : Bank α) (i j : Nat) (v : α) :
    bankGet d (bankSet d b i v) j = if j = i then v else bankGet d b j := by
  unfold bankSet
  split
  · rename_i h; subst h; exact bankGet_bankErase v b i j
  · rw [bankGet_bankInsert d _ i j v (by simp [bankGet_bankErase]) (bankErase_not_mem b i)]
    by_cases h : j = i <;> simp [h, bankGet_bankErase]

theorem bankErase_subset (b : Bank α) (i : Nat) : ∀ e ∈ bankErase b i, e ∈ b := by
  induction b with
  | nil => simp [bankErase]
  | cons e rest ih =>
    obtain ⟨k, v⟩ := e
    intro e he
    by_cases hk : k = i
    · exact List.mem_cons_of_mem _ (ih e (by simpa [bankErase, hk] using he))
    · simp only [bankErase, hk, if_false, List.mem_cons] at he
      rcases he with rfl | he
      · simp
      · exact List.mem_cons_of_mem _ (ih e he)

theorem mem_bankInsert (b : Bank α) (i : Nat) (v : α) (e : Nat × α) :
    e ∈ bankInsert b i v ↔ e = (i, v) ∨ e ∈ b := by
  induction b with
  | nil => simp [bankInsert]
  | cons x rest ih =>
    obtain ⟨k, w⟩ := x
    by_cases h : i < k
    · simp [bankInsert, h]
    · simp [bankInsert, h, ih, or_left_comm]

/-- What a bank lists after a write: the written entry and entries it listed before. -/
theorem mem_bankSet [DecidableEq α] (d : α) (b : Bank α) (i : Nat) (v : α) (e : Nat × α)
    (h : e ∈ bankSet d b i v) : e = (i, v) ∨ e ∈ b := by
  unfold bankSet at h
  split at h
  · exact .inr (bankErase_subset b i e h)
  · rcases (mem_bankInsert _ i v e).1 h with h | h
    · exact .inl h
    · exact .inr (bankErase_subset b i e h)

theorem bankWf_bankErase [DecidableEq α] (d : α) (b : Bank α) (i : Nat) (h : bankWf d b = true) :
    bankWf d (bankErase b i) = true := by
  induction b with
  | nil => simp [bankErase, bankWf]
  | cons x rest ih =>
    obtain ⟨k, w⟩ := x
    simp only [bankWf, Bool.and_eq_true, decide_eq_true_eq, List.all_eq_true] at h
    by_cases hk : k = i
    · simpa [bankErase, hk] using ih h.2
    · simp only [bankErase, hk, if_false, bankWf, Bool.and_eq_true, decide_eq_true_eq, List.all_eq_true]
      exact ⟨⟨h.1.1, fun e he => h.1.2 e (bankErase_subset rest i e he)⟩, ih h.2⟩

theorem bankWf_bankInsert [DecidableEq α] (d : α) (b : Bank α) (i : Nat) (v : α) (hv : v ≠ d)
    (hn : ∀ e ∈ b, e.1 ≠ i) (h : bankWf d b = true) : bankWf d (bankInsert b i v) = true := by
  induction b with
  | nil => simp [bankInsert, bankWf, hv]
  | cons x rest ih =>
    obtain ⟨k, w⟩ := x
    have hk : k ≠ i := hn (k, w) (by simp)
    have h' := h
    simp only [bankWf, Bool.and_eq_true, decide_eq_true_eq, List.all_eq_true] at h
    by_cases hlt : i < k
    · simp only [bankInsert, hlt, if_true]
      rw [bankWf]
      simp only [Bool.and_eq_true, decide_eq_true_eq, List.all_eq_true, List.mem_cons]
      refine ⟨⟨hv, ?_⟩, h'⟩
      rintro e (rfl | he)
      · exact hlt
      · exact lt_trans hlt (h.1.2 e he)
    · simp only [bankInsert, hlt, if_false]
      rw [bankWf]
      simp only [Bool.and_eq_true, decide_eq_true_eq, List.all_eq_true]
      refine ⟨⟨h.1.1, ?_⟩, ih (fun e he => hn e (by simp [he])) h.2⟩
      intro e he
      rcases (mem_bankInsert rest i v e).1 he with rfl | he
      · exact lt_of_le_of_ne (not_lt.1 hlt) hk
      · exact h.1.2 e he

/-- A write keeps the canonical form. -/
theorem bankWf_bankSet [DecidableEq α] (d : α) (b : Bank α) (i : Nat) (v : α) (h : bankWf d b = true) :
    bankWf d (bankSet d b i v) = true := by
  unfold bankSet
  split
  · exact bankWf_bankErase d b i h
  · rename_i hv
    exact bankWf_bankInsert d _ i v hv (bankErase_not_mem b i) (bankWf_bankErase d b i h)

/-- In canonical form, what an index reads as is its listed value or the reset state. -/
theorem bankGet_mem (d : α) (b : Bank α) (i : Nat) : (i, bankGet d b i) ∈ b ∨ bankGet d b i = d := by
  induction b with
  | nil => simp [bankGet]
  | cons x rest ih =>
    obtain ⟨k, w⟩ := x
    by_cases hk : k = i
    · simp [bankGet, hk]
    · rcases ih with h | h
      · left; simp [bankGet, hk, h]
      · right; simpa [bankGet, hk] using h

end Sys2Proof.Machine
end

