-- ==== Sys2Proof/Laws/Decode.lean ====
section
/-! SUPPORT. The laws of the command word: packing and taking fields apart are inverse (30_encoding.md R81), the
opcode map finds each opcode at its row (R90), and the little-endian bytes of a word (20_memory.md R63). -/

namespace Sys2Proof

/-- A bit of a packed command word is a bit of one field (R81). -/
theorem packCmd_getLsbD (f : CmdFields) (k : Nat) :
    (packCmd f).getLsbD k =
      if k < 2 then f.mod.getLsbD k
      else if k < 8 then f.reserved.getLsbD (k - 2)
      else if k < 16 then f.reg.getLsbD (k - 8)
      else if k < 24 then f.inst.getLsbD (k - 16)
      else if k < 28 then f.op.getLsbD (k - 24)
      else f.unit.getLsbD (k - 28) := by
  have h : (packCmd f).getLsbD k
      = if k < 2 then f.mod.getLsbD k
        else (f.unit ++ f.op ++ f.inst ++ f.reg ++ f.reserved).getLsbD (k - 2) :=
    BitVec.getLsbD_append
  rw [h]
  simp only [BitVec.getLsbD_append, Nat.sub_sub]
  split_ifs <;> first | rfl | omega

/-- No field of a command word is lost or moved. -/
@[simp] theorem cmdFields_packCmd (f : CmdFields) : cmdFields (packCmd f) = f := by
  obtain ⟨u, o, i, r, b, m⟩ := f
  simp only [cmdFields, CmdFields.mk.injEq]
  refine ⟨?_, ?_, ?_, ?_, ?_, ?_⟩ <;>
  · apply BitVec.eq_of_getLsbD_eq
    intro k hk
    rw [BitVec.getLsbD_extractLsb', packCmd_getLsbD]
    simp only [hk, decide_true, Bool.true_and]
    split_ifs <;> first | omega | (congr 1; omega)

/-- The fields make up the whole command word. -/
@[simp] theorem packCmd_cmdFields (w : Word) : packCmd (cmdFields w) = w := by
  apply BitVec.eq_of_getLsbD_eq
  intro k hk
  rw [packCmd_getLsbD]
  simp only [cmdFields, BitVec.getLsbD_extractLsb']
  split_ifs <;> (rw [decide_eq_true (by omega), Bool.true_and]; congr 1; omega)

/-- Each opcode stands at its own row of the opcode map. -/
@[simp] theorem opcodeAt_opcodeRow (k : Opcode) : opcodeAt (opcodeRow k).unit (opcodeRow k).op = some k := by
  cases k <;> rfl

/-- What the opcode map answers is an opcode whose row has that UNIT and OP. -/
theorem opcodeAt_some {u o : BitVec 4} {k : Opcode} (h : opcodeAt u o = some k) :
    (opcodeRow k).unit = u ∧ (opcodeRow k).op = o := by
  have := List.find?_some h
  simpa using this

/-- Every UNIT of the opcode map is below 5 (R82). -/
theorem opcodeRow_unit_lt (k : Opcode) : (opcodeRow k).unit.toNat < 5 := by
  cases k <;> decide

/-- What a legal command word satisfies: it is its opcode's row, with INST 0 for SYS, and REG and MOD values the
opcode allows (R92). -/
theorem checkCmd_ok {f : CmdFields} {k : Opcode} :
    checkCmd f = .ok k ↔
      (opcodeRow k).unit = f.unit ∧ (opcodeRow k).op = f.op ∧ ((opcodeRow k).unit = 0 → f.inst = 0)
        ∧ regAllowed k f.reg = true ∧ f.reserved = 0 ∧ modAllowed k f.mod = true := by
  constructor
  · intro h
    unfold checkCmd at h
    split at h
    · simp at h
    · split at h
      · simp at h
      · rename_i k' hk
        split_ifs at h with h1 h2 h3 h4
        obtain rfl : k' = k := by simpa using h
        obtain ⟨hu, ho⟩ := opcodeAt_some hk
        refine ⟨hu, ho, ?_, by simpa using h2, by simpa using h3, by simpa using h4⟩
        intro hz
        by_contra hne
        exact h1 ⟨hz, hne⟩
  · rintro ⟨hu, ho, hi, hr, hb, hm⟩
    have hlt := opcodeRow_unit_lt k
    have hat : opcodeAt f.unit f.op = some k := by rw [← hu, ← ho]; simp
    unfold checkCmd
    rw [if_neg (by rw [← hu]; omega), hat]
    simp only [hr, hb, hm]
    rw [if_neg (by rintro ⟨hz, hne⟩; exact hne (hi hz))]
    simp

/-- A legal command word's opcode is unique, so its operand count is the one UNIT and OP fix (R93). -/
theorem opsLength_of_checkCmd {w : Word} {k : Opcode} (h : checkCmd (cmdFields w) = .ok k) :
    opsLength w = (opcodeRow k).nOps := by
  obtain ⟨hu, ho, -⟩ := checkCmd_ok.1 h
  simp [opsLength, ← hu, ← ho]

theorem takeOps0_ok {i j : Instr} {ops : List Word} : takeOps0 i ops = .ok j ↔ ops = [] ∧ i = j := by
  cases ops <;> simp [takeOps0]

theorem takeOps1_ok {mk : Word → Instr} {j : Instr} {ops : List Word} :
    takeOps1 mk ops = .ok j ↔ ∃ a, ops = [a] ∧ mk a = j := by
  rcases ops with _ | ⟨a, _ | ⟨b, r⟩⟩ <;> simp [takeOps1]

theorem takeOps2_ok {mk : Word → Word → Instr} {j : Instr} {ops : List Word} :
    takeOps2 mk ops = .ok j ↔ ∃ a b, ops = [a, b] ∧ mk a b = j := by
  rcases ops with _ | ⟨a, _ | ⟨b, _ | ⟨c, r⟩⟩⟩ <;> simp [takeOps2]

theorem takeOps6_ok {mk : Word → Word → Word → Word → Word → Word → Instr} {j : Instr} {ops : List Word} :
    takeOps6 mk ops = .ok j ↔ ∃ a b c d e g, ops = [a, b, c, d, e, g] ∧ mk a b c d e g = j := by
  rcases ops with _ | ⟨a, _ | ⟨b, _ | ⟨c, _ | ⟨d, _ | ⟨e, _ | ⟨g, _ | ⟨h, r⟩⟩⟩⟩⟩⟩⟩ <;> simp [takeOps6]

/-- The decoder accepts a transaction exactly when its word is legal and its operands are of the opcode's number. -/
theorem decode_ok {t : Transaction} {i : Instr} :
    decode t = .ok i ↔ ∃ k, checkCmd (cmdFields t.cmd) = .ok k ∧ attachOps k (cmdFields t.cmd) t.ops = .ok i := by
  unfold decode
  cases checkCmd (cmdFields t.cmd) <;> simp [bind, Except.bind]

@[simp] theorem modeOfMod_modOfMode (m : PiMode) : modeOfMod (modOfMode m) = m := by
  cases m <;> rfl

/-- The value of a packed command word. -/
theorem packCmd_toNat (f : CmdFields) :
    (packCmd f).toNat = f.unit.toNat * 2 ^ 28 + f.op.toNat * 2 ^ 24 + f.inst.toNat * 2 ^ 16
      + f.reg.toNat * 2 ^ 8 + f.reserved.toNat * 4 + f.mod.toNat := by
  obtain ⟨u, o, i, r, b, m⟩ := f
  have h : (packCmd ⟨u,o,i,r,b,m⟩).toNat = ((u ++ o ++ i ++ r ++ b) ++ m).toNat := rfl
  rw [h]
  simp only [BitVec.toNat_append]
  simp only [Nat.shiftLeft_eq]
  have := u.isLt; have := o.isLt; have := i.isLt; have := r.isLt; have := b.isLt; have := m.isLt
  rw [← Nat.shiftLeft_eq, ← Nat.shiftLeft_eq,← Nat.shiftLeft_eq,← Nat.shiftLeft_eq,← Nat.shiftLeft_eq]
  rw [← Nat.shiftLeft_add_eq_or_of_lt (by omega), ← Nat.shiftLeft_add_eq_or_of_lt (by omega), ← Nat.shiftLeft_add_eq_or_of_lt (by omega), ← Nat.shiftLeft_add_eq_or_of_lt (by omega), ← Nat.shiftLeft_add_eq_or_of_lt (by omega)]
  simp only [Nat.shiftLeft_eq]; omega

/-- Reading back the bytes of words gives the words (R63). -/
theorem bytesToWords_cons (w : Word) (bs : List Byte) :
    bytesToWords (wordToBytes w ++ bs) = (bytesToWords bs).map (w :: ·) := by
  have hw : (w.extractLsb' 24 8 ++ w.extractLsb' 16 8 ++ w.extractLsb' 8 8 ++ w.extractLsb' 0 8 : BitVec 32) = w := by
    apply BitVec.eq_of_getLsbD_eq
    intro k hk
    refine (BitVec.getLsbD_append).trans ?_
    simp only [BitVec.getLsbD_append, BitVec.getLsbD_extractLsb', Nat.sub_sub]
    split_ifs <;> (rw [decide_eq_true (by omega), Bool.true_and]; congr 1; omega)
  simp only [wordToBytes, List.cons_append, List.nil_append, bytesToWords, hw]

end Sys2Proof
end

