-- ==== Sys2Proof/Laws/State.lean ====
section
/-! SUPPORT. One lemma per field per update of `State`, so that no later proof unfolds a record update; and the
instances read after a write. -/

namespace Sys2Proof.Machine

@[simp] theorem setPi_params (s : State) (n : Nat) (r : PiRegs) : (s.setPi n r).params = s.params := rfl
@[simp] theorem setPi_osc (s : State) (n : Nat) (r : PiRegs) : (s.setPi n r).osc = s.osc := rfl
@[simp] theorem setPi_win (s : State) (n : Nat) (r : PiRegs) : (s.setPi n r).win = s.win := rfl
@[simp] theorem setPi_env (s : State) (n : Nat) (r : PiRegs) : (s.setPi n r).env = s.env := rfl
@[simp] theorem setPi_faulted (s : State) (n : Nat) (r : PiRegs) : (s.setPi n r).faulted = s.faulted := rfl
@[simp] theorem setPi_fcode (s : State) (n : Nat) (r : PiRegs) : (s.setPi n r).fcode = s.fcode := rfl
@[simp] theorem setPi_fcmd (s : State) (n : Nat) (r : PiRegs) : (s.setPi n r).fcmd = s.fcmd := rfl
@[simp] theorem setPi_result (s : State) (n : Nat) (r : PiRegs) : (s.setPi n r).result = s.result := rfl
@[simp] theorem setPi_inbox (s : State) (n : Nat) (r : PiRegs) : (s.setPi n r).inbox = s.inbox := rfl

@[simp] theorem setOsc_params (s : State) (n : Nat) (r : OscRegs) : (s.setOsc n r).params = s.params := rfl
@[simp] theorem setOsc_pi (s : State) (n : Nat) (r : OscRegs) : (s.setOsc n r).pi = s.pi := rfl
@[simp] theorem setOsc_win (s : State) (n : Nat) (r : OscRegs) : (s.setOsc n r).win = s.win := rfl
@[simp] theorem setOsc_env (s : State) (n : Nat) (r : OscRegs) : (s.setOsc n r).env = s.env := rfl
@[simp] theorem setOsc_faulted (s : State) (n : Nat) (r : OscRegs) : (s.setOsc n r).faulted = s.faulted := rfl
@[simp] theorem setOsc_fcode (s : State) (n : Nat) (r : OscRegs) : (s.setOsc n r).fcode = s.fcode := rfl
@[simp] theorem setOsc_fcmd (s : State) (n : Nat) (r : OscRegs) : (s.setOsc n r).fcmd = s.fcmd := rfl
@[simp] theorem setOsc_result (s : State) (n : Nat) (r : OscRegs) : (s.setOsc n r).result = s.result := rfl
@[simp] theorem setOsc_inbox (s : State) (n : Nat) (r : OscRegs) : (s.setOsc n r).inbox = s.inbox := rfl

@[simp] theorem setWin_params (s : State) (n : Nat) (r : WinRegs) : (s.setWin n r).params = s.params := rfl
@[simp] theorem setWin_pi (s : State) (n : Nat) (r : WinRegs) : (s.setWin n r).pi = s.pi := rfl
@[simp] theorem setWin_osc (s : State) (n : Nat) (r : WinRegs) : (s.setWin n r).osc = s.osc := rfl
@[simp] theorem setWin_env (s : State) (n : Nat) (r : WinRegs) : (s.setWin n r).env = s.env := rfl
@[simp] theorem setWin_faulted (s : State) (n : Nat) (r : WinRegs) : (s.setWin n r).faulted = s.faulted := rfl
@[simp] theorem setWin_fcode (s : State) (n : Nat) (r : WinRegs) : (s.setWin n r).fcode = s.fcode := rfl
@[simp] theorem setWin_fcmd (s : State) (n : Nat) (r : WinRegs) : (s.setWin n r).fcmd = s.fcmd := rfl
@[simp] theorem setWin_result (s : State) (n : Nat) (r : WinRegs) : (s.setWin n r).result = s.result := rfl
@[simp] theorem setWin_inbox (s : State) (n : Nat) (r : WinRegs) : (s.setWin n r).inbox = s.inbox := rfl

@[simp] theorem setEnv_params (s : State) (n : Nat) (r : EnvRegs) : (s.setEnv n r).params = s.params := rfl
@[simp] theorem setEnv_pi (s : State) (n : Nat) (r : EnvRegs) : (s.setEnv n r).pi = s.pi := rfl
@[simp] theorem setEnv_osc (s : State) (n : Nat) (r : EnvRegs) : (s.setEnv n r).osc = s.osc := rfl
@[simp] theorem setEnv_win (s : State) (n : Nat) (r : EnvRegs) : (s.setEnv n r).win = s.win := rfl
@[simp] theorem setEnv_faulted (s : State) (n : Nat) (r : EnvRegs) : (s.setEnv n r).faulted = s.faulted := rfl
@[simp] theorem setEnv_fcode (s : State) (n : Nat) (r : EnvRegs) : (s.setEnv n r).fcode = s.fcode := rfl
@[simp] theorem setEnv_fcmd (s : State) (n : Nat) (r : EnvRegs) : (s.setEnv n r).fcmd = s.fcmd := rfl
@[simp] theorem setEnv_result (s : State) (n : Nat) (r : EnvRegs) : (s.setEnv n r).result = s.result := rfl
@[simp] theorem setEnv_inbox (s : State) (n : Nat) (r : EnvRegs) : (s.setEnv n r).inbox = s.inbox := rfl

@[simp] theorem withResult_params (s : State) (ws : List Word) : (s.withResult ws).params = s.params := rfl
@[simp] theorem withResult_pi (s : State) (ws : List Word) : (s.withResult ws).pi = s.pi := rfl
@[simp] theorem withResult_osc (s : State) (ws : List Word) : (s.withResult ws).osc = s.osc := rfl
@[simp] theorem withResult_win (s : State) (ws : List Word) : (s.withResult ws).win = s.win := rfl
@[simp] theorem withResult_env (s : State) (ws : List Word) : (s.withResult ws).env = s.env := rfl
@[simp] theorem withResult_faulted (s : State) (ws : List Word) : (s.withResult ws).faulted = s.faulted := rfl
@[simp] theorem withResult_fcode (s : State) (ws : List Word) : (s.withResult ws).fcode = s.fcode := rfl
@[simp] theorem withResult_fcmd (s : State) (ws : List Word) : (s.withResult ws).fcmd = s.fcmd := rfl
@[simp] theorem withResult_result (s : State) (ws : List Word) : (s.withResult ws).result = ws := rfl
@[simp] theorem withResult_inbox (s : State) (ws : List Word) : (s.withResult ws).inbox = s.inbox := rfl

@[simp] theorem takeFault_params (c : FaultCode) (w : Word) (s : State) : (takeFault c w s).params = s.params := rfl
@[simp] theorem takeFault_pi (c : FaultCode) (w : Word) (s : State) : (takeFault c w s).pi = s.pi := rfl
@[simp] theorem takeFault_osc (c : FaultCode) (w : Word) (s : State) : (takeFault c w s).osc = s.osc := rfl
@[simp] theorem takeFault_win (c : FaultCode) (w : Word) (s : State) : (takeFault c w s).win = s.win := rfl
@[simp] theorem takeFault_env (c : FaultCode) (w : Word) (s : State) : (takeFault c w s).env = s.env := rfl
@[simp] theorem takeFault_faulted (c : FaultCode) (w : Word) (s : State) : (takeFault c w s).faulted = true := rfl
@[simp] theorem takeFault_fcode (c : FaultCode) (w : Word) (s : State) : (takeFault c w s).fcode = c := rfl
@[simp] theorem takeFault_fcmd (c : FaultCode) (w : Word) (s : State) : (takeFault c w s).fcmd = w := rfl
@[simp] theorem takeFault_result (c : FaultCode) (w : Word) (s : State) : (takeFault c w s).result = [] := rfl
@[simp] theorem takeFault_inbox (c : FaultCode) (w : Word) (s : State) : (takeFault c w s).inbox = s.inbox := rfl

@[simp] theorem refuseCommand_params (s : State) : (refuseCommand s).params = s.params := rfl
@[simp] theorem refuseCommand_pi (s : State) : (refuseCommand s).pi = s.pi := rfl
@[simp] theorem refuseCommand_osc (s : State) : (refuseCommand s).osc = s.osc := rfl
@[simp] theorem refuseCommand_win (s : State) : (refuseCommand s).win = s.win := rfl
@[simp] theorem refuseCommand_env (s : State) : (refuseCommand s).env = s.env := rfl
@[simp] theorem refuseCommand_faulted (s : State) : (refuseCommand s).faulted = s.faulted := rfl
@[simp] theorem refuseCommand_fcode (s : State) : (refuseCommand s).fcode = s.fcode := rfl
@[simp] theorem refuseCommand_fcmd (s : State) : (refuseCommand s).fcmd = s.fcmd := rfl
@[simp] theorem refuseCommand_result (s : State) : (refuseCommand s).result = [] := rfl
@[simp] theorem refuseCommand_inbox (s : State) : (refuseCommand s).inbox = s.inbox := rfl

@[simp] theorem applyReset_params (s : State) : (applyReset s).params = s.params := rfl
@[simp] theorem applyReset_pi (s : State) : (applyReset s).pi = [] := rfl
@[simp] theorem applyReset_osc (s : State) : (applyReset s).osc = [] := rfl
@[simp] theorem applyReset_win (s : State) : (applyReset s).win = [] := rfl
@[simp] theorem applyReset_env (s : State) : (applyReset s).env = [] := rfl
@[simp] theorem applyReset_faulted (s : State) : (applyReset s).faulted = false := rfl
@[simp] theorem applyReset_fcode (s : State) : (applyReset s).fcode = .none := rfl
@[simp] theorem applyReset_fcmd (s : State) : (applyReset s).fcmd = 0 := rfl
@[simp] theorem applyReset_result (s : State) : (applyReset s).result = [] := rfl
@[simp] theorem applyReset_inbox (s : State) : (applyReset s).inbox = s.inbox := rfl

/-- Reading an instance of PI after one is written. -/
@[simp] theorem piAt_setPi (s : State) (n m : Nat) (r : PiRegs) :
    (s.setPi n r).piAt m = if m = n then r else s.piAt m := by
  simp [State.piAt, State.setPi]

@[simp] theorem piAt_setOsc (s : State) (n m : Nat) (r : OscRegs) : (s.setOsc n r).piAt m = s.piAt m := rfl
@[simp] theorem piAt_setWin (s : State) (n m : Nat) (r : WinRegs) : (s.setWin n r).piAt m = s.piAt m := rfl
@[simp] theorem piAt_setEnv (s : State) (n m : Nat) (r : EnvRegs) : (s.setEnv n r).piAt m = s.piAt m := rfl
@[simp] theorem piAt_withResult (s : State) (ws : List Word) (m : Nat) : (s.withResult ws).piAt m = s.piAt m := rfl
@[simp] theorem piAt_takeFault (c : FaultCode) (w : Word) (s : State) (m : Nat) : (takeFault c w s).piAt m = s.piAt m := rfl
@[simp] theorem piAt_refuseCommand (s : State) (m : Nat) : (refuseCommand s).piAt m = s.piAt m := rfl
@[simp] theorem piAt_applyReset (s : State) (m : Nat) : (applyReset s).piAt m = PiRegs.unset := rfl
@[simp] theorem piAt_powerUp (p : Params) (m : Nat) : (State.powerUp p).piAt m = PiRegs.unset := rfl

/-- Reading an instance of OSC after one is written. -/
@[simp] theorem oscAt_setOsc (s : State) (n m : Nat) (r : OscRegs) :
    (s.setOsc n r).oscAt m = if m = n then r else s.oscAt m := by
  simp [State.oscAt, State.setOsc]

@[simp] theorem oscAt_setPi (s : State) (n m : Nat) (r : PiRegs) : (s.setPi n r).oscAt m = s.oscAt m := rfl
@[simp] theorem oscAt_setWin (s : State) (n m : Nat) (r : WinRegs) : (s.setWin n r).oscAt m = s.oscAt m := rfl
@[simp] theorem oscAt_setEnv (s : State) (n m : Nat) (r : EnvRegs) : (s.setEnv n r).oscAt m = s.oscAt m := rfl
@[simp] theorem oscAt_withResult (s : State) (ws : List Word) (m : Nat) : (s.withResult ws).oscAt m = s.oscAt m := rfl
@[simp] theorem oscAt_takeFault (c : FaultCode) (w : Word) (s : State) (m : Nat) : (takeFault c w s).oscAt m = s.oscAt m := rfl
@[simp] theorem oscAt_refuseCommand (s : State) (m : Nat) : (refuseCommand s).oscAt m = s.oscAt m := rfl
@[simp] theorem oscAt_applyReset (s : State) (m : Nat) : (applyReset s).oscAt m = OscRegs.unset := rfl
@[simp] theorem oscAt_powerUp (p : Params) (m : Nat) : (State.powerUp p).oscAt m = OscRegs.unset := rfl

/-- Reading an instance of WIN after one is written. -/
@[simp] theorem winAt_setWin (s : State) (n m : Nat) (r : WinRegs) :
    (s.setWin n r).winAt m = if m = n then r else s.winAt m := by
  simp [State.winAt, State.setWin]

@[simp] theorem winAt_setPi (s : State) (n m : Nat) (r : PiRegs) : (s.setPi n r).winAt m = s.winAt m := rfl
@[simp] theorem winAt_setOsc (s : State) (n m : Nat) (r : OscRegs) : (s.setOsc n r).winAt m = s.winAt m := rfl
@[simp] theorem winAt_setEnv (s : State) (n m : Nat) (r : EnvRegs) : (s.setEnv n r).winAt m = s.winAt m := rfl
@[simp] theorem winAt_withResult (s : State) (ws : List Word) (m : Nat) : (s.withResult ws).winAt m = s.winAt m := rfl
@[simp] theorem winAt_takeFault (c : FaultCode) (w : Word) (s : State) (m : Nat) : (takeFault c w s).winAt m = s.winAt m := rfl
@[simp] theorem winAt_refuseCommand (s : State) (m : Nat) : (refuseCommand s).winAt m = s.winAt m := rfl
@[simp] theorem winAt_applyReset (s : State) (m : Nat) : (applyReset s).winAt m = WinRegs.unset := rfl
@[simp] theorem winAt_powerUp (p : Params) (m : Nat) : (State.powerUp p).winAt m = WinRegs.unset := rfl

/-- Reading an instance of ENV after one is written. -/
@[simp] theorem envAt_setEnv (s : State) (n m : Nat) (r : EnvRegs) :
    (s.setEnv n r).envAt m = if m = n then r else s.envAt m := by
  simp [State.envAt, State.setEnv]

@[simp] theorem envAt_setPi (s : State) (n m : Nat) (r : PiRegs) : (s.setPi n r).envAt m = s.envAt m := rfl
@[simp] theorem envAt_setOsc (s : State) (n m : Nat) (r : OscRegs) : (s.setOsc n r).envAt m = s.envAt m := rfl
@[simp] theorem envAt_setWin (s : State) (n m : Nat) (r : WinRegs) : (s.setWin n r).envAt m = s.envAt m := rfl
@[simp] theorem envAt_withResult (s : State) (ws : List Word) (m : Nat) : (s.withResult ws).envAt m = s.envAt m := rfl
@[simp] theorem envAt_takeFault (c : FaultCode) (w : Word) (s : State) (m : Nat) : (takeFault c w s).envAt m = s.envAt m := rfl
@[simp] theorem envAt_refuseCommand (s : State) (m : Nat) : (refuseCommand s).envAt m = s.envAt m := rfl
@[simp] theorem envAt_applyReset (s : State) (m : Nat) : (applyReset s).envAt m = EnvRegs.unset := rfl
@[simp] theorem envAt_powerUp (p : Params) (m : Nat) : (State.powerUp p).envAt m = EnvRegs.unset := rfl

end Sys2Proof.Machine
end

