-- ==== Sys2Proof/Laws/Perform.lean ====
section
/-! SUPPORT. What the shared operations of a command can do, said once each: performance (00_scope.md R18), the
operand checks, the access to an instance, and the step. -/

namespace Sys2Proof.Machine

/-- A command is performed or refused, and either way the machine has a next state. -/
theorem perform_cases (i : Instr) (s : State) (body : Except FaultCode State) :
    (s.faulted = true ∧ perform i s body = .next (refuseCommand s))
      ∨ (s.faulted = false ∧ ∃ t, body = .ok t ∧ perform i s body = .next t)
      ∨ (s.faulted = false ∧ ∃ c, body = .error c ∧ perform i s body = .next (takeFault c (cmdWord i) s)) := by
  cases hf : s.faulted
  · cases body with
    | ok t => exact .inr (.inl ⟨rfl, t, rfl, by simp [perform, hf]⟩)
    | error c => exact .inr (.inr ⟨rfl, c, rfl, by simp [perform, hf]⟩)
  · exact .inl ⟨rfl, by simp [perform, hf]⟩

theorem perform_faulted {s : State} (h : s.faulted = true) (i : Instr) (body : Except FaultCode State) :
    perform i s body = .next (refuseCommand s) := by
  simp [perform, h]

theorem perform_ok {s : State} (h : s.faulted = false) (i : Instr) {body : Except FaultCode State} {t : State}
    (hb : body = .ok t) : perform i s body = .next t := by
  simp [perform, h, hb]

theorem perform_error {s : State} (h : s.faulted = false) (i : Instr) {body : Except FaultCode State}
    {c : FaultCode} (hb : body = .error c) : perform i s body = .next (takeFault c (cmdWord i) s) := by
  simp [perform, h, hb]

/-- A chain of checks answers a value exactly when each check does. -/
@[simp] theorem except_bind_ok {ε α β : Type} (x : Except ε α) (f : α → Except ε β) (b : β) :
    (x >>= f) = .ok b ↔ ∃ a, x = .ok a ∧ f a = .ok b := by
  cases x <;> simp [bind, Except.bind]

/-- A chain of checks answers the first error. -/
@[simp] theorem except_bind_error {ε α β : Type} (x : Except ε α) (f : α → Except ε β) (e : ε) :
    (x >>= f) = .error e ↔ x = .error e ∨ ∃ a, x = .ok a ∧ f a = .error e := by
  cases x <;> simp [bind, Except.bind]

@[simp] theorem checkInst_ok (count : Nat) (inst : BitVec 8) (u : Unit) :
    checkInst count inst = .ok u ↔ inst.toNat < count := by
  unfold checkInst; split <;> simp_all

@[simp] theorem checkInst_error (count : Nat) (inst : BitVec 8) (c : FaultCode) :
    checkInst count inst = .error c ↔ count ≤ inst.toNat ∧ c = .badInstance := by
  unfold checkInst; split <;> simp_all [@eq_comm _ c]

@[simp] theorem checkInit_ok (b : Bool) (u : Unit) : checkInit b = .ok u ↔ b = true := by
  unfold checkInit; split <;> simp_all

@[simp] theorem checkInit_error (b : Bool) (c : FaultCode) :
    checkInit b = .error c ↔ b = false ∧ c = .uninitialised := by
  unfold checkInit; split <;> simp_all [@eq_comm _ c]

@[simp] theorem checkFrequency_ok (f : Word) (u : Unit) : checkFrequency f = .ok u ↔ isFinite f = true := by
  unfold checkFrequency; split <;> simp_all

@[simp] theorem checkFrequency_error (f : Word) (c : FaultCode) :
    checkFrequency f = .error c ↔ isFinite f = false ∧ c = .badFrequency := by
  unfold checkFrequency; split <;> simp_all [@eq_comm _ c]

@[simp] theorem checkRate_ok (x : Word) (u : Unit) :
    checkRate x = .ok u ↔ isFinite x = true ∧ fgt x zeroF = true := by
  unfold checkRate; split <;> simp_all

@[simp] theorem checkRate_error (x : Word) (c : FaultCode) :
    checkRate x = .error c ↔ ¬ (isFinite x = true ∧ fgt x zeroF = true) ∧ c = .badSampleRate := by
  unfold checkRate; split <;> simp_all [@eq_comm _ c]

@[simp] theorem checkDuration_ok (x : Word) (u : Unit) :
    checkDuration x = .ok u ↔ isFinite x = true ∧ fgt x zeroF = true := by
  unfold checkDuration; split <;> simp_all

@[simp] theorem checkDuration_error (x : Word) (c : FaultCode) :
    checkDuration x = .error c ↔ ¬ (isFinite x = true ∧ fgt x zeroF = true) ∧ c = .badDuration := by
  unfold checkDuration; split <;> simp_all [@eq_comm _ c]

@[simp] theorem checkWidth_ok (x : Word) (u : Unit) :
    checkWidth x = .ok u ↔ (isFinite x = true ∧ fgt x zeroF = true) ∧ isFinite (fdiv twoF x) = true := by
  unfold checkWidth checkDuration
  split <;> simp_all [bind, Except.bind]

@[simp] theorem checkWidth_error (x : Word) (c : FaultCode) :
    checkWidth x = .error c
      ↔ ¬ ((isFinite x = true ∧ fgt x zeroF = true) ∧ isFinite (fdiv twoF x) = true) ∧ c = .badDuration := by
  unfold checkWidth checkDuration
  split <;> simp_all [bind, Except.bind]
  · split <;> simp_all [@eq_comm _ c]
  · exact eq_comm

@[simp] theorem checkLevel_ok (x : Word) (u : Unit) : checkLevel x = .ok u ↔ isFinite x = true := by
  unfold checkLevel; split <;> simp_all

@[simp] theorem checkLevel_error (x : Word) (c : FaultCode) :
    checkLevel x = .error c ↔ isFinite x = false ∧ c = .badLevel := by
  unfold checkLevel; split <;> simp_all [@eq_comm _ c]

@[simp] theorem checkReg_ok (k : Opcode) (reg : BitVec 8) (u : Unit) :
    checkReg k reg = .ok u ↔ regAllowed k reg = true := by
  unfold checkReg; split <;> simp_all

@[simp] theorem checkReg_error (k : Opcode) (reg : BitVec 8) (c : FaultCode) :
    checkReg k reg = .error c ↔ regAllowed k reg = false ∧ c = .illegalCommand := by
  unfold checkReg; split <;> simp_all [@eq_comm _ c]

@[simp] theorem readRegister_ok (v : Option Word) (w : Word) : readRegister v = .ok w ↔ v = some w := by
  cases v <;> simp [readRegister]

@[simp] theorem readRegister_error (v : Option Word) (c : FaultCode) :
    readRegister v = .error c ↔ v = none ∧ c = .illegalCommand := by
  cases v <;> simp [readRegister, @eq_comm _ c]

@[simp] theorem livePi_ok (s : State) (inst : BitVec 8) (r : PiRegs) :
    livePi s inst = .ok r ↔
      inst.toNat < s.params.nPi ∧ (s.piAt inst.toNat).init = true ∧ s.piAt inst.toNat = r := by
  simp [livePi, pure, Except.pure]

@[simp] theorem liveOsc_ok (s : State) (inst : BitVec 8) (r : OscRegs) :
    liveOsc s inst = .ok r ↔
      inst.toNat < s.params.nOsc ∧ (s.oscAt inst.toNat).init = true ∧ s.oscAt inst.toNat = r := by
  simp [liveOsc, pure, Except.pure]

@[simp] theorem liveWin_ok (s : State) (inst : BitVec 8) (r : WinRegs) :
    liveWin s inst = .ok r ↔
      inst.toNat < s.params.nWin ∧ (s.winAt inst.toNat).init = true ∧ s.winAt inst.toNat = r := by
  simp [liveWin, pure, Except.pure]

@[simp] theorem liveEnv_ok (s : State) (inst : BitVec 8) (r : EnvRegs) :
    liveEnv s inst = .ok r ↔
      inst.toNat < s.params.nEnv ∧ (s.envAt inst.toNat).init = true ∧ s.envAt inst.toNat = r := by
  simp [liveEnv, pure, Except.pure]

@[simp] theorem livePi_error (s : State) (inst : BitVec 8) (c : FaultCode) :
    livePi s inst = .error c ↔
      (s.params.nPi ≤ inst.toNat ∧ c = .badInstance)
        ∨ (inst.toNat < s.params.nPi ∧ (s.piAt inst.toNat).init = false ∧ c = .uninitialised) := by
  simp [livePi, pure, Except.pure]

@[simp] theorem liveOsc_error (s : State) (inst : BitVec 8) (c : FaultCode) :
    liveOsc s inst = .error c ↔
      (s.params.nOsc ≤ inst.toNat ∧ c = .badInstance)
        ∨ (inst.toNat < s.params.nOsc ∧ (s.oscAt inst.toNat).init = false ∧ c = .uninitialised) := by
  simp [liveOsc, pure, Except.pure]

@[simp] theorem liveWin_error (s : State) (inst : BitVec 8) (c : FaultCode) :
    liveWin s inst = .error c ↔
      (s.params.nWin ≤ inst.toNat ∧ c = .badInstance)
        ∨ (inst.toNat < s.params.nWin ∧ (s.winAt inst.toNat).init = false ∧ c = .uninitialised) := by
  simp [liveWin, pure, Except.pure]

@[simp] theorem liveEnv_error (s : State) (inst : BitVec 8) (c : FaultCode) :
    liveEnv s inst = .error c ↔
      (s.params.nEnv ≤ inst.toNat ∧ c = .badInstance)
        ∨ (inst.toNat < s.params.nEnv ∧ (s.envAt inst.toNat).init = false ∧ c = .uninitialised) := by
  simp [liveEnv, pure, Except.pure]

/-- What a step can do: nothing, a decoded command's meaning, a rejection, or a reset. -/
theorem step_cases (s : State) :
    (s.inbox = [] ∧ step s = .next s)
      ∨ (∃ t rest i, s.inbox = .transaction t :: rest ∧ decode t = .ok i
          ∧ step s = exec i { s with inbox := rest })
      ∨ (∃ t rest e, s.inbox = .transaction t :: rest ∧ decode t = .error e
          ∧ step s = .next (rejectTransaction e t.cmd { s with inbox := rest }))
      ∨ (∃ c rest, s.inbox = .reset c :: rest ∧ step s = .next (applyReset { s with inbox := rest })) := by
  cases h : s.inbox with
  | nil => exact .inl ⟨rfl, by simp [step, h]⟩
  | cons ev rest =>
    cases ev with
    | transaction t =>
      cases hd : decode t with
      | ok i => exact .inr (.inl ⟨t, rest, i, rfl, hd, by simp [step, h, performTransaction, hd]⟩)
      | error e => exact .inr (.inr (.inl ⟨t, rest, e, rfl, hd, by simp [step, h, performTransaction, hd]⟩))
    | reset c => exact .inr (.inr (.inr ⟨c, rest, rfl, by simp [step, h]⟩))

end Sys2Proof.Machine
end

