-- ==== Sys2Proof/Laws/Exec.lean ====
section
/-! SUPPORT. What a command can do, said once for all commands: it is refused, it faults, or it runs and writes at
most its own instance and the result words. -/

namespace Sys2Proof.Machine

/-- `t` is `s` after the command `i` ran to its own effect: its result words, and at most its own instance written,
constructed before or by it. -/
def RanTo (i : Instr) (s t : State) : Prop :=
  ∃ ws : List Word, ws.length = (opcodeRow i.opcode).nRes ∧
    (t = s.withResult ws
      ∨ (∃ r, instrUnit i = 1 ∧ (instrInst i).toNat < s.params.nPi ∧ r.init = true
          ∧ (isConstruct i = true ∨ (s.piAt (instrInst i).toNat).init = true)
          ∧ t = (s.setPi (instrInst i).toNat r).withResult ws)
      ∨ (∃ r, instrUnit i = 2 ∧ (instrInst i).toNat < s.params.nOsc ∧ r.init = true
          ∧ (isConstruct i = true ∨ (s.oscAt (instrInst i).toNat).init = true)
          ∧ t = (s.setOsc (instrInst i).toNat r).withResult ws)
      ∨ (∃ r, instrUnit i = 3 ∧ (instrInst i).toNat < s.params.nWin ∧ r.init = true
          ∧ (isConstruct i = true ∨ (s.winAt (instrInst i).toNat).init = true)
          ∧ t = (s.setWin (instrInst i).toNat r).withResult ws)
      ∨ (∃ r, instrUnit i = 4 ∧ (instrInst i).toNat < s.params.nEnv ∧ r.init = true
          ∧ (isConstruct i = true ∨ (s.envAt (instrInst i).toNat).init = true)
          ∧ t = (s.setEnv (instrInst i).toNat r).withResult ws))

@[simp] theorem except_pure_ok {ε α : Type} (a b : α) : (pure a : Except ε α) = .ok b ↔ a = b := by
  simp [pure, Except.pure]

@[simp] theorem except_pure_error {ε α : Type} (a : α) (e : ε) : (pure a : Except ε α) ≠ .error e := by
  simp [pure, Except.pure]

/-- A tick leaves the `INIT` bit. -/
@[simp] theorem envAdvance_init (r : EnvRegs) : (envAdvance r).init = r.init := by
  cases h : r.state <;>
    simp only [envAdvance, h, tickAttack, tickDecay, tickSustain, tickLegato, tickRelease, tickNoteRelease] <;>
    (repeat' split) <;> rfl

theorem fracToPhase_error {x : ExactValue} {c : FaultCode} (h : fracToPhase x = .error c) :
    c = .negativeFraction := by
  unfold fracToPhase at h
  split at h
  · simpa using h.symm
  · split at h <;> simp_all
  · split at h <;> simp_all

theorem freqToPhase_error {f sps : Word} {c : FaultCode} (h : freqToPhase f sps = .error c) : c ≠ .none := by
  simp only [freqToPhase, except_bind_error, checkFrequency_error, checkRate_error, except_pure_error, and_false,
    exists_false, or_false] at h
  rcases h with ⟨_, rfl⟩ | ⟨_, _, _, rfl⟩ <;> simp

theorem oscCoef_error {f sps : Word} {c : FaultCode} (h : oscCoef f sps = .error c) : c ≠ .none := by
  simp only [oscCoef, except_bind_error, checkFrequency_error, checkRate_error, except_pure_error, and_false,
    exists_false, or_false] at h
  rcases h with ⟨_, rfl⟩ | ⟨_, _, _, rfl⟩ <;> simp

theorem winCoef_error {width sps : Word} {c : FaultCode} (h : winCoef width sps = .error c) : c ≠ .none := by
  simp only [winCoef, except_bind_error] at h
  rcases h with h | ⟨_, _, h | ⟨_, _, h | ⟨_, _, h | ⟨_, _, h⟩⟩⟩⟩
  · rw [checkWidth_error] at h; rw [h.2]; simp
  · rw [checkRate_error] at h; rw [h.2]; simp
  · exact oscCoef_error h
  · exact oscCoef_error h
  · exact absurd h (except_pure_error _ _)

theorem envCoef_error {sec sps : Word} {c : FaultCode} (h : envCoef sec sps = .error c) : c ≠ .none := by
  simp only [envCoef, except_bind_error, checkDuration_error, checkRate_error, except_pure_error, and_false,
    exists_false, or_false] at h
  rcases h with ⟨_, rfl⟩ | ⟨_, _, _, rfl⟩ <;> simp

theorem checkLevel_error_ne {x : Word} {c : FaultCode} (h : checkLevel x = .error c) : c ≠ .none := by
  rw [checkLevel_error] at h; rw [h.2]; simp

/-- What `exec_performs` says of one command. -/
def Performs (i : Instr) (s : State) : Prop :=
  ∃ body : Except FaultCode State, exec i s = perform i s body
    ∧ (∀ t, body = .ok t → RanTo i s t) ∧ (∀ c, body = .error c → c ≠ .none)

/-- A command on a constructed `PI` instance performs. -/
theorem performs_livePi {i : Instr} {s : State} {inst : BitVec 8} {f : PiRegs → Except FaultCode State}
    (hu : instrUnit i = 1) (hi : instrInst i = inst) (he : exec i s = perform i s (livePi s inst >>= f))
    (hok : ∀ r t, f r = .ok t → ∃ ws : List Word, ws.length = (opcodeRow i.opcode).nRes ∧
      (t = s.withResult ws ∨ ∃ r', t = (s.setPi inst.toNat r').withResult ws ∧ r'.init = r.init))
    (herr : ∀ r c, f r = .error c → c ≠ .none) : Performs i s := by
  subst hi
  refine ⟨_, he, fun t h => ?_, fun c h => ?_⟩
  · obtain ⟨r, hr, h⟩ := (except_bind_ok _ _ _).1 h
    obtain ⟨hn, hinit, rfl⟩ := (livePi_ok _ _ _).1 hr
    obtain ⟨ws, hl, rfl | ⟨r', rfl, hr'⟩⟩ := hok _ _ h
    · exact ⟨ws, hl, .inl rfl⟩
    · exact ⟨ws, hl, .inr (.inl ⟨r', hu, hn, hr'.trans hinit, .inr hinit, rfl⟩)⟩
  · rcases (except_bind_error _ _ _).1 h with h | ⟨r, -, h⟩
    · rcases (livePi_error _ _ _).1 h with ⟨_, rfl⟩ | ⟨_, _, rfl⟩ <;> simp
    · exact herr r c h

/-- A construct command of `PI` performs. -/
theorem performs_newPi {i : Instr} {s : State} {inst : BitVec 8} {f : Unit → Except FaultCode State}
    (hu : instrUnit i = 1) (hi : instrInst i = inst) (hc : isConstruct i = true)
    (he : exec i s = perform i s (checkInst s.params.nPi inst >>= f))
    (hok : ∀ u t, f u = .ok t → ∃ (ws : List Word) (r : PiRegs), ws.length = (opcodeRow i.opcode).nRes
      ∧ t = (s.setPi inst.toNat r).withResult ws ∧ r.init = true)
    (herr : ∀ u c, f u = .error c → c ≠ .none) : Performs i s := by
  subst hi
  refine ⟨_, he, fun t h => ?_, fun c h => ?_⟩
  · obtain ⟨u, hn, h⟩ := (except_bind_ok _ _ _).1 h
    obtain ⟨ws, r, hl, rfl, hr⟩ := hok _ _ h
    exact ⟨ws, hl, .inr (.inl ⟨r, hu, (checkInst_ok _ _ _).1 hn, hr, .inl hc, rfl⟩)⟩
  · rcases (except_bind_error _ _ _).1 h with h | ⟨r, -, h⟩
    · rw [checkInst_error] at h; rw [h.2]; simp
    · exact herr r c h

/-- The readback command of `PI` performs. -/
theorem performs_rdPi {i : Instr} {s : State} {inst reg : BitVec 8} {k : Opcode}
    {g : PiRegs → Option Word} (hn : (opcodeRow i.opcode).nRes = 1)
    (he : exec i s = perform i s (do
      checkReg k reg
      let r ← livePi s inst
      let v ← readRegister (g r)
      return s.withResult [v])) : Performs i s := by
  refine ⟨_, he, fun t h => ?_, fun c h => ?_⟩
  · obtain ⟨_, -, h⟩ := (except_bind_ok _ _ _).1 h
    obtain ⟨_, -, h⟩ := (except_bind_ok _ _ _).1 h
    obtain ⟨v, -, h⟩ := (except_bind_ok _ _ _).1 h
    exact ⟨[v], hn.symm, .inl ((except_pure_ok _ _).1 h).symm⟩
  · rcases (except_bind_error _ _ _).1 h with h | ⟨_, -, h⟩
    · rw [checkReg_error] at h; rw [h.2]; simp
    rcases (except_bind_error _ _ _).1 h with h | ⟨_, -, h⟩
    · rcases (livePi_error _ _ _).1 h with ⟨_, rfl⟩ | ⟨_, _, rfl⟩ <;> simp
    rcases (except_bind_error _ _ _).1 h with h | ⟨_, -, h⟩
    · rw [readRegister_error] at h; rw [h.2]; simp
    · exact absurd h (except_pure_error _ _)

/-- A command on a constructed `OSC` instance performs. -/
theorem performs_liveOsc {i : Instr} {s : State} {inst : BitVec 8} {f : OscRegs → Except FaultCode State}
    (hu : instrUnit i = 2) (hi : instrInst i = inst) (he : exec i s = perform i s (liveOsc s inst >>= f))
    (hok : ∀ r t, f r = .ok t → ∃ ws : List Word, ws.length = (opcodeRow i.opcode).nRes ∧
      (t = s.withResult ws ∨ ∃ r', t = (s.setOsc inst.toNat r').withResult ws ∧ r'.init = r.init))
    (herr : ∀ r c, f r = .error c → c ≠ .none) : Performs i s := by
  subst hi
  refine ⟨_, he, fun t h => ?_, fun c h => ?_⟩
  · obtain ⟨r, hr, h⟩ := (except_bind_ok _ _ _).1 h
    obtain ⟨hn, hinit, rfl⟩ := (liveOsc_ok _ _ _).1 hr
    obtain ⟨ws, hl, rfl | ⟨r', rfl, hr'⟩⟩ := hok _ _ h
    · exact ⟨ws, hl, .inl rfl⟩
    · exact ⟨ws, hl, .inr (.inr (.inl ⟨r', hu, hn, hr'.trans hinit, .inr hinit, rfl⟩))⟩
  · rcases (except_bind_error _ _ _).1 h with h | ⟨r, -, h⟩
    · rcases (liveOsc_error _ _ _).1 h with ⟨_, rfl⟩ | ⟨_, _, rfl⟩ <;> simp
    · exact herr r c h

/-- A construct command of `OSC` performs. -/
theorem performs_newOsc {i : Instr} {s : State} {inst : BitVec 8} {f : Unit → Except FaultCode State}
    (hu : instrUnit i = 2) (hi : instrInst i = inst) (hc : isConstruct i = true)
    (he : exec i s = perform i s (checkInst s.params.nOsc inst >>= f))
    (hok : ∀ u t, f u = .ok t → ∃ (ws : List Word) (r : OscRegs), ws.length = (opcodeRow i.opcode).nRes
      ∧ t = (s.setOsc inst.toNat r).withResult ws ∧ r.init = true)
    (herr : ∀ u c, f u = .error c → c ≠ .none) : Performs i s := by
  subst hi
  refine ⟨_, he, fun t h => ?_, fun c h => ?_⟩
  · obtain ⟨u, hn, h⟩ := (except_bind_ok _ _ _).1 h
    obtain ⟨ws, r, hl, rfl, hr⟩ := hok _ _ h
    exact ⟨ws, hl, .inr (.inr (.inl ⟨r, hu, (checkInst_ok _ _ _).1 hn, hr, .inl hc, rfl⟩))⟩
  · rcases (except_bind_error _ _ _).1 h with h | ⟨r, -, h⟩
    · rw [checkInst_error] at h; rw [h.2]; simp
    · exact herr r c h

/-- The readback command of `OSC` performs. -/
theorem performs_rdOsc {i : Instr} {s : State} {inst reg : BitVec 8} {k : Opcode}
    {g : OscRegs → Option Word} (hn : (opcodeRow i.opcode).nRes = 1)
    (he : exec i s = perform i s (do
      checkReg k reg
      let r ← liveOsc s inst
      let v ← readRegister (g r)
      return s.withResult [v])) : Performs i s := by
  refine ⟨_, he, fun t h => ?_, fun c h => ?_⟩
  · obtain ⟨_, -, h⟩ := (except_bind_ok _ _ _).1 h
    obtain ⟨_, -, h⟩ := (except_bind_ok _ _ _).1 h
    obtain ⟨v, -, h⟩ := (except_bind_ok _ _ _).1 h
    exact ⟨[v], hn.symm, .inl ((except_pure_ok _ _).1 h).symm⟩
  · rcases (except_bind_error _ _ _).1 h with h | ⟨_, -, h⟩
    · rw [checkReg_error] at h; rw [h.2]; simp
    rcases (except_bind_error _ _ _).1 h with h | ⟨_, -, h⟩
    · rcases (liveOsc_error _ _ _).1 h with ⟨_, rfl⟩ | ⟨_, _, rfl⟩ <;> simp
    rcases (except_bind_error _ _ _).1 h with h | ⟨_, -, h⟩
    · rw [readRegister_error] at h; rw [h.2]; simp
    · exact absurd h (except_pure_error _ _)

/-- A command on a constructed `WIN` instance performs. -/
theorem performs_liveWin {i : Instr} {s : State} {inst : BitVec 8} {f : WinRegs → Except FaultCode State}
    (hu : instrUnit i = 3) (hi : instrInst i = inst) (he : exec i s = perform i s (liveWin s inst >>= f))
    (hok : ∀ r t, f r = .ok t → ∃ ws : List Word, ws.length = (opcodeRow i.opcode).nRes ∧
      (t = s.withResult ws ∨ ∃ r', t = (s.setWin inst.toNat r').withResult ws ∧ r'.init = r.init))
    (herr : ∀ r c, f r = .error c → c ≠ .none) : Performs i s := by
  subst hi
  refine ⟨_, he, fun t h => ?_, fun c h => ?_⟩
  · obtain ⟨r, hr, h⟩ := (except_bind_ok _ _ _).1 h
    obtain ⟨hn, hinit, rfl⟩ := (liveWin_ok _ _ _).1 hr
    obtain ⟨ws, hl, rfl | ⟨r', rfl, hr'⟩⟩ := hok _ _ h
    · exact ⟨ws, hl, .inl rfl⟩
    · exact ⟨ws, hl, .inr (.inr (.inr (.inl ⟨r', hu, hn, hr'.trans hinit, .inr hinit, rfl⟩)))⟩
  · rcases (except_bind_error _ _ _).1 h with h | ⟨r, -, h⟩
    · rcases (liveWin_error _ _ _).1 h with ⟨_, rfl⟩ | ⟨_, _, rfl⟩ <;> simp
    · exact herr r c h

/-- A construct command of `WIN` performs. -/
theorem performs_newWin {i : Instr} {s : State} {inst : BitVec 8} {f : Unit → Except FaultCode State}
    (hu : instrUnit i = 3) (hi : instrInst i = inst) (hc : isConstruct i = true)
    (he : exec i s = perform i s (checkInst s.params.nWin inst >>= f))
    (hok : ∀ u t, f u = .ok t → ∃ (ws : List Word) (r : WinRegs), ws.length = (opcodeRow i.opcode).nRes
      ∧ t = (s.setWin inst.toNat r).withResult ws ∧ r.init = true)
    (herr : ∀ u c, f u = .error c → c ≠ .none) : Performs i s := by
  subst hi
  refine ⟨_, he, fun t h => ?_, fun c h => ?_⟩
  · obtain ⟨u, hn, h⟩ := (except_bind_ok _ _ _).1 h
    obtain ⟨ws, r, hl, rfl, hr⟩ := hok _ _ h
    exact ⟨ws, hl, .inr (.inr (.inr (.inl ⟨r, hu, (checkInst_ok _ _ _).1 hn, hr, .inl hc, rfl⟩)))⟩
  · rcases (except_bind_error _ _ _).1 h with h | ⟨r, -, h⟩
    · rw [checkInst_error] at h; rw [h.2]; simp
    · exact herr r c h

/-- The readback command of `WIN` performs. -/
theorem performs_rdWin {i : Instr} {s : State} {inst reg : BitVec 8} {k : Opcode}
    {g : WinRegs → Option Word} (hn : (opcodeRow i.opcode).nRes = 1)
    (he : exec i s = perform i s (do
      checkReg k reg
      let r ← liveWin s inst
      let v ← readRegister (g r)
      return s.withResult [v])) : Performs i s := by
  refine ⟨_, he, fun t h => ?_, fun c h => ?_⟩
  · obtain ⟨_, -, h⟩ := (except_bind_ok _ _ _).1 h
    obtain ⟨_, -, h⟩ := (except_bind_ok _ _ _).1 h
    obtain ⟨v, -, h⟩ := (except_bind_ok _ _ _).1 h
    exact ⟨[v], hn.symm, .inl ((except_pure_ok _ _).1 h).symm⟩
  · rcases (except_bind_error _ _ _).1 h with h | ⟨_, -, h⟩
    · rw [checkReg_error] at h; rw [h.2]; simp
    rcases (except_bind_error _ _ _).1 h with h | ⟨_, -, h⟩
    · rcases (liveWin_error _ _ _).1 h with ⟨_, rfl⟩ | ⟨_, _, rfl⟩ <;> simp
    rcases (except_bind_error _ _ _).1 h with h | ⟨_, -, h⟩
    · rw [readRegister_error] at h; rw [h.2]; simp
    · exact absurd h (except_pure_error _ _)

/-- A command on a constructed `ENV` instance performs. -/
theorem performs_liveEnv {i : Instr} {s : State} {inst : BitVec 8} {f : EnvRegs → Except FaultCode State}
    (hu : instrUnit i = 4) (hi : instrInst i = inst) (he : exec i s = perform i s (liveEnv s inst >>= f))
    (hok : ∀ r t, f r = .ok t → ∃ ws : List Word, ws.length = (opcodeRow i.opcode).nRes ∧
      (t = s.withResult ws ∨ ∃ r', t = (s.setEnv inst.toNat r').withResult ws ∧ r'.init = r.init))
    (herr : ∀ r c, f r = .error c → c ≠ .none) : Performs i s := by
  subst hi
  refine ⟨_, he, fun t h => ?_, fun c h => ?_⟩
  · obtain ⟨r, hr, h⟩ := (except_bind_ok _ _ _).1 h
    obtain ⟨hn, hinit, rfl⟩ := (liveEnv_ok _ _ _).1 hr
    obtain ⟨ws, hl, rfl | ⟨r', rfl, hr'⟩⟩ := hok _ _ h
    · exact ⟨ws, hl, .inl rfl⟩
    · exact ⟨ws, hl, .inr (.inr (.inr (.inr ⟨r', hu, hn, hr'.trans hinit, .inr hinit, rfl⟩)))⟩
  · rcases (except_bind_error _ _ _).1 h with h | ⟨r, -, h⟩
    · rcases (liveEnv_error _ _ _).1 h with ⟨_, rfl⟩ | ⟨_, _, rfl⟩ <;> simp
    · exact herr r c h

/-- A construct command of `ENV` performs. -/
theorem performs_newEnv {i : Instr} {s : State} {inst : BitVec 8} {f : Unit → Except FaultCode State}
    (hu : instrUnit i = 4) (hi : instrInst i = inst) (hc : isConstruct i = true)
    (he : exec i s = perform i s (checkInst s.params.nEnv inst >>= f))
    (hok : ∀ u t, f u = .ok t → ∃ (ws : List Word) (r : EnvRegs), ws.length = (opcodeRow i.opcode).nRes
      ∧ t = (s.setEnv inst.toNat r).withResult ws ∧ r.init = true)
    (herr : ∀ u c, f u = .error c → c ≠ .none) : Performs i s := by
  subst hi
  refine ⟨_, he, fun t h => ?_, fun c h => ?_⟩
  · obtain ⟨u, hn, h⟩ := (except_bind_ok _ _ _).1 h
    obtain ⟨ws, r, hl, rfl, hr⟩ := hok _ _ h
    exact ⟨ws, hl, .inr (.inr (.inr (.inr ⟨r, hu, (checkInst_ok _ _ _).1 hn, hr, .inl hc, rfl⟩)))⟩
  · rcases (except_bind_error _ _ _).1 h with h | ⟨r, -, h⟩
    · rw [checkInst_error] at h; rw [h.2]; simp
    · exact herr r c h

/-- The readback command of `ENV` performs. -/
theorem performs_rdEnv {i : Instr} {s : State} {inst reg : BitVec 8} {k : Opcode}
    {g : EnvRegs → Option Word} (hn : (opcodeRow i.opcode).nRes = 1)
    (he : exec i s = perform i s (do
      checkReg k reg
      let r ← liveEnv s inst
      let v ← readRegister (g r)
      return s.withResult [v])) : Performs i s := by
  refine ⟨_, he, fun t h => ?_, fun c h => ?_⟩
  · obtain ⟨_, -, h⟩ := (except_bind_ok _ _ _).1 h
    obtain ⟨_, -, h⟩ := (except_bind_ok _ _ _).1 h
    obtain ⟨v, -, h⟩ := (except_bind_ok _ _ _).1 h
    exact ⟨[v], hn.symm, .inl ((except_pure_ok _ _).1 h).symm⟩
  · rcases (except_bind_error _ _ _).1 h with h | ⟨_, -, h⟩
    · rw [checkReg_error] at h; rw [h.2]; simp
    rcases (except_bind_error _ _ _).1 h with h | ⟨_, -, h⟩
    · rcases (liveEnv_error _ _ _).1 h with ⟨_, rfl⟩ | ⟨_, _, rfl⟩ <;> simp
    rcases (except_bind_error _ _ _).1 h with h | ⟨_, -, h⟩
    · rw [readRegister_error] at h; rw [h.2]; simp
    · exact absurd h (except_pure_error _ _)

/-- The errors of a body that derives a value and then writes are the derivation's. -/
theorem bind_error_ne {α β : Type} {x : Except FaultCode α} {f : α → β} {c : FaultCode}
    (h : (x >>= fun a => pure (f a)) = .error c) (hx : ∀ c, x = .error c → c ≠ .none) : c ≠ .none := by
  rcases (except_bind_error _ _ _).1 h with h | ⟨_, -, h⟩
  · exact hx c h
  · exact absurd h (except_pure_error _ _)

/-- A command's answer: the status, or a performance whose body, where it answers a state, ran to the command's own
effect, and whose errors are fault codes other than `NONE`. -/
theorem exec_performs (i : Instr) (s : State) :
    (i = .sysStatus ∧ exec i s = .next (s.withResult [statusWord s.faulted s.fcode, s.fcmd])) ∨ Performs i s := by
  cases i with
  | sysStatus => exact .inl ⟨rfl, rfl⟩
  | sysNop =>
    exact .inr ⟨.ok (s.withResult []), rfl, fun t h => ⟨[], rfl, .inl (Except.ok.inj h).symm⟩, fun c h => nomatch h⟩
  | sysPhaseFrac32 x =>
    refine .inr ⟨_, rfl, fun t h => ?_, fun c h => bind_error_ne h fun c h => by rw [fracToPhase_error h]; simp⟩
    obtain ⟨p, -, h⟩ := (except_bind_ok _ _ _).1 h
    exact ⟨[p], rfl, .inl ((except_pure_ok _ _).1 h).symm⟩
  | sysPhaseFrac64 lo hi =>
    refine .inr ⟨_, rfl, fun t h => ?_, fun c h => bind_error_ne h fun c h => by rw [fracToPhase_error h]; simp⟩
    obtain ⟨p, -, h⟩ := (except_bind_ok _ _ _).1 h
    exact ⟨[p], rfl, .inl ((except_pure_ok _ _).1 h).symm⟩
  | sysPhaseFreq f sps =>
    refine .inr ⟨_, rfl, fun t h => ?_, fun c h => bind_error_ne h fun c h => freqToPhase_error h⟩
    obtain ⟨p, -, h⟩ := (except_bind_ok _ _ _).1 h
    exact ⟨[p], rfl, .inl ((except_pure_ok _ _).1 h).symm⟩
  | piInit inst mode f sps =>
    refine .inr (performs_newPi rfl rfl rfl rfl ?_ ?_)
    · intro _ t h
      obtain ⟨a, -, h⟩ := (except_bind_ok _ _ _).1 h
      exact ⟨[], _, rfl, ((except_pure_ok _ _).1 h).symm, rfl⟩
    · exact fun _ c h => bind_error_ne h fun c h => freqToPhase_error h
  | piLoad inst mode f sps =>
    refine .inr (performs_newPi rfl rfl rfl rfl ?_ ?_)
    · exact fun _ t h => ⟨[], _, rfl, ((except_pure_ok _ _).1 h).symm, rfl⟩
    · exact fun _ c h => absurd h (except_pure_error _ _)
  | oscInit inst f sps =>
    refine .inr (performs_newOsc rfl rfl rfl rfl ?_ ?_)
    · intro _ t h
      obtain ⟨a, -, h⟩ := (except_bind_ok _ _ _).1 h
      exact ⟨[], _, rfl, ((except_pure_ok _ _).1 h).symm, rfl⟩
    · exact fun _ c h => bind_error_ne h fun c h => oscCoef_error h
  | winInit inst f sps =>
    refine .inr (performs_newWin rfl rfl rfl rfl ?_ ?_)
    · intro _ t h
      obtain ⟨a, -, h⟩ := (except_bind_ok _ _ _).1 h
      exact ⟨[], _, rfl, ((except_pure_ok _ _).1 h).symm, rfl⟩
    · exact fun _ c h => bind_error_ne h fun c h => winCoef_error h
  | envInit inst attack decay slevel srate release sps =>
    refine .inr (performs_newEnv rfl rfl rfl rfl ?_ ?_)
    · intro _ t h
      obtain ⟨_, -, h⟩ := (except_bind_ok _ _ _).1 h
      obtain ⟨_, -, h⟩ := (except_bind_ok _ _ _).1 h
      obtain ⟨_, -, h⟩ := (except_bind_ok _ _ _).1 h
      obtain ⟨_, -, h⟩ := (except_bind_ok _ _ _).1 h
      obtain ⟨_, -, h⟩ := (except_bind_ok _ _ _).1 h
      obtain ⟨_, -, h⟩ := (except_bind_ok _ _ _).1 h
      exact ⟨[], _, rfl, ((except_pure_ok _ _).1 h).symm, rfl⟩
    · intro _ c h
      simp only [except_bind_error, checkDuration_error, checkLevel_error, checkRate_error, except_pure_error,
        and_false, exists_false, or_false] at h
      rcases h with ⟨_, rfl⟩ | ⟨_, _, ⟨_, rfl⟩ | ⟨_, _, ⟨_, rfl⟩ | ⟨_, _, ⟨_, rfl⟩ | ⟨_, _, ⟨_, rfl⟩ | ⟨_, _, _, rfl⟩⟩⟩⟩⟩ <;> simp
  | piInc inst =>
    refine .inr (performs_livePi rfl rfl rfl ?_ ?_)
    · exact fun r t h => ⟨[_], rfl, .inr ⟨_, ((except_pure_ok _ _).1 h).symm, rfl⟩⟩
    · exact fun _ c h => absurd h (except_pure_error _ _)
  | piDec inst =>
    refine .inr (performs_livePi rfl rfl rfl ?_ ?_)
    · exact fun r t h => ⟨[_], rfl, .inr ⟨_, ((except_pure_ok _ _).1 h).symm, rfl⟩⟩
    · exact fun _ c h => absurd h (except_pure_error _ _)
  | piFirst inst =>
    refine .inr (performs_livePi rfl rfl rfl ?_ ?_)
    · exact fun r t h => ⟨[_], rfl, .inl ((except_pure_ok _ _).1 h).symm⟩
    · exact fun _ c h => absurd h (except_pure_error _ _)
  | piLast inst =>
    refine .inr (performs_livePi rfl rfl rfl ?_ ?_)
    · exact fun r t h => ⟨[_], rfl, .inl ((except_pure_ok _ _).1 h).symm⟩
    · exact fun _ c h => absurd h (except_pure_error _ _)
  | piRd inst reg => exact .inr (performs_rdPi rfl rfl)
  | oscConfig inst f sps =>
    refine .inr (performs_liveOsc rfl rfl rfl ?_ ?_)
    · intro r t h
      obtain ⟨a, -, h⟩ := (except_bind_ok _ _ _).1 h
      exact ⟨[], rfl, .inr ⟨_, ((except_pure_ok _ _).1 h).symm, rfl⟩⟩
    · exact fun _ c h => bind_error_ne h fun c h => oscCoef_error h
  | oscTick inst =>
    refine .inr (performs_liveOsc rfl rfl rfl ?_ ?_)
    · exact fun r t h => ⟨[_, _], rfl, .inr ⟨_, ((except_pure_ok _ _).1 h).symm, rfl⟩⟩
    · exact fun _ c h => absurd h (except_pure_error _ _)
  | oscRd inst reg => exact .inr (performs_rdOsc rfl rfl)
  | winConfig inst f sps =>
    refine .inr (performs_liveWin rfl rfl rfl ?_ ?_)
    · intro r t h
      obtain ⟨a, -, h⟩ := (except_bind_ok _ _ _).1 h
      exact ⟨[], rfl, .inr ⟨_, ((except_pure_ok _ _).1 h).symm, rfl⟩⟩
    · exact fun _ c h => bind_error_ne h fun c h => winCoef_error h
  | winTick inst =>
    refine .inr (performs_liveWin rfl rfl rfl ?_ ?_)
    · exact fun r t h => ⟨[_], rfl, .inr ⟨_, ((except_pure_ok _ _).1 h).symm, rfl⟩⟩
    · exact fun _ c h => absurd h (except_pure_error _ _)
  | winRd inst reg => exact .inr (performs_rdWin rfl rfl)
  | envTick inst =>
    refine .inr (performs_liveEnv rfl rfl rfl ?_ ?_)
    · exact fun r t h => ⟨[_], rfl, .inr ⟨_, ((except_pure_ok _ _).1 h).symm, envAdvance_init r⟩⟩
    · exact fun _ c h => absurd h (except_pure_error _ _)
  | envTrigger inst ad level =>
    refine .inr (performs_liveEnv rfl rfl rfl ?_ ?_)
    · intro r t h
      obtain ⟨a, -, h⟩ := (except_bind_ok _ _ _).1 h
      split at h
      · exact ⟨[], rfl, .inr ⟨_, ((except_pure_ok _ _).1 h).symm, rfl⟩⟩
      · exact ⟨[], rfl, .inl ((except_pure_ok _ _).1 h).symm⟩
    · intro r c h
      rcases (except_bind_error _ _ _).1 h with h | ⟨_, -, h⟩
      · exact checkLevel_error_ne h
      · split at h <;> exact absurd h (except_pure_error _ _)
  | envLegato inst =>
    refine .inr (performs_liveEnv rfl rfl rfl ?_ ?_)
    · intro r t h
      split at h
      · exact ⟨[], rfl, .inr ⟨_, ((except_pure_ok _ _).1 h).symm, rfl⟩⟩
      · exact ⟨[], rfl, .inl ((except_pure_ok _ _).1 h).symm⟩
    · intro r c h
      split at h <;> exact absurd h (except_pure_error _ _)
  | envDecay inst =>
    refine .inr (performs_liveEnv rfl rfl rfl ?_ ?_)
    · exact fun r t h => ⟨[], rfl, .inr ⟨_, ((except_pure_ok _ _).1 h).symm, rfl⟩⟩
    · exact fun _ c h => absurd h (except_pure_error _ _)
  | envRelease inst =>
    refine .inr (performs_liveEnv rfl rfl rfl ?_ ?_)
    · intro r t h
      split at h
      · exact ⟨[], rfl, .inl ((except_pure_ok _ _).1 h).symm⟩
      · exact ⟨[], rfl, .inr ⟨_, ((except_pure_ok _ _).1 h).symm, rfl⟩⟩
    · intro r c h
      split at h <;> exact absurd h (except_pure_error _ _)
  | envState inst =>
    refine .inr (performs_liveEnv rfl rfl rfl ?_ ?_)
    · exact fun r t h => ⟨[_], rfl, .inl ((except_pure_ok _ _).1 h).symm⟩
    · exact fun _ c h => absurd h (except_pure_error _ _)
  | envSetAttack inst sec sps =>
    refine .inr (performs_liveEnv rfl rfl rfl ?_ ?_)
    · intro r t h
      obtain ⟨a, -, h⟩ := (except_bind_ok _ _ _).1 h
      exact ⟨[], rfl, .inr ⟨_, ((except_pure_ok _ _).1 h).symm, rfl⟩⟩
    · exact fun _ c h => bind_error_ne h fun c h => envCoef_error h
  | envSetDecay inst sec sps =>
    refine .inr (performs_liveEnv rfl rfl rfl ?_ ?_)
    · intro r t h
      obtain ⟨a, -, h⟩ := (except_bind_ok _ _ _).1 h
      exact ⟨[], rfl, .inr ⟨_, ((except_pure_ok _ _).1 h).symm, rfl⟩⟩
    · exact fun _ c h => bind_error_ne h fun c h => envCoef_error h
  | envSetSlevel inst gain =>
    refine .inr (performs_liveEnv rfl rfl rfl ?_ ?_)
    · intro r t h
      obtain ⟨a, -, h⟩ := (except_bind_ok _ _ _).1 h
      exact ⟨[], rfl, .inr ⟨_, ((except_pure_ok _ _).1 h).symm, rfl⟩⟩
    · exact fun _ c h => bind_error_ne h fun c h => checkLevel_error_ne h
  | envSetSrate inst sec sps =>
    refine .inr (performs_liveEnv rfl rfl rfl ?_ ?_)
    · intro r t h
      obtain ⟨a, -, h⟩ := (except_bind_ok _ _ _).1 h
      exact ⟨[], rfl, .inr ⟨_, ((except_pure_ok _ _).1 h).symm, rfl⟩⟩
    · exact fun _ c h => bind_error_ne h fun c h => envCoef_error h
  | envSetRelease inst sec sps =>
    refine .inr (performs_liveEnv rfl rfl rfl ?_ ?_)
    · intro r t h
      obtain ⟨a, -, h⟩ := (except_bind_ok _ _ _).1 h
      exact ⟨[], rfl, .inr ⟨_, ((except_pure_ok _ _).1 h).symm, rfl⟩⟩
    · exact fun _ c h => bind_error_ne h fun c h => envCoef_error h
  | envNoteOffLevel inst level =>
    refine .inr (performs_liveEnv rfl rfl rfl ?_ ?_)
    · intro r t h
      obtain ⟨a, -, h⟩ := (except_bind_ok _ _ _).1 h
      split at h
      · exact ⟨[], rfl, .inr ⟨_, ((except_pure_ok _ _).1 h).symm, rfl⟩⟩
      · exact ⟨[], rfl, .inl ((except_pure_ok _ _).1 h).symm⟩
    · intro r c h
      rcases (except_bind_error _ _ _).1 h with h | ⟨_, -, h⟩
      · exact checkLevel_error_ne h
      · split at h <;> exact absurd h (except_pure_error _ _)
  | envRd inst reg => exact .inr (performs_rdEnv rfl rfl)

/-- What a command can do: return the status, be refused, fault, or run to its own effect. -/
theorem exec_next_cases {i : Instr} {s t : State} (h : exec i s = .next t) :
    (i = .sysStatus ∧ t = s.withResult [statusWord s.faulted s.fcode, s.fcmd])
      ∨ (i ≠ .sysStatus ∧ s.faulted = true ∧ t = refuseCommand s)
      ∨ (s.faulted = false ∧ ∃ c, c ≠ .none ∧ t = takeFault c (cmdWord i) s)
      ∨ (s.faulted = false ∧ RanTo i s t) := by
  rcases exec_performs i s with ⟨rfl, he⟩ | ⟨body, he, hok, herr⟩
  · rw [he] at h
    exact .inl ⟨rfl, (Host.Outcome.next.inj h).symm⟩
  · by_cases hs : i = .sysStatus
    · subst hs
      exact .inl ⟨rfl, (Host.Outcome.next.inj h).symm⟩
    rw [he] at h
    rcases perform_cases i s body with ⟨hf, hp⟩ | ⟨hf, u, hb, hp⟩ | ⟨hf, c, hb, hp⟩ <;> rw [hp] at h <;>
      obtain rfl := Host.Outcome.next.inj h
    · exact .inr (.inl ⟨hs, hf, rfl⟩)
    · exact .inr (.inr (.inr ⟨hf, hok _ hb⟩))
    · exact .inr (.inr (.inl ⟨hf, c, herr _ hb, rfl⟩))

end Sys2Proof.Machine
end

