-- ==== Sys2Proof/Laws/Operands.lean ====
section
/-! SUPPORT. What the arithmetic operations answer, said once each: rounding to an integer (00_scope.md R15), the
zeros of a binary32 pattern, the converters (40_phase.md R120, R123), and an advance of an iterator and of an
envelope. -/

namespace Sys2Proof.Machine

theorem phaseMax_toNat : phaseMax.toNat = 4294967295 := rfl

theorem phaseMax_sub_toNat (x : Word) : (phaseMax - x).toNat = 4294967295 - x.toNat := by
  have h := x.isLt
  rw [BitVec.toNat_sub_of_le, phaseMax_toNat]
  rw [BitVec.le_def, phaseMax_toNat]; omega

/-- `RNI` is the nearest integer, the even one at a tie (R15). -/
theorem roundNearestEven_isNearest (num den : Nat) (h : 0 < den) : IsNearestEven (roundNearestEven num den) num den := by
  have h1 := Nat.div_add_mod num den
  have h2 := Nat.mod_lt num h
  unfold IsNearestEven roundNearestEven
  generalize hq : num / den = q at *
  generalize hr : num % den = r at *
  have h3 : (num : Int) = den * q + r := by exact_mod_cast h1.symm
  split
  · rename_i hc
    have : ((q + 1 : Nat) : Int) * den - num = den - r := by rw [h3]; push_cast; ring
    rw [this]
    constructor
    · omega
    · intro he; omega
  · rename_i hc
    have : ((q : Nat) : Int) * den - num = - r := by rw [h3]; ring
    rw [this]
    constructor
    · omega
    · intro he; omega

/-- The nearest integer of the opposite number. -/
theorem isNearestEven_neg {v : Int} {num : Int} {den : Nat} (h : IsNearestEven v num den) : IsNearestEven (-v) (-num) den := by
  unfold IsNearestEven at *
  have : (-v * den - -num) = -(v * den - num) := by ring
  rw [this, Int.natAbs_neg]
  omega

/-- The exponent and fraction fields are both 0 exactly for the two zeros. -/
theorem fields_zero_iff (x : Word) : (expField x = 0 ∧ fracField x = 0) ↔ fabs x = 0 := by
  constructor
  · intro hx
    apply BitVec.eq_of_getLsbD_eq
    intro i hi
    have h1 : ∀ j, j < 8 → x.getLsbD (23 + j) = false := by
      intro j hj
      have := congrArg (fun y : BitVec 8 => y.getLsbD j) (BitVec.eq_of_toNat_eq (y := 0#8) hx.1)
      simpa [hj] using this
    have h2 : ∀ j, j < 23 → x.getLsbD j = false := by
      intro j hj
      have := congrArg (fun y : BitVec 23 => y.getLsbD j) (BitVec.eq_of_toNat_eq (y := 0#23) hx.2)
      simpa [hj] using this
    simp only [fabs, BitVec.getLsbD_and]
    by_cases hi1 : i < 23
    · simp [h2 i hi1]
    · by_cases hi2 : i < 31
      · have := h1 (i - 23) (by omega)
        rw [show 23 + (i - 23) = i by omega] at this
        simp [this]
      · have : i = 31 := by omega
        subst this; simp
  · intro h
    have hb : ∀ i, i < 31 → x.getLsbD i = false := by
      intro i hi
      have := congrArg (fun y : Word => y.getLsbD i) h
      simp only [fabs, BitVec.getLsbD_and] at this
      have hm : (0x7FFFFFFF : Word).getLsbD i = true := by
        interval_cases i <;> rfl
      rw [hm, Bool.and_true] at this
      simpa using this
    constructor
    · have : x.extractLsb' 23 8 = 0#8 := by
        apply BitVec.eq_of_getLsbD_eq; intro i hi; simp [hb (23+i) (by omega)]
      rw [expField, this]; rfl
    · have : x.extractLsb' 0 23 = 0#23 := by
        apply BitVec.eq_of_getLsbD_eq; intro i hi; simp; intro; exact hb i (by omega)
      rw [fracField, this]; rfl

/-- The magnitude is 0 exactly for the two zeros. -/
theorem magUnits_zero_iff (x : Word) : magUnits x = 0 ↔ fabs x = 0 := by
  rw [← fields_zero_iff]
  unfold magUnits
  split
  · simp [*]
  · rename_i h
    have : 0 < (2^23 + fracField x) * 2^(expField x - 1) := by positivity
    constructor
    · intro; omega
    · intro h2; exact absurd h2.1 h

/-- A positive finite value has a positive magnitude. -/
theorem magUnits_pos {x : Word} (h : PositiveFinite x) : 0 < magUnits x := by
  obtain ⟨-, hg⟩ := h
  simp only [fgt, flt, Bool.and_eq_true, decide_eq_true_eq] at hg
  obtain ⟨-, hk⟩ := hg
  by_contra hm
  have hfab := (magUnits_zero_iff x).1 (by omega)
  simp [orderKey, hfab, zeroF] at hk
  revert hk
  simp [signBit, fabs]

/-- The phase increment of a frequency is the nearest integer to `f * 2^32 / sps`, modulo 2^32 (R123). -/
theorem freqToPhaseValue_isNearest (f sps : Word) (hp : PositiveFinite sps) :
    ∃ v : Int, IsNearestEven v (valueUnits f * 2 ^ 32) (magUnits sps)
      ∧ freqToPhaseValue f sps = BitVec.ofInt 32 v := by
  have h := roundNearestEven_isNearest (magUnits f * 2 ^ 32) (magUnits sps) (magUnits_pos hp)
  unfold freqToPhaseValue valueUnits
  cases hs : signBit f
  · refine ⟨_, ?_, (BitVec.ofInt_natCast 32 _).symm⟩
    rw [Nat.cast_mul] at h; exact h
  · refine ⟨-(roundNearestEven (magUnits f * 2 ^ 32) (magUnits sps) : Int), ?_, ?_⟩
    · have h2 := isNearestEven_neg h
      rw [Nat.cast_mul, ← neg_mul] at h2; exact h2
    · rw [if_pos rfl, BitVec.ofInt_neg, BitVec.ofInt_natCast]

/-- A finite non-negative fraction converts to the nearest phase, saturated at `PMAX` (R120). -/
theorem fracToPhase_fin {num den : Nat} {neg : Bool} (h : (neg && num != 0) = false) (hd : 0 < den) :
    ∃ p, fracToPhase (.fin neg num den) = .ok p
      ∧ ∃ v : Nat, IsNearestEven v (num * 2 ^ 32 : Nat) den ∧ p.toNat = min v (2 ^ 32 - 1) := by
  refine ⟨_, by simp only [fracToPhase, h]; rfl, roundNearestEven (num * 2 ^ 32) den,
    roundNearestEven_isNearest _ _ hd, ?_⟩
  rw [BitVec.toNat_ofNat, phaseMax_toNat]
  refine (Nat.mod_eq_of_lt ?_).trans rfl
  have := Nat.min_le_right (roundNearestEven (num * 2 ^ 32) den) 4294967295
  omega

/-- The phase after an increment (R127). -/
theorem phaseInc_toNat (r : PiRegs) : (phaseInc r).toNat =
    if r.mode = .wrap then (r.phase.toNat + r.step.toNat) % 2 ^ 32
    else min (r.phase.toNat + r.step.toNat) (2 ^ 32 - 1) := by
  have := r.phase.isLt
  have := r.step.isLt
  cases hm : r.mode <;> simp [phaseInc, hm, phaseMax, BitVec.ult]
  split <;> simp at * <;> omega

/-- The phase after a decrement (R128). -/
theorem phaseDec_toNat (r : PiRegs) : ((phaseDec r).toNat : Int) =
    if r.mode = .wrap then (r.phase.toNat - r.step.toNat : Int) % 2 ^ 32
    else max (r.phase.toNat - r.step.toNat : Int) 0 := by
  have := r.phase.isLt
  have := r.step.isLt
  cases hm : r.mode <;> simp [phaseDec, hm, BitVec.ult, BitVec.toNat_sub]
  · omega
  · split <;> simp [BitVec.toNat_sub] at * <;> omega

/-- An advance of an envelope writes `STATE`, `Y` and `SSL` alone (R232 law 4). -/
theorem envAdvance_frame (r : EnvRegs) :
    envAdvance r = { r with state := (envAdvance r).state, y := (envAdvance r).y, ssl := (envAdvance r).ssl } := by
  cases hs : r.state <;>
    simp only [envAdvance, hs, tickAttack, tickDecay, tickSustain, tickLegato, tickRelease, tickNoteRelease] <;>
    (repeat' split) <;> (cases r; simp_all)

end Sys2Proof.Machine
end

