-- ==== Sys2Proof/Laws/PerInstr.lean ====
section
/-! SUPPORT. What holds of every command as syntax, one lemma per constructor. -/

namespace Sys2Proof.Laws

/-- The encoding of a command has the shape R90 gives its opcode: UNIT and OP are its row's, the reserved bits are
0 (30_encoding.md R86), and it has `n_ops` operand words (R80). -/
def EncodingShape.Statement (i : Instr) : Prop :=
  (cmdFields (cmdWord i)).unit = (opcodeRow i.opcode).unit
    ∧ (cmdFields (cmdWord i)).op = (opcodeRow i.opcode).op
    ∧ (cmdFields (cmdWord i)).reserved = 0
    ∧ (instrOps i).length = (opcodeRow i.opcode).nOps

theorem EncodingShape.sysNop : EncodingShape.Statement .sysNop := by
  simp [EncodingShape.Statement, cmdWord, instrFields, fieldsWith, instrOps, Instr.opcode, opcodeRow]

theorem EncodingShape.sysPhaseFrac32 (frac : Word) : EncodingShape.Statement (.sysPhaseFrac32 frac) := by
  simp [EncodingShape.Statement, cmdWord, instrFields, fieldsWith, instrOps, Instr.opcode, opcodeRow]

theorem EncodingShape.sysPhaseFrac64 (lo : Word) (hi : Word) : EncodingShape.Statement (.sysPhaseFrac64 lo hi) := by
  simp [EncodingShape.Statement, cmdWord, instrFields, fieldsWith, instrOps, Instr.opcode, opcodeRow]

theorem EncodingShape.sysPhaseFreq (f : Word) (sps : Word) : EncodingShape.Statement (.sysPhaseFreq f sps) := by
  simp [EncodingShape.Statement, cmdWord, instrFields, fieldsWith, instrOps, Instr.opcode, opcodeRow]

theorem EncodingShape.sysStatus : EncodingShape.Statement .sysStatus := by
  simp [EncodingShape.Statement, cmdWord, instrFields, fieldsWith, instrOps, Instr.opcode, opcodeRow]

theorem EncodingShape.piInit (inst : BitVec 8) (mode : PiMode) (f : Word) (sps : Word) : EncodingShape.Statement (.piInit inst mode f sps) := by
  simp [EncodingShape.Statement, cmdWord, instrFields, fieldsWith, instrOps, Instr.opcode, opcodeRow]

theorem EncodingShape.piLoad (inst : BitVec 8) (mode : PiMode) (phase : Word) (step : Word) : EncodingShape.Statement (.piLoad inst mode phase step) := by
  simp [EncodingShape.Statement, cmdWord, instrFields, fieldsWith, instrOps, Instr.opcode, opcodeRow]

theorem EncodingShape.piInc (inst : BitVec 8) : EncodingShape.Statement (.piInc inst) := by
  simp [EncodingShape.Statement, cmdWord, instrFields, fieldsWith, instrOps, Instr.opcode, opcodeRow]

theorem EncodingShape.piDec (inst : BitVec 8) : EncodingShape.Statement (.piDec inst) := by
  simp [EncodingShape.Statement, cmdWord, instrFields, fieldsWith, instrOps, Instr.opcode, opcodeRow]

theorem EncodingShape.piFirst (inst : BitVec 8) : EncodingShape.Statement (.piFirst inst) := by
  simp [EncodingShape.Statement, cmdWord, instrFields, fieldsWith, instrOps, Instr.opcode, opcodeRow]

theorem EncodingShape.piLast (inst : BitVec 8) : EncodingShape.Statement (.piLast inst) := by
  simp [EncodingShape.Statement, cmdWord, instrFields, fieldsWith, instrOps, Instr.opcode, opcodeRow]

theorem EncodingShape.piRd (inst : BitVec 8) (reg : BitVec 8) : EncodingShape.Statement (.piRd inst reg) := by
  simp [EncodingShape.Statement, cmdWord, instrFields, fieldsWith, instrOps, Instr.opcode, opcodeRow]

theorem EncodingShape.oscInit (inst : BitVec 8) (f : Word) (sps : Word) : EncodingShape.Statement (.oscInit inst f sps) := by
  simp [EncodingShape.Statement, cmdWord, instrFields, fieldsWith, instrOps, Instr.opcode, opcodeRow]

theorem EncodingShape.oscConfig (inst : BitVec 8) (f : Word) (sps : Word) : EncodingShape.Statement (.oscConfig inst f sps) := by
  simp [EncodingShape.Statement, cmdWord, instrFields, fieldsWith, instrOps, Instr.opcode, opcodeRow]

theorem EncodingShape.oscTick (inst : BitVec 8) : EncodingShape.Statement (.oscTick inst) := by
  simp [EncodingShape.Statement, cmdWord, instrFields, fieldsWith, instrOps, Instr.opcode, opcodeRow]

theorem EncodingShape.oscRd (inst : BitVec 8) (reg : BitVec 8) : EncodingShape.Statement (.oscRd inst reg) := by
  simp [EncodingShape.Statement, cmdWord, instrFields, fieldsWith, instrOps, Instr.opcode, opcodeRow]

theorem EncodingShape.winInit (inst : BitVec 8) (width : Word) (sps : Word) : EncodingShape.Statement (.winInit inst width sps) := by
  simp [EncodingShape.Statement, cmdWord, instrFields, fieldsWith, instrOps, Instr.opcode, opcodeRow]

theorem EncodingShape.winConfig (inst : BitVec 8) (width : Word) (sps : Word) : EncodingShape.Statement (.winConfig inst width sps) := by
  simp [EncodingShape.Statement, cmdWord, instrFields, fieldsWith, instrOps, Instr.opcode, opcodeRow]

theorem EncodingShape.winTick (inst : BitVec 8) : EncodingShape.Statement (.winTick inst) := by
  simp [EncodingShape.Statement, cmdWord, instrFields, fieldsWith, instrOps, Instr.opcode, opcodeRow]

theorem EncodingShape.winRd (inst : BitVec 8) (reg : BitVec 8) : EncodingShape.Statement (.winRd inst reg) := by
  simp [EncodingShape.Statement, cmdWord, instrFields, fieldsWith, instrOps, Instr.opcode, opcodeRow]

theorem EncodingShape.envInit (inst : BitVec 8) (attack : Word) (decay : Word) (slevel : Word) (srate : Word) (release : Word) (sps : Word) : EncodingShape.Statement (.envInit inst attack decay slevel srate release sps) := by
  simp [EncodingShape.Statement, cmdWord, instrFields, fieldsWith, instrOps, Instr.opcode, opcodeRow]

theorem EncodingShape.envTick (inst : BitVec 8) : EncodingShape.Statement (.envTick inst) := by
  simp [EncodingShape.Statement, cmdWord, instrFields, fieldsWith, instrOps, Instr.opcode, opcodeRow]

theorem EncodingShape.envTrigger (inst : BitVec 8) (ad : BitVec 2) (level : Word) : EncodingShape.Statement (.envTrigger inst ad level) := by
  simp [EncodingShape.Statement, cmdWord, instrFields, fieldsWith, instrOps, Instr.opcode, opcodeRow]

theorem EncodingShape.envLegato (inst : BitVec 8) : EncodingShape.Statement (.envLegato inst) := by
  simp [EncodingShape.Statement, cmdWord, instrFields, fieldsWith, instrOps, Instr.opcode, opcodeRow]

theorem EncodingShape.envDecay (inst : BitVec 8) : EncodingShape.Statement (.envDecay inst) := by
  simp [EncodingShape.Statement, cmdWord, instrFields, fieldsWith, instrOps, Instr.opcode, opcodeRow]

theorem EncodingShape.envRelease (inst : BitVec 8) : EncodingShape.Statement (.envRelease inst) := by
  simp [EncodingShape.Statement, cmdWord, instrFields, fieldsWith, instrOps, Instr.opcode, opcodeRow]

theorem EncodingShape.envState (inst : BitVec 8) : EncodingShape.Statement (.envState inst) := by
  simp [EncodingShape.Statement, cmdWord, instrFields, fieldsWith, instrOps, Instr.opcode, opcodeRow]

theorem EncodingShape.envSetAttack (inst : BitVec 8) (sec : Word) (sps : Word) : EncodingShape.Statement (.envSetAttack inst sec sps) := by
  simp [EncodingShape.Statement, cmdWord, instrFields, fieldsWith, instrOps, Instr.opcode, opcodeRow]

theorem EncodingShape.envSetDecay (inst : BitVec 8) (sec : Word) (sps : Word) : EncodingShape.Statement (.envSetDecay inst sec sps) := by
  simp [EncodingShape.Statement, cmdWord, instrFields, fieldsWith, instrOps, Instr.opcode, opcodeRow]

theorem EncodingShape.envSetSlevel (inst : BitVec 8) (gain : Word) : EncodingShape.Statement (.envSetSlevel inst gain) := by
  simp [EncodingShape.Statement, cmdWord, instrFields, fieldsWith, instrOps, Instr.opcode, opcodeRow]

theorem EncodingShape.envSetSrate (inst : BitVec 8) (sec : Word) (sps : Word) : EncodingShape.Statement (.envSetSrate inst sec sps) := by
  simp [EncodingShape.Statement, cmdWord, instrFields, fieldsWith, instrOps, Instr.opcode, opcodeRow]

theorem EncodingShape.envSetRelease (inst : BitVec 8) (sec : Word) (sps : Word) : EncodingShape.Statement (.envSetRelease inst sec sps) := by
  simp [EncodingShape.Statement, cmdWord, instrFields, fieldsWith, instrOps, Instr.opcode, opcodeRow]

theorem EncodingShape.envNoteOffLevel (inst : BitVec 8) (level : Word) : EncodingShape.Statement (.envNoteOffLevel inst level) := by
  simp [EncodingShape.Statement, cmdWord, instrFields, fieldsWith, instrOps, Instr.opcode, opcodeRow]

theorem EncodingShape.envRd (inst : BitVec 8) (reg : BitVec 8) : EncodingShape.Statement (.envRd inst reg) := by
  simp [EncodingShape.Statement, cmdWord, instrFields, fieldsWith, instrOps, Instr.opcode, opcodeRow]

end Sys2Proof.Laws
end

