-- ==== Sys2Proof/Laws/Ready.lean ====
section
/-! SUPPORT. The terms of Safety.lean against the operations: what a ready instance answers, what a command's checks
raise, and the frame of a write. -/

namespace Sys2Proof.Machine

theorem checkInst_missing {n : Nat} {inst : BitVec 8} (h : n ≤ inst.toNat) :
    checkInst n inst = .error .badInstance := by
  simp [h]

theorem checkInst_present {n : Nat} {inst : BitVec 8} (h : inst.toNat < n) : checkInst n inst = .ok () := by
  simp [h]

theorem checkRate_bad {x : Word} (h : ¬ PositiveFinite x) : checkRate x = .error .badSampleRate := by
  simp only [checkRate_error, and_true]; exact h

theorem checkRate_good {x : Word} (h : PositiveFinite x) : checkRate x = .ok () := by
  rw [checkRate_ok]; exact h

theorem checkDuration_bad {x : Word} (h : ¬ PositiveFinite x) : checkDuration x = .error .badDuration := by
  simp only [checkDuration_error, and_true]; exact h

theorem checkDuration_good {x : Word} (h : PositiveFinite x) : checkDuration x = .ok () := by
  rw [checkDuration_ok]; exact h

theorem checkWidth_bad {x : Word} (h : PositiveFinite x → isFinite (fdiv 0x40000000 x) = false) :
    checkWidth x = .error .badDuration := by
  rw [checkWidth_error]
  refine ⟨fun hw => ?_, rfl⟩
  have h2 : isFinite (fdiv twoF x) = false := h hw.1
  rw [hw.2] at h2
  cases h2

theorem checkWidth_good {x : Word} (h : PositiveFinite x) (h2 : isFinite (fdiv 0x40000000 x) = true) :
    checkWidth x = .ok () := by
  rw [checkWidth_ok]; exact ⟨h, h2⟩

theorem checkLevel_bad {x : Word} (h : isFinite x = false) : checkLevel x = .error .badLevel := by simp [h]

theorem checkLevel_good {x : Word} (h : isFinite x = true) : checkLevel x = .ok () := by simp [h]

theorem checkFrequency_bad {x : Word} (h : isFinite x = false) : checkFrequency x = .error .badFrequency := by
  simp [h]

theorem checkFrequency_good {x : Word} (h : isFinite x = true) : checkFrequency x = .ok () := by simp [h]

/-- A rejected transaction faults `ILLEGAL_COMMAND`, but for a wrong operand count (R88, R92, R281). -/
theorem decodeFault_eq (e : DecodeError) :
    decodeFault e = if e = .badLength then .badLength else .illegalCommand := by
  cases e <;> rfl

/-- The status word shows the flag and the number of the code (R262, R281). -/
theorem statusWord_isStatusWord (f : Bool) (c : FaultCode) : IsStatusWord (statusWord f c) f c := by
  unfold IsStatusWord
  cases f <;> cases c <;> decide

/-- A ready `PI` instance is answered with its registers. -/
theorem livePi_ready {s : State} {inst : BitVec 8} (h : PiReady s inst) :
    livePi s inst = .ok (s.piAt inst.toNat) := by
  obtain ⟨-, h1, h2⟩ := h
  simp [h1, h2]

/-- Writing one `PI` instance and the result changes nothing else. -/
theorem piFrame_setPi (inst : BitVec 8) (s : State) (r : PiRegs) (ws : List Word) :
    piFrame inst s ((s.setPi inst.toNat r).withResult ws) :=
  ⟨fun n hn => by simp [hn], rfl, rfl, rfl, rfl, rfl, rfl, rfl, rfl⟩

/-- Writing the result alone changes no register. -/
theorem piFrame_withResult (inst : BitVec 8) (s : State) (ws : List Word) : piFrame inst s (s.withResult ws) :=
  ⟨fun _ _ => rfl, rfl, rfl, rfl, rfl, rfl, rfl, rfl, rfl⟩

/-- A command that begins with the access to its `PI` instance makes the two instance checks. -/
theorem piChecks_of_live {i : Instr} {inst : BitVec 8} {s : State} {f : PiRegs → Except FaultCode State}
    (h : exec i s = perform i s (livePi s inst >>= f)) : PiChecks i inst s := by
  refine ⟨fun hf hn => ?_, fun hf hn hi => ?_⟩ <;> rw [Raises, h] <;> exact perform_error hf _ (by simp [*])

/-- A ready `OSC` instance is answered with its registers. -/
theorem liveOsc_ready {s : State} {inst : BitVec 8} (h : OscReady s inst) :
    liveOsc s inst = .ok (s.oscAt inst.toNat) := by
  obtain ⟨-, h1, h2⟩ := h
  simp [h1, h2]

/-- Writing one `OSC` instance and the result changes nothing else. -/
theorem oscFrame_setOsc (inst : BitVec 8) (s : State) (r : OscRegs) (ws : List Word) :
    oscFrame inst s ((s.setOsc inst.toNat r).withResult ws) :=
  ⟨fun n hn => by simp [hn], rfl, rfl, rfl, rfl, rfl, rfl, rfl, rfl⟩

/-- Writing the result alone changes no register. -/
theorem oscFrame_withResult (inst : BitVec 8) (s : State) (ws : List Word) : oscFrame inst s (s.withResult ws) :=
  ⟨fun _ _ => rfl, rfl, rfl, rfl, rfl, rfl, rfl, rfl, rfl⟩

/-- A command that begins with the access to its `OSC` instance makes the two instance checks. -/
theorem oscChecks_of_live {i : Instr} {inst : BitVec 8} {s : State} {f : OscRegs → Except FaultCode State}
    (h : exec i s = perform i s (liveOsc s inst >>= f)) : OscChecks i inst s := by
  refine ⟨fun hf hn => ?_, fun hf hn hi => ?_⟩ <;> rw [Raises, h] <;> exact perform_error hf _ (by simp [*])

/-- A ready `WIN` instance is answered with its registers. -/
theorem liveWin_ready {s : State} {inst : BitVec 8} (h : WinReady s inst) :
    liveWin s inst = .ok (s.winAt inst.toNat) := by
  obtain ⟨-, h1, h2⟩ := h
  simp [h1, h2]

/-- Writing one `WIN` instance and the result changes nothing else. -/
theorem winFrame_setWin (inst : BitVec 8) (s : State) (r : WinRegs) (ws : List Word) :
    winFrame inst s ((s.setWin inst.toNat r).withResult ws) :=
  ⟨fun n hn => by simp [hn], rfl, rfl, rfl, rfl, rfl, rfl, rfl, rfl⟩

/-- Writing the result alone changes no register. -/
theorem winFrame_withResult (inst : BitVec 8) (s : State) (ws : List Word) : winFrame inst s (s.withResult ws) :=
  ⟨fun _ _ => rfl, rfl, rfl, rfl, rfl, rfl, rfl, rfl, rfl⟩

/-- A command that begins with the access to its `WIN` instance makes the two instance checks. -/
theorem winChecks_of_live {i : Instr} {inst : BitVec 8} {s : State} {f : WinRegs → Except FaultCode State}
    (h : exec i s = perform i s (liveWin s inst >>= f)) : WinChecks i inst s := by
  refine ⟨fun hf hn => ?_, fun hf hn hi => ?_⟩ <;> rw [Raises, h] <;> exact perform_error hf _ (by simp [*])

/-- A ready `ENV` instance is answered with its registers. -/
theorem liveEnv_ready {s : State} {inst : BitVec 8} (h : EnvReady s inst) :
    liveEnv s inst = .ok (s.envAt inst.toNat) := by
  obtain ⟨-, h1, h2⟩ := h
  simp [h1, h2]

/-- Writing one `ENV` instance and the result changes nothing else. -/
theorem envFrame_setEnv (inst : BitVec 8) (s : State) (r : EnvRegs) (ws : List Word) :
    envFrame inst s ((s.setEnv inst.toNat r).withResult ws) :=
  ⟨fun n hn => by simp [hn], rfl, rfl, rfl, rfl, rfl, rfl, rfl, rfl⟩

/-- Writing the result alone changes no register. -/
theorem envFrame_withResult (inst : BitVec 8) (s : State) (ws : List Word) : envFrame inst s (s.withResult ws) :=
  ⟨fun _ _ => rfl, rfl, rfl, rfl, rfl, rfl, rfl, rfl, rfl⟩

/-- A command that begins with the access to its `ENV` instance makes the two instance checks. -/
theorem envChecks_of_live {i : Instr} {inst : BitVec 8} {s : State} {f : EnvRegs → Except FaultCode State}
    (h : exec i s = perform i s (liveEnv s inst >>= f)) : EnvChecks i inst s := by
  refine ⟨fun hf hn => ?_, fun hf hn hi => ?_⟩ <;> rw [Raises, h] <;> exact perform_error hf _ (by simp [*])

end Sys2Proof.Machine
end

