-- ==== Sys2Proof/Tests/Slice0.lean ====
section
/-! SUPPORT. The model's own tests: the ill-formed terms each check refuses, a word of every opcode written out from
30_encoding.md R81 and R90, one step of each instruction on the vectors of 95_test_vectors.md or on values computed
by hand from the rules, and for every statement with hypotheses a state and operands that meet them. -/

namespace Sys2Proof.Tests

open Sys2Proof Sys2Proof.Machine

set_option Elab.async false

/-! ### Helpers -/

/-- The next state of an outcome. -/
def stateOf (o : StepOutcome) : Option State :=
  match o with
  | .next t => some t
  | .fault _ => none
  | .refused _ => none

/-- The result words of the next state. -/
def resultOf (o : StepOutcome) : Option (List Word) := (stateOf o).map (·.result)

/-- What `SYS.STATUS` would return in the next state. -/
def statusOf (o : StepOutcome) : Option (Word × Word) :=
  (stateOf o).map fun t => (statusWord t.faulted t.fcode, t.fcmd)

/-- Does the transaction decode to this command? -/
def decodesTo (cmd : Word) (ops : List Word) (i : Instr) : Bool :=
  match decode ⟨cmd, ops⟩ with
  | .ok j => j == i
  | .error _ => false

/-- Is the transaction rejected for this reason? -/
def rejectedFor (cmd : Word) (ops : List Word) (e : DecodeError) : Bool :=
  match decode ⟨cmd, ops⟩ with
  | .ok _ => false
  | .error d => d == e

/-- Does the line assemble to this transaction? -/
def assemblesTo (line : String) (cmd : Word) (ops : List Word) : Bool :=
  match assembleLine line.toList with
  | .ok (some t) => t == ⟨cmd, ops⟩
  | .ok none => false
  | .error _ => false

/-- The reference envelope of 95_test_vectors.md section 0. -/
def refEnv : EnvRegs :=
  { init := true, state := .noteOff, y := 0, level := 0, ca := 0x3F7FA50A, cd := 0x3F7FD901, sl := 0x3F000000,
    cs := 0x3F7FFFF2, cr := 0x3F7FE4B3, ssl := 0, nol := 0x38D1B717, ad := 1 }

/-- The reset state with `PI[0]` holding these registers. -/
def withPi (mode : PiMode) (phase step : Word) : State :=
  State.reset.setPi 0 { init := true, phase := phase, step := step, mode := mode }

/-- The reset state with `OSC[0]` at frequency sps/12 (V-OSC-1). -/
def withOsc (s0 s1 : Word) : State := State.reset.setOsc 0 { init := true, a := 0x3F0483EE, s0 := s0, s1 := s1 }

/-- The reset state with `WIN[0]` as V-P7 constructs it. -/
def withWin : State :=
  State.reset.setWin 0 { init := true, a1 := 0x3C5676ED, s01 := 0x3F800000, s11 := 0, a2 := 0x3CD675C0,
                         s02 := 0x3F800000, s12 := 0 }

/-- The reset state with `ENV[0]` holding these registers. -/
def withEnv (r : EnvRegs) : State := State.reset.setEnv 0 r

/-- The machine after a fault. -/
def faultedState : State := takeFault .uninitialised 0x22000000 (withPi .wrap 0 0x20)

/-! ### Well-formedness: each check refuses an ill-formed term, at its bound -/

theorem test_piRd_3_ill_formed : (Instr.piRd 0 3).wellFormed = false ∧ (Instr.piRd 0 2).wellFormed = true := by
  decide
theorem test_oscRd_3_ill_formed : (Instr.oscRd 0 3).wellFormed = false ∧ (Instr.oscRd 0 2).wellFormed = true := by
  decide
theorem test_winRd_6_ill_formed : (Instr.winRd 0 6).wellFormed = false ∧ (Instr.winRd 0 5).wellFormed = true := by
  decide
theorem test_envRd_11_ill_formed :
    (Instr.envRd 0 11).wellFormed = false ∧ (Instr.envRd 0 10).wellFormed = true := by
  decide
theorem test_nPi_bounds : [0, 1, 256, 257].map (fun n => (⟨n, 4, 4, 4, 0⟩ : Params).legal)
    = [false, true, true, false] := by decide
theorem test_nOsc_bounds : [0, 1, 256, 257].map (fun n => (⟨4, n, 4, 4, 0⟩ : Params).legal)
    = [false, true, true, false] := by decide
theorem test_nWin_bounds : [0, 1, 256, 257].map (fun n => (⟨4, 4, n, 4, 0⟩ : Params).legal)
    = [true, true, true, false] := by decide
theorem test_nEnv_bounds : [0, 1, 256, 257].map (fun n => (⟨4, 4, 4, n, 0⟩ : Params).legal)
    = [false, true, true, false] := by decide

/-! ### Decoding: a word of every opcode, its fields UNIT OP INST REG 000000 MOD written out -/

theorem test_decode_sys :
    (decodesTo 0b0000_0000_00000000_00000000_000000_00 [] (.sysNop)
      && decodesTo 0b0000_0001_00000000_00000000_000000_00 [5] (.sysPhaseFrac32 5)
      && decodesTo 0b0000_0010_00000000_00000000_000000_00 [5, 6] (.sysPhaseFrac64 5 6)
      && decodesTo 0b0000_0011_00000000_00000000_000000_00 [5, 6] (.sysPhaseFreq 5 6)
      && decodesTo 0b0000_0100_00000000_00000000_000000_00 [] (.sysStatus)) = true := by decide +kernel

theorem test_decode_pi :
    (decodesTo 0b0001_0000_00000010_00000000_000000_01 [5, 6] (.piInit 2 .sat 5 6)
      && decodesTo 0b0001_0000_00000010_00000000_000000_00 [5, 6] (.piInit 2 .wrap 5 6)
      && decodesTo 0b0001_0001_00000011_00000000_000000_01 [5, 6] (.piLoad 3 .sat 5 6)
      && decodesTo 0b0001_0010_11111111_00000000_000000_00 [] (.piInc 255)
      && decodesTo 0b0001_0011_00000001_00000000_000000_00 [] (.piDec 1)
      && decodesTo 0b0001_0100_00000001_00000000_000000_00 [] (.piFirst 1)
      && decodesTo 0b0001_0101_00000001_00000000_000000_00 [] (.piLast 1)
      && decodesTo 0b0001_1111_00000001_00000010_000000_00 [] (.piRd 1 2)) = true := by decide +kernel

theorem test_decode_osc :
    (decodesTo 0b0010_0000_00000001_00000000_000000_00 [5, 6] (.oscInit 1 5 6)
      && decodesTo 0b0010_0001_00000001_00000000_000000_00 [5, 6] (.oscConfig 1 5 6)
      && decodesTo 0b0010_0010_00000001_00000000_000000_00 [] (.oscTick 1)
      && decodesTo 0b0010_1111_00000001_00000010_000000_00 [] (.oscRd 1 2)) = true := by decide +kernel

theorem test_decode_win :
    (decodesTo 0b0011_0000_00000001_00000000_000000_00 [5, 6] (.winInit 1 5 6)
      && decodesTo 0b0011_0001_00000001_00000000_000000_00 [5, 6] (.winConfig 1 5 6)
      && decodesTo 0b0011_0010_00000001_00000000_000000_00 [] (.winTick 1)
      && decodesTo 0b0011_1111_00000001_00000101_000000_00 [] (.winRd 1 5)) = true := by decide +kernel

theorem test_decode_env :
    (decodesTo 0b0100_0000_00000001_00000000_000000_00 [5, 6, 7, 8, 9, 10] (.envInit 1 5 6 7 8 9 10)
      && decodesTo 0b0100_0001_00000001_00000000_000000_00 [] (.envTick 1)
      && decodesTo 0b0100_0010_00000001_00000000_000000_11 [5] (.envTrigger 1 3 5)
      && decodesTo 0b0100_0011_00000001_00000000_000000_00 [] (.envLegato 1)
      && decodesTo 0b0100_0100_00000001_00000000_000000_00 [] (.envDecay 1)
      && decodesTo 0b0100_0101_00000001_00000000_000000_00 [] (.envRelease 1)
      && decodesTo 0b0100_0110_00000001_00000000_000000_00 [] (.envState 1)
      && decodesTo 0b0100_0111_00000001_00000000_000000_00 [5, 6] (.envSetAttack 1 5 6)
      && decodesTo 0b0100_1000_00000001_00000000_000000_00 [5, 6] (.envSetDecay 1 5 6)
      && decodesTo 0b0100_1001_00000001_00000000_000000_00 [5] (.envSetSlevel 1 5)
      && decodesTo 0b0100_1010_00000001_00000000_000000_00 [5, 6] (.envSetSrate 1 5 6)
      && decodesTo 0b0100_1011_00000001_00000000_000000_00 [5, 6] (.envSetRelease 1 5 6)
      && decodesTo 0b0100_1100_00000001_00000000_000000_00 [5] (.envNoteOffLevel 1 5)
      && decodesTo 0b0100_1111_00000001_00001010_000000_00 [] (.envRd 1 10)) = true := by decide +kernel

theorem test_reject :
    (rejectedFor 0x50000000 [] .reservedUnit && rejectedFor 0x06000000 [] .reservedOp
      && rejectedFor 0x2E000000 [] .reservedOp && rejectedFor 0x04010000 [] .sysInst
      && rejectedFor 0x12000100 [] .badReg && rejectedFor 0x1F000300 [] .badReg
      && rejectedFor 0x4F000B00 [] .badReg && rejectedFor 0x12000004 [] .reservedBits
      && rejectedFor 0x12000001 [] .badMod && rejectedFor 0x10000002 [0x43DC0000, 0x473B8000] .badMod
      && rejectedFor 0x12000000 [1] .badLength && rejectedFor 0x10000000 [0x43DC0000] .badLength
      && rejectedFor 0x04000000 [0] .badLength && rejectedFor 0x12040004 [0] .reservedBits) = true := by
  decide +kernel

/-- The table's bit numbering: the operand words the table gives no bits are zeros. -/
theorem test_table_word :
    decodeTableWord 32 0x03000000 = some (.sysPhaseFreq 0 0)
      ∧ decodeTableWord 32 0x42030002 = some (.envTrigger 3 2 0)
      ∧ decodeTableWord 32 0x5F000000 = none := by
  decide +kernel

/-- Lines of 95_test_vectors.md and 42_envelope.md, in mixed case, with comments and defaults (R94, R95). -/
theorem test_assemble :
    (assemblesTo "env.init i0, 0.03, 0.07, 0.5, 50.0, 0.1, 48000.0 ; the reference envelope" 0x40000000
        [0x3CF5C28F, 0x3D8F5C29, 0x3F000000, 0x42480000, 0x3DCCCCCD, 0x473B8000]
      && assemblesTo "SYS.PHASE_FRAC64 0.1" 0x02000000 [0x9999999A, 0x3FB99999]
      && assemblesTo "sys.phase_frac32 w:0x7FC00000" 0x01000000 [0x7FC00000]
      && assemblesTo "sys.phase_freq 1e-30, 48000.0" 0x03000000 [0x0DA24260, 0x473B8000]
      && assemblesTo "sys.phase_frac64 -1e-300" 0x02000000 [0xC2F8F359, 0x81A56E1F]
      && assemblesTo "pi.load i2, 0x1234, 0" 0x11020000 [0x1234, 0]
      && assemblesTo "pi.inc" 0x12000000 []) = true := by
  decide +kernel

theorem test_assemble_rejects :
    assembleLine "pi.rd i0, r3".toList = .error .badRegister
      ∧ assembleLine "pi.inc i256".toList = .error .badInstance
      ∧ assembleLine "env.trigger i0, 1.0, ad=2".toList = .error .badAutoDecay
      ∧ assembleLine "osc.tick i0, 1.0".toList = .error .operandCount
      ∧ assembleLine "pi.load i0, 1.5, 1".toList = .error .badOperand
      ∧ assembleLine "pi.jump i0".toList = .error .unknownMnemonic
      ∧ assembleLine "  ; nothing".toList = .ok none := by
  decide +kernel

/-! ### One step of each instruction -/

theorem test_nop : stateOf (execSysNop (withPi .wrap 1 2)) = some (withPi .wrap 1 2) := by decide +kernel
theorem test_status : resultOf (execSysStatus faultedState) = some [0x80000004, 0x22000000]
    ∧ resultOf (execSysStatus State.reset) = some [0, 0] := by decide +kernel
theorem test_frac32_ties : resultOf (execSysPhaseFrac32 0x2F000000 State.reset) = some [0]
    ∧ resultOf (execSysPhaseFrac32 0x2FC00000 State.reset) = some [2]
    ∧ resultOf (execSysPhaseFrac32 0x80000000 State.reset) = some [0]
    ∧ resultOf (execSysPhaseFrac32 0x7F800000 State.reset) = some [0xFFFFFFFF] := by decide +kernel
theorem test_frac32_negative :
    statusOf (execSysPhaseFrac32 0xBF000000 State.reset) = some (0x80000005, 0x01000000) := by
  decide +kernel
theorem test_frac64 : resultOf (execSysPhaseFrac64 0x9999999A 0x3FB99999 State.reset) = some [0x1999999A]
    ∧ resultOf (execSysPhaseFrac64 0xFFFFFFFF 0x3FEFFFFF State.reset) = some [0xFFFFFFFF] := by decide +kernel
theorem test_frac64_negative :
    statusOf (execSysPhaseFrac64 0xC2F8F359 0x81A56E1F State.reset) = some (0x80000005, 0x02000000) := by
  decide +kernel
theorem test_freq : resultOf (execSysPhaseFreq 0xC3DC0000 0x473B8000 State.reset) = some [0xFDA740DA]
    ∧ resultOf (execSysPhaseFreq 0x3F800000 0x472C4400 State.reset) = some [0x00017C70] := by decide +kernel
theorem test_freq_priority :
    statusOf (execSysPhaseFreq 0x7FC00000 0 State.reset) = some (0x80000007, 0x03000000) := by
  decide +kernel
theorem test_pi_init : (stateOf (execPiInit 0 .wrap 0x43DC0000 0x473B8000 State.reset)).map (·.piAt 0)
    = some { init := true, phase := 0, step := 0x0258BF26, mode := .wrap } := by decide +kernel
theorem test_pi_init_bad_rate :
    statusOf (execPiInit 0 .wrap 0x43DC0000 0 State.reset) = some (0x80000006, 0x10000000) := by
  decide +kernel
theorem test_pi_load : (stateOf (execPiLoad 3 .sat 0xFFFFFFF0 0x20 State.reset)).map (·.piAt 3)
    = some { init := true, phase := 0xFFFFFFF0, step := 0x20, mode := .sat } := by decide +kernel
theorem test_pi_inc : resultOf (execPiInc 0 (withPi .wrap 0xFFFFFFF0 0x20)) = some [0x10]
    ∧ resultOf (execPiInc 0 (withPi .sat 0xFFFFFFF0 0x20)) = some [0xFFFFFFFF]
    ∧ resultOf (execPiInc 0 (withPi .sat 0xFFFFFFDF 0x20)) = some [0xFFFFFFFF] := by decide +kernel
theorem test_pi_inc_missing :
    statusOf (execPiInc 4 State.reset) = some (0x80000003, 0x12040000) := by
  decide +kernel
theorem test_pi_dec : resultOf (execPiDec 0 (withPi .wrap 0 1)) = some [0xFFFFFFFF]
    ∧ resultOf (execPiDec 0 (withPi .sat 0x10 0x20)) = some [0]
    ∧ resultOf (execPiDec 0 (withPi .sat 0xFFFFFFFF 0x20)) = some [0xFFFFFFDF] := by decide +kernel
theorem test_pi_first : resultOf (execPiFirst 0 (withPi .wrap 0x10 0x20)) = some [1]
    ∧ resultOf (execPiFirst 0 (withPi .wrap 0x20 0x20)) = some [0] := by decide +kernel
theorem test_pi_last : resultOf (execPiLast 0 (withPi .wrap 0xFFFFFFF0 0x20)) = some [1]
    ∧ resultOf (execPiLast 0 (withPi .wrap 0xFFFFFFD0 0x20)) = some [0] := by decide +kernel
theorem test_pi_rd :
    resultOf (execPiRd 0 1 (withPi .sat 7 8)) = some [8] ∧ resultOf (execPiRd 0 2 (withPi .sat 7 8)) = some [1] := by
  decide +kernel
/-- The arguments of the two helpers, worked out by hand: `PI32 · RN32(4000/48000)` and `-2 / (48000 · 0.03)`. -/
theorem test_helper_arguments :
    fmul pi32 (fdiv 0x457A0000 0x473B8000) = 0x3E860A92 ∧ fdiv negTwoF (fmul 0x473B8000 0x3CF5C28F) = 0xBAB60B61 := by
  decide +kernel
theorem test_osc_init : (stateOf (execOscInit 0 0x457A0000 0x473B8000 State.reset)).map (·.oscAt 0)
    = some { init := true, a := oscCoefValue 0x457A0000 0x473B8000, s0 := 0x3F800000, s1 := 0 } := rfl
theorem test_osc_init_bad_rate :
    statusOf (execOscInit 0 0x43DC0000 0xC73B8000 State.reset) = some (0x80000006, 0x20000000) := by
  decide +kernel
theorem test_osc_config : (stateOf (execOscConfig 0 0x45BB8000 0x473B8000 (withOsc 3 4))).map (·.oscAt 0)
    = some { init := true, a := oscCoefValue 0x45BB8000 0x473B8000, s0 := 3, s1 := 4 } := rfl
theorem test_osc_config_unset :
    statusOf (execOscConfig 0 0x7FC00000 0 State.reset) = some (0x80000004, 0x21000000) := by
  decide +kernel
theorem test_osc_tick : resultOf (execOscTick 0 (withOsc 0x3F800000 0)) = some [0x3F800000, 0x3F0483EE]
    ∧ resultOf (execOscTick 0 (withOsc 0x3F3B67AE 0x3F6585F8)) = some [0x3E8930A2, 0x3F8483EE] := by decide +kernel
theorem test_osc_rd :
    resultOf (execOscRd 0 0 (withOsc 3 4)) = some [0x3F0483EE] ∧ resultOf (execOscRd 0 2 (withOsc 3 4)) = some [4] := by
  decide +kernel
theorem test_win_init : (stateOf (execWinInit 0 0x3C23D70A 0x473B8000 State.reset)).map (·.winAt 0)
    = some { init := true, a1 := oscCoefValue 0x42C80000 0x473B8000, s01 := 0x3F800000, s11 := 0,
             a2 := oscCoefValue 0x43480000 0x473B8000, s02 := 0x3F800000, s12 := 0 } := rfl
/-- Width 2^-127, whose `2/width` overflows, with a good sample rate and with a bad one (R290 check 5). -/
theorem test_win_init_overflow :
    statusOf (execWinInit 0 0x00400000 0x473B8000 State.reset) = some (0x80000008, 0x30000000)
      ∧ statusOf (execWinInit 0 0x00400000 0 State.reset) = some (0x80000008, 0x30000000) := by
  decide +kernel
theorem test_win_config : (stateOf (execWinConfig 0 0x3CA3D70A 0x473B8000 withWin)).map (·.winAt 0)
    = some { withWin.winAt 0 with a1 := oscCoefValue 0x42480000 0x473B8000, a2 := oscCoefValue 0x42C80000 0x473B8000 } :=
  rfl
theorem test_win_tick : resultOf (execWinTick 0 withWin) = some [0xB2800000] := by decide +kernel
theorem test_win_rd :
    resultOf (execWinRd 0 3 withWin) = some [0x3CD675C0] ∧ resultOf (execWinRd 0 4 withWin) = some [0x3F800000] := by
  decide +kernel
theorem test_env_init :
    (stateOf (execEnvInit 0 0x3CF5C28F 0x3D8F5C29 0x3F000000 0x42480000 0x3DCCCCCD 0x473B8000 State.reset)).map
        (·.envAt 0)
      = some { refEnv with ca := envCoefValue 0x3CF5C28F 0x473B8000, cd := envCoefValue 0x3D8F5C29 0x473B8000,
                           cs := envCoefValue 0x42480000 0x473B8000, cr := envCoefValue 0x3DCCCCCD 0x473B8000 } := rfl
theorem test_env_init_operand_order :
    statusOf (execEnvInit 0 0x3CF5C28F 0x3D8F5C29 0x7FC00000 0x42480000 0x3DCCCCCD 0 State.reset)
    = some (0x80000009, 0x40000000) := by decide +kernel
theorem test_env_tick_attack :
    resultOf (execEnvTick 0 (withEnv { refEnv with state := .attack, level := 0x3F800000 })) = some [0x3B118A00]
    ∧ (stateOf (execEnvTick 0 (withEnv { refEnv with state := .attack, level := 0x3F800000, y := 0x3F7FF614 }))).map
        (fun t => ((t.envAt 0).y, (t.envAt 0).state)) = some (0x3F800000, .decay) := by decide +kernel
theorem test_env_tick_decay_and_sustain :
    (stateOf (execEnvTick 0 (withEnv { refEnv with state := .decay, level := 0x3F800000, y := 0x3F00068E }))).map
        (fun t => ((t.envAt 0).y, (t.envAt 0).ssl, (t.envAt 0).state)) = some (0x3F000000, 0x3F000000, .sustain)
    ∧ resultOf (execEnvTick 0 (withEnv { refEnv with state := .sustain, y := 0x3F000000 })) = some [0x3EFFFFF2] := by
  decide +kernel
theorem test_env_trigger : (stateOf (execEnvTrigger 0 3 0x3F4CCCCD (withEnv refEnv))).map (·.envAt 0)
    = some { refEnv with state := .attack, level := 0x3F4CCCCD, ad := 3 } := by decide +kernel
theorem test_env_trigger_ignored : (stateOf (execEnvTrigger 0 1 0 (withEnv refEnv))).map (·.envAt 0) = some refEnv
    ∧ statusOf (execEnvTrigger 0 1 0x7FC00000 (withEnv refEnv)) = some (0x80000009, 0x42000001) := by decide +kernel
theorem test_env_legato :
    (stateOf (execEnvLegato 0 (withEnv { refEnv with state := .sustain, y := 0x3EFFC950, ssl := 0x3F000000 }))).map
      (fun t => (t.envAt 0).state) = some .legato
    ∧ (stateOf (execEnvLegato 0 (withEnv { refEnv with state := .sustain, y := 0x3F000000, ssl := 0x3F000000 }))).map
      (fun t => (t.envAt 0).state) = some .sustain := by decide +kernel
theorem test_env_decay :
    (stateOf (execEnvDecay 0 (withEnv { refEnv with state := .attack, ad := 0 }))).map (·.envAt 0)
    = some { refEnv with state := .attack, ad := 1 } := by decide +kernel
theorem test_env_release :
    (stateOf (execEnvRelease 0 (withEnv { refEnv with state := .noteRelease }))).map (fun t => (t.envAt 0).state)
      = some .release
    ∧ (stateOf (execEnvRelease 0 (withEnv refEnv))).map (fun t => (t.envAt 0).state) = some .noteOff := by
  decide +kernel
theorem test_env_state :
    resultOf (execEnvState 0 (withEnv { refEnv with state := .sustain })) = some [4] := by
  decide +kernel
theorem test_env_set_attack : (stateOf (execEnvSetAttack 0 0x3F800000 0x473B8000 (withEnv refEnv))).map (·.envAt 0)
    = some { refEnv with ca := envCoefValue 0x3F800000 0x473B8000 } := rfl
theorem test_env_set_decay : (stateOf (execEnvSetDecay 0 0x40000000 0x473B8000 (withEnv refEnv))).map (·.envAt 0)
    = some { refEnv with cd := envCoefValue 0x40000000 0x473B8000 } := rfl
theorem test_env_set_srate : (stateOf (execEnvSetSrate 0 0x41200000 0x473B8000 (withEnv refEnv))).map (·.envAt 0)
    = some { refEnv with cs := envCoefValue 0x41200000 0x473B8000 } := rfl
theorem test_env_set_release :
    (stateOf (execEnvSetRelease 0 0x3F000000 0x473B8000 (withEnv refEnv))).map (·.envAt 0)
    = some { refEnv with cr := envCoefValue 0x3F000000 0x473B8000 } := rfl
theorem test_env_set_attack_faults :
    statusOf (execEnvSetAttack 0 0 0x473B8000 (withEnv refEnv)) = some (0x80000008, 0x47000000) := by
  decide +kernel
theorem test_env_set_slevel : (stateOf (execEnvSetSlevel 0 0x3E809BCC (withEnv refEnv))).map (·.envAt 0)
    = some { refEnv with sl := 0x3E809BCC } := by decide +kernel
theorem test_env_set_slevel_faults :
    statusOf (execEnvSetSlevel 0 0x7F800000 (withEnv refEnv)) = some (0x80000009, 0x49000000) := by
  decide +kernel
theorem test_env_note_off_level :
    (stateOf (execEnvNoteOffLevel 0 0 (withEnv refEnv))).map (·.envAt 0) = some { refEnv with nol := 0 }
    ∧ (stateOf (execEnvNoteOffLevel 0 0x3F000000 (withEnv refEnv))).map (·.envAt 0) = some refEnv := by
  decide +kernel
theorem test_env_rd : resultOf (execEnvRd 0 10 (withEnv { refEnv with ad := 3 })) = some [0xFFFFFFFF]
    ∧ resultOf (execEnvRd 0 9 (withEnv refEnv)) = some [0x38D1B717] := by decide +kernel
theorem test_rd_illegal_before_instance :
    statusOf (execEnvRd 4 11 State.reset) = some (0x80000001, 0x4F040B00) := by
  decide +kernel

/-! ### The step -/

theorem test_step_runs_fetched_word :
    resultOf (step (State.reset.withFetchWord 32 0x04000000)) = some [0, 0] := by
  decide +kernel
theorem test_step_faults_on_illegal_word :
    statusOf (step (State.reset.withFetchWord 32 0x50000000)) = some (0x80000001, 0x50000000) := by
  decide +kernel
theorem test_step_refuses_while_faulted :
    stateOf (step (faultedState.withFetchWord 32 0x12000000)) = some faultedState := by
  decide +kernel
theorem test_step_reset_wins :
    stateOf (step { faultedState with inbox := [.reset (some ⟨0x12000000, []⟩)] }) = some State.reset := by
  decide +kernel
theorem test_step_idle : stateOf (step (withPi .wrap 1 2)) = some (withPi .wrap 1 2) := by decide +kernel

/-! ### Witnesses: for each statement with hypotheses, concrete values that meet them, each clause at a bound -/

/-- A state with instance 0 of every unit constructed, `PI[1]` and `PI[2]` saturating at their ends, and a transaction
delivered. -/
def ready : State :=
  { ((((((State.reset.setPi 0 ⟨true, 0xFFFFFFF0, 0x21, .wrap⟩).setPi 1 ⟨true, 0xFFFFFFFF, 0x20, .sat⟩).setPi 2
      ⟨true, 0, 0x20, .sat⟩).setOsc 0 ⟨true, 0x3F0483EE, 0x3F800000, 0⟩).setWin 0 (withWin.winAt 0)).setEnv 0
      refEnv) with inbox := [.transaction ⟨0x12000000, []⟩] }

/-- The same with `ENV[0]` in a state, at level 0.5 of 1.0 above a start-of-sustain level of 1.0. -/
def readyIn (st : EnvState) : State :=
  ready.setEnv 0 { refEnv with state := st, y := 0x3F000000, level := 0x3F800000, ssl := 0x3F800000 }

/-- The three cases of a `PI` command: instance 4 of 4, instance 3 unset, instance 0 ready. -/
theorem witness_pi_cases :
    (State.reset.faulted = false ∧ State.reset.params.nPi ≤ (4 : BitVec 8).toNat)
      ∧ (State.reset.faulted = false ∧ (3 : BitVec 8).toNat < State.reset.params.nPi
          ∧ (State.reset.piAt 3).init = false)
      ∧ PiReady ready 0 ∧ PiSlot State.reset 3 := by
  unfold PiReady PiSlot; decide +kernel

/-- The three cases of a `OSC` command: instance 4 of 4, instance 3 unset, instance 0 ready. -/
theorem witness_osc_cases :
    (State.reset.faulted = false ∧ State.reset.params.nOsc ≤ (4 : BitVec 8).toNat)
      ∧ (State.reset.faulted = false ∧ (3 : BitVec 8).toNat < State.reset.params.nOsc
          ∧ (State.reset.oscAt 3).init = false)
      ∧ OscReady ready 0 ∧ OscSlot State.reset 3 := by
  unfold OscReady OscSlot; decide +kernel

/-- The three cases of a `WIN` command: instance 4 of 4, instance 3 unset, instance 0 ready. -/
theorem witness_win_cases :
    (State.reset.faulted = false ∧ State.reset.params.nWin ≤ (4 : BitVec 8).toNat)
      ∧ (State.reset.faulted = false ∧ (3 : BitVec 8).toNat < State.reset.params.nWin
          ∧ (State.reset.winAt 3).init = false)
      ∧ WinReady ready 0 ∧ WinSlot State.reset 3 := by
  unfold WinReady WinSlot; decide +kernel

/-- The three cases of a `ENV` command: instance 4 of 4, instance 3 unset, instance 0 ready. -/
theorem witness_env_cases :
    (State.reset.faulted = false ∧ State.reset.params.nEnv ≤ (4 : BitVec 8).toNat)
      ∧ (State.reset.faulted = false ∧ (3 : BitVec 8).toNat < State.reset.params.nEnv
          ∧ (State.reset.envAt 3).init = false)
      ∧ EnvReady ready 0 ∧ EnvSlot State.reset 3 := by
  unfold EnvReady EnvSlot; decide +kernel

/-- Operands at the bounds of the checks: the largest finite frequency and infinity; the least positive rate, and 0. -/
theorem witness_rate_operands :
    isFinite 0x7F800000 = false ∧ isFinite 0x7F7FFFFF = true ∧ PositiveFinite 0x00000001 ∧ PositiveFinite 0x7F7FFFFF
      ∧ ¬ PositiveFinite 0x00000000 ∧ ¬ PositiveFinite 0x7F800000 := by
  unfold PositiveFinite; decide +kernel

theorem witness_PhaseFrac32ReturnsNearestPhase :
    State.reset.faulted = false
      ∧ (isNaN 0x7F800001 = true ∧ (signBit 0x80000001 = true ∧ fabs 0x80000001 ≠ 0))
      ∧ (isNaN 0x7F800000 = false ∧ signBit 0x7F800000 = false ∧ isInf 0x7F800000 = true)
      ∧ (isNaN 0x80000000 = false ∧ fabs 0x80000000 = 0 ∧ isFinite 0x80000000 = true)
      ∧ (signBit 0x7F7FFFFF = false ∧ isFinite 0x7F7FFFFF = true) := by decide +kernel
theorem witness_PhaseFrac64ReturnsNearestPhase :
    State.reset.faulted = false
      ∧ (expField64 0x7FF0000000000001 = 2047 ∧ fracField64 0x7FF0000000000001 ≠ 0)
      ∧ ((0x8000000000000001 : BitVec 64).getLsbD 63 = true ∧ (0x8000000000000001 : BitVec 64).setWidth 63 ≠ 0)
      ∧ (expField64 0x7FF0000000000000 = 2047 ∧ fracField64 0x7FF0000000000000 = 0
          ∧ (0x7FF0000000000000 : BitVec 64).getLsbD 63 = false)
      ∧ (expField64 0x8000000000000000 ≠ 2047 ∧ (0x8000000000000000 : BitVec 64).setWidth 63 = 0) := by
  decide +kernel
theorem witness_PhaseFreqReturnsExactIncrement :
    State.reset.faulted = false ∧ isFinite 0x7F800000 = false
      ∧ (isFinite 0x7F7FFFFF = true ∧ ¬ PositiveFinite 0x00000000)
      ∧ (isFinite 0x7F7FFFFF = true ∧ PositiveFinite 0x00000001) := by
  unfold PositiveFinite; decide +kernel
theorem witness_PiInitConstructsAtPhaseZero :
    (State.reset.faulted = false ∧ State.reset.params.nPi ≤ (4 : BitVec 8).toNat)
      ∧ (PiSlot State.reset 3 ∧ isFinite 0x7F800000 = false)
      ∧ (PiSlot State.reset 3 ∧ isFinite 0x7F7FFFFF = true ∧ ¬ PositiveFinite 0x00000000)
      ∧ (PiSlot State.reset 3 ∧ isFinite 0x7F7FFFFF = true ∧ PositiveFinite 0x00000001) := by
  unfold PiSlot PositiveFinite; decide +kernel
theorem witness_OscInitStartsAtCosineOneSineZero :
    (State.reset.faulted = false ∧ State.reset.params.nOsc ≤ (4 : BitVec 8).toNat)
      ∧ (OscSlot State.reset 3 ∧ isFinite 0x7F800000 = false)
      ∧ (OscSlot State.reset 3 ∧ isFinite 0x7F7FFFFF = true ∧ ¬ PositiveFinite 0x00000000)
      ∧ (OscSlot State.reset 3 ∧ isFinite 0x7F7FFFFF = true ∧ PositiveFinite 0x00000001) := by
  unfold OscSlot PositiveFinite; decide +kernel
theorem witness_PiLoadConstructsFromOperands :
    (State.reset.faulted = false ∧ State.reset.params.nPi ≤ (4 : BitVec 8).toNat) ∧ PiSlot State.reset 3 := by
  unfold PiSlot; decide +kernel
theorem witness_PiIncAdvancesByModeAndReturnsPhase :
    (State.reset.faulted = false ∧ State.reset.params.nPi ≤ (4 : BitVec 8).toNat)
      ∧ (State.reset.faulted = false ∧ (3 : BitVec 8).toNat < State.reset.params.nPi
          ∧ (State.reset.piAt 3).init = false)
      ∧ PiReady ready 0 := by
  unfold PiReady; decide +kernel
theorem witness_PiDecRetreatsByModeAndReturnsPhase :
    (State.reset.faulted = false ∧ State.reset.params.nPi ≤ (4 : BitVec 8).toNat)
      ∧ (State.reset.faulted = false ∧ (3 : BitVec 8).toNat < State.reset.params.nPi
          ∧ (State.reset.piAt 3).init = false)
      ∧ PiReady ready 0 := by
  unfold PiReady; decide +kernel
theorem witness_PiFirstComparesPhaseWithStep :
    (State.reset.faulted = false ∧ State.reset.params.nPi ≤ (4 : BitVec 8).toNat)
      ∧ (State.reset.faulted = false ∧ (3 : BitVec 8).toNat < State.reset.params.nPi
          ∧ (State.reset.piAt 3).init = false)
      ∧ PiReady ready 0 ∧ (ready.piAt 0).mode = .wrap := by
  unfold PiReady; decide +kernel
theorem witness_PiLastTellsTheNextIncrementWraps :
    (State.reset.faulted = false ∧ State.reset.params.nPi ≤ (4 : BitVec 8).toNat)
      ∧ (State.reset.faulted = false ∧ (3 : BitVec 8).toNat < State.reset.params.nPi
          ∧ (State.reset.piAt 3).init = false)
      ∧ PiReady ready 0 := by
  unfold PiReady; decide +kernel
theorem witness_IteratorLawsOfIncAndDec :
    (PiReady ready 0 ∧ (ready.piAt 0).mode = .wrap)
      ∧ (PiReady ready 1 ∧ (ready.piAt 1).mode = .sat ∧ (ready.piAt 1).phase = phaseMax)
      ∧ (PiReady ready 2 ∧ (ready.piAt 2).mode = .sat ∧ (ready.piAt 2).phase = 0) := by
  unfold PiReady; decide +kernel
theorem witness_FullCycleOfIncrementsRestoresPhase :
    PiReady ready 0 ∧ (ready.piAt 0).mode = .wrap ∧ (ready.piAt 0).step.toNat % 2 = 1
      ∧ (0 < 1 ∧ 1 < 2 ^ 32) ∧ (0 < 2 ^ 32 - 1 ∧ 2 ^ 32 - 1 < 2 ^ 32) := by
  unfold PiReady; decide +kernel
theorem witness_OscConfigKeepsTheState :
    (State.reset.faulted = false ∧ State.reset.params.nOsc ≤ (4 : BitVec 8).toNat)
      ∧ (State.reset.faulted = false ∧ (3 : BitVec 8).toNat < State.reset.params.nOsc
          ∧ (State.reset.oscAt 3).init = false)
      ∧ OscReady ready 0
      ∧ isFinite 0x7F800000 = false ∧ (isFinite 0x7F7FFFFF = true ∧ ¬ PositiveFinite 0x00000000)
      ∧ (isFinite 0x7F7FFFFF = true ∧ PositiveFinite 0x00000001) := by
  unfold OscReady PositiveFinite; decide +kernel
theorem witness_OscTickAppliesTheSequentialRecurrence :
    (State.reset.faulted = false ∧ State.reset.params.nOsc ≤ (4 : BitVec 8).toNat)
      ∧ (State.reset.faulted = false ∧ (3 : BitVec 8).toNat < State.reset.params.nOsc
          ∧ (State.reset.oscAt 3).init = false)
      ∧ OscReady ready 0 := by
  unfold OscReady; decide +kernel
theorem witness_WinInitStartsBothOscillators :
    (State.reset.faulted = false ∧ State.reset.params.nWin ≤ (4 : BitVec 8).toNat) ∧ WinSlot State.reset 3
      ∧ ¬ PositiveFinite 0x00000000
      ∧ (PositiveFinite 0x00400000 ∧ isFinite (fdiv 0x40000000 0x00400000) = false)
      ∧ (PositiveFinite 0x00400001 ∧ isFinite (fdiv 0x40000000 0x00400001) = true ∧ ¬ PositiveFinite 0x7F800000)
      ∧ (PositiveFinite 0x00400001 ∧ PositiveFinite 0x00000001 ∧ isFinite (fdiv 0x40000000 0x00400001) = true) := by
  unfold WinSlot PositiveFinite; decide +kernel
theorem witness_WinConfigKeepsBothStates :
    (State.reset.faulted = false ∧ State.reset.params.nWin ≤ (4 : BitVec 8).toNat)
      ∧ (State.reset.faulted = false ∧ (3 : BitVec 8).toNat < State.reset.params.nWin
          ∧ (State.reset.winAt 3).init = false)
      ∧ WinReady ready 0
      ∧ ¬ PositiveFinite 0x00000000
      ∧ (PositiveFinite 0x00400000 ∧ isFinite (fdiv 0x40000000 0x00400000) = false)
      ∧ (PositiveFinite 0x00400001 ∧ isFinite (fdiv 0x40000000 0x00400001) = true ∧ ¬ PositiveFinite 0x7F800000)
      ∧ (PositiveFinite 0x00400001 ∧ PositiveFinite 0x00000001 ∧ isFinite (fdiv 0x40000000 0x00400001) = true) := by
  unfold WinReady PositiveFinite; decide +kernel
theorem witness_WinTickReturnsTheBlackmanSum :
    (State.reset.faulted = false ∧ State.reset.params.nWin ≤ (4 : BitVec 8).toNat)
      ∧ (State.reset.faulted = false ∧ (3 : BitVec 8).toNat < State.reset.params.nWin
          ∧ (State.reset.winAt 3).init = false)
      ∧ WinReady ready 0 := by
  unfold WinReady; decide +kernel
theorem witness_EnvInitConstructsInNoteOff :
    (State.reset.faulted = false ∧ State.reset.params.nEnv ≤ (4 : BitVec 8).toNat) ∧ EnvSlot State.reset 3
      ∧ PositiveFinite 0x00000001 ∧ PositiveFinite 0x7F7FFFFF ∧ ¬ PositiveFinite 0x00000000
      ∧ ¬ PositiveFinite 0x7F800000 ∧ isFinite 0x7F7FFFFF = true ∧ isFinite 0x7F800000 = false := by
  unfold EnvSlot PositiveFinite; decide +kernel
theorem witness_EnvTickReturnsTheUpdatedLevel :
    (State.reset.faulted = false ∧ State.reset.params.nEnv ≤ (4 : BitVec 8).toNat)
      ∧ (State.reset.faulted = false ∧ (3 : BitVec 8).toNat < State.reset.params.nEnv
          ∧ (State.reset.envAt 3).init = false)
      ∧ EnvReady ready 0 := by
  unfold EnvReady; decide +kernel
theorem witness_TickInNoteOffWritesNothing :
    EnvReady (readyIn .noteOff) 0 ∧ ((readyIn .noteOff).envAt 0).state = .noteOff := by
  unfold EnvReady; decide +kernel
theorem witness_TickInAttackClampsAtLevelAndMoves :
    EnvReady (readyIn .attack) 0 ∧ ((readyIn .attack).envAt 0).state = .attack := by
  unfold EnvReady; decide +kernel
theorem witness_TickInDecaySnapsIntoSustain :
    EnvReady (readyIn .decay) 0 ∧ ((readyIn .decay).envAt 0).state = .decay := by
  unfold EnvReady; decide +kernel
theorem witness_TickInSustainDroops :
    EnvReady (readyIn .sustain) 0 ∧ ((readyIn .sustain).envAt 0).state = .sustain := by
  unfold EnvReady; decide +kernel
theorem witness_TickInLegatoSnapsIntoSustain :
    EnvReady (readyIn .legato) 0 ∧ ((readyIn .legato).envAt 0).state = .legato := by
  unfold EnvReady; decide +kernel
theorem witness_TickInReleaseEndsByTheFloor :
    EnvReady (readyIn .release) 0 ∧ ((readyIn .release).envAt 0).state = .release := by
  unfold EnvReady; decide +kernel
theorem witness_TickInNoteReleaseEndsInNoteOff :
    EnvReady (readyIn .noteRelease) 0 ∧ ((readyIn .noteRelease).envAt 0).state = .noteRelease := by
  unfold EnvReady; decide +kernel
theorem witness_TriggerRestartsOnlyWhenLouder :
    (State.reset.faulted = false ∧ State.reset.params.nEnv ≤ (4 : BitVec 8).toNat)
      ∧ (State.reset.faulted = false ∧ (3 : BitVec 8).toNat < State.reset.params.nEnv
          ∧ (State.reset.envAt 3).init = false)
      ∧ EnvReady ready 0
      ∧ isFinite 0x7F800000 = false ∧ isFinite 0x7F7FFFFF = true := by
  unfold EnvReady; decide +kernel
theorem witness_LegatoOnlyFromSustainBelowStart :
    (State.reset.faulted = false ∧ State.reset.params.nEnv ≤ (4 : BitVec 8).toNat)
      ∧ (State.reset.faulted = false ∧ (3 : BitVec 8).toNat < State.reset.params.nEnv
          ∧ (State.reset.envAt 3).init = false)
      ∧ EnvReady (readyIn .sustain) 0 := by
  unfold EnvReady; decide +kernel
theorem witness_DecayOnlySetsAutoDecay :
    (State.reset.faulted = false ∧ State.reset.params.nEnv ≤ (4 : BitVec 8).toNat)
      ∧ (State.reset.faulted = false ∧ (3 : BitVec 8).toNat < State.reset.params.nEnv
          ∧ (State.reset.envAt 3).init = false)
      ∧ EnvReady ready 0 := by
  unfold EnvReady; decide +kernel
theorem witness_ReleaseFromEveryStateButNoteOff :
    (State.reset.faulted = false ∧ State.reset.params.nEnv ≤ (4 : BitVec 8).toNat)
      ∧ (State.reset.faulted = false ∧ (3 : BitVec 8).toNat < State.reset.params.nEnv
          ∧ (State.reset.envAt 3).init = false)
      ∧ EnvReady (readyIn .attack) 0 := by
  unfold EnvReady; decide +kernel
theorem witness_EnvStateReturnsTheCode :
    (State.reset.faulted = false ∧ State.reset.params.nEnv ≤ (4 : BitVec 8).toNat)
      ∧ (State.reset.faulted = false ∧ (3 : BitVec 8).toNat < State.reset.params.nEnv
          ∧ (State.reset.envAt 3).init = false)
      ∧ EnvReady ready 0 := by
  unfold EnvReady; decide +kernel
theorem witness_RateSettersWriteTheirOwnCoefficient :
    (State.reset.faulted = false ∧ State.reset.params.nEnv ≤ (4 : BitVec 8).toNat)
      ∧ (State.reset.faulted = false ∧ (3 : BitVec 8).toNat < State.reset.params.nEnv
          ∧ (State.reset.envAt 3).init = false)
      ∧ EnvReady ready 0
      ∧ ¬ PositiveFinite 0x00000000 ∧ (PositiveFinite 0x00000001 ∧ ¬ PositiveFinite 0x7F800000)
      ∧ (PositiveFinite 0x00000001 ∧ PositiveFinite 0x7F7FFFFF) := by
  unfold EnvReady PositiveFinite; decide +kernel
theorem witness_SetSlevelStoresTheGain :
    (State.reset.faulted = false ∧ State.reset.params.nEnv ≤ (4 : BitVec 8).toNat)
      ∧ (State.reset.faulted = false ∧ (3 : BitVec 8).toNat < State.reset.params.nEnv
          ∧ (State.reset.envAt 3).init = false)
      ∧ EnvReady ready 0
      ∧ isFinite 0x7F800000 = false ∧ isFinite 0x7F7FFFFF = true := by
  unfold EnvReady; decide +kernel
theorem witness_NoteOffLevelOnlyLowersTheFloor :
    (State.reset.faulted = false ∧ State.reset.params.nEnv ≤ (4 : BitVec 8).toNat)
      ∧ (State.reset.faulted = false ∧ (3 : BitVec 8).toNat < State.reset.params.nEnv
          ∧ (State.reset.envAt 3).init = false)
      ∧ EnvReady ready 0
      ∧ isFinite 0x7F800000 = false ∧ isFinite 0x7F7FFFFF = true := by
  unfold EnvReady; decide +kernel
theorem witness_EnvelopeChangesStateOnlyByTheTable :
    (stateOf (exec (.envRelease 0) (readyIn .attack))).map (fun t => (t.envAt 0).state) = some .release
      ∧ ((readyIn .attack).envAt 0).state ≠ .release := by decide +kernel
theorem witness_ReadbackReturnsTheNamedRegister :
    ((2 : BitVec 8).toNat < 3 ∧ (5 : BitVec 8).toNat < 6 ∧ (10 : BitVec 8).toNat < 11)
      ∧ (3 ≤ (3 : BitVec 8).toNat ∧ 6 ≤ (6 : BitVec 8).toNat ∧ 11 ≤ (11 : BitVec 8).toNat)
      ∧ ready.faulted = false ∧ PiReady ready 0 ∧ OscReady ready 0 ∧ WinReady ready 0 ∧ EnvReady ready 0
      ∧ (State.reset.faulted = false ∧ State.reset.params.nWin ≤ (4 : BitVec 8).toNat)
      ∧ (State.reset.faulted = false ∧ (3 : BitVec 8).toNat < State.reset.params.nEnv
          ∧ (State.reset.envAt 3).init = false) := by
  unfold PiReady OscReady WinReady EnvReady; decide +kernel
theorem witness_MissingInstanceFaults :
    (ready.faulted = false ∧ (Instr.winInit 4 1 1).wellFormed = true ∧ instrUnit (.winInit 4 1 1) ≠ 0
        ∧ unitCount ready (instrUnit (.winInit 4 1 1)) ≤ (instrInst (.winInit 4 1 1)).toNat
        ∧ statusOf (exec (.winInit 4 1 1) ready) = some (0x80000003, 0x30040000))
      ∧ ((instrInst (.piInc 3)).toNat < unitCount ready (instrUnit (.piInc 3))
        ∧ statusOf (exec (.piInc 3) ready) = some (0x80000004, 0x12030000))
      ∧ ((0x04010000 : Word).extractLsb' 28 4 = 0 ∧ (0x04010000 : Word).extractLsb' 16 8 ≠ 0) := by
  decide +kernel
theorem witness_UnsetInstanceFaults :
    ready.faulted = false ∧ (Instr.envRd 3 10).wellFormed = true ∧ instrUnit (.envRd 3 10) ≠ 0
      ∧ (instrInst (.envRd 3 10)).toNat < unitCount ready (instrUnit (.envRd 3 10))
      ∧ isConstruct (.envRd 3 10) = false
      ∧ unitInit ready (instrUnit (.envRd 3 10)) (instrInst (.envRd 3 10)).toNat = false := by decide +kernel
theorem witness_DecoderAcceptsExactlyTheTable :
    (∀ r ∈ tableRows, ¬ ((0x4F000B00 : Word) &&& r.mask = r.bits ∧ (r.regCount = 0 ∨ 11 < r.regCount)))
      ∧ (⟨0x4F000000, 0xFF0000FF, 0, 11⟩ ∈ tableRows ∧ (0x4F000A00 : Word) &&& 0xFF0000FF = 0x4F000000
          ∧ (0x4F000A00 : Word).toNat / 256 % 256 < 11 ∧ ([] : List Word).length = 0 ∧ [(0 : Word)].length ≠ 0) := by
  decide +kernel
theorem witness_FaultEntryRecordsAndWritesNothingElse :
    ready.inbox = .transaction ⟨0x12000000, []⟩ :: [] ∧ ready.faulted = false
      ∧ statusOf (step { ready with inbox := [.transaction ⟨0x12030000, []⟩] }) = some (0x80000004, 0x12030000) := by
  decide +kernel
theorem witness_FaultedMachinePerformsOnlyStatus :
    ({ faultedState with inbox := [.transaction ⟨0x04000000, [0]⟩] } : State).faulted = true
      ∧ (⟨0x04000000, [0]⟩ : Transaction) ≠ ⟨0x04000000, []⟩ := by decide +kernel
theorem witness_ResetUnsetsEveryInstanceAndClearsTheFault :
    ({ faultedState with inbox := [.reset (some ⟨0x12000000, []⟩)] } : State).inbox
      = .reset (some ⟨0x12000000, []⟩) :: [] := by decide +kernel
theorem witness_StepRunsTheDecodedCommand :
    ready.inbox = .transaction ⟨0x12000000, []⟩ :: [] ∧ decode ⟨0x12000000, []⟩ = .ok (.piInc 0)
      ∧ decode ⟨0x12000004, []⟩ = .error .reservedBits ∧ decode ⟨0x12000000, [0]⟩ = .error .badLength
      ∧ ready.faulted = false ∧ State.reset.inbox = [] := ⟨rfl, rfl, rfl, rfl, rfl, rfl⟩
/-- A rejected transaction delivered while no fault is pending: a SYS word with INST 1, and a word one operand too
long. -/
theorem witness_StepRaises :
    (({ ready with inbox := [.transaction ⟨0x04010000, []⟩] } : State).inbox = .transaction ⟨0x04010000, []⟩ :: []
        ∧ statusOf (step { ready with inbox := [.transaction ⟨0x04010000, []⟩] }) = some (0x80000001, 0x04010000))
      ∧ (({ ready with inbox := [.transaction ⟨0x4F000A00, [0]⟩] } : State).inbox = .transaction ⟨0x4F000A00, [0]⟩ :: []
        ∧ statusOf (step { ready with inbox := [.transaction ⟨0x4F000A00, [0]⟩] }) = some (0x80000002, 0x4F000A00)) := by
  decide +kernel
theorem witness_ResultCountIsTheOpcodes :
    (stateOf (exec (.piInc 0) ready)).isSome = true ∧ (stateOf (exec (.piInc 4) ready)).isSome = true := by
  decide +kernel
theorem witness_InitBitsAreSetOnlyByConstructCommands :
    (stateOf (exec (.piLoad 3 .wrap 0 0) ready)).map (fun t => unitInit t 1 3) = some true
      ∧ unitInit ready 1 3 = false ∧ unitInit ready 1 0 = true := by decide +kernel
theorem witness_InstancesAreIndependent :
    (stateOf (exec (.piInc 0) ready)).isSome = true ∧ ¬ (instrUnit (.piInc 0) = 1 ∧ (instrInst (.piInc 0)).toNat = 1)
      ∧ ¬ (instrUnit (.piInc 0) = 4 ∧ (instrInst (.piInc 0)).toNat = 0) := by decide +kernel
/-- Two states that differ in an unset register, which the canonical form excludes from runs but not from the
statement. -/
theorem witness_UnsetValuesAreUnobservable :
    SameButUnset State.reset { State.reset with pi := [(0, { PiRegs.unset with phase := 7 })] }
      ∧ ({ State.reset with pi := [(0, { PiRegs.unset with phase := 7 })] } : State) ≠ State.reset
      ∧ (stateOf (exec (.piInc 0) State.reset)).isSome = true
      ∧ (stateOf (exec (.piInc 0) { State.reset with pi := [(0, { PiRegs.unset with phase := 7 })] })).isSome
          = true := by
  refine ⟨⟨⟨rfl, rfl, rfl, rfl, rfl⟩, rfl, fun n => ?_, fun n => ⟨rfl, fun _ => rfl⟩, fun n => ⟨rfl, fun _ => rfl⟩,
    fun n => ⟨rfl, fun _ => rfl⟩⟩, by decide, by decide +kernel, by decide +kernel⟩
  constructor
  · show (bankGet PiRegs.unset [(0, { PiRegs.unset with phase := 7 })] n).init = false
    unfold bankGet bankGet
    split <;> rfl
  · intro h
    exact absurd h (by show ¬ PiRegs.unset.init = true; decide)
theorem witness_PowerUpSatisfiesTheInvariant :
    Params.reference.legal = true ∧ (⟨1, 1, 0, 1, 0⟩ : Params).legal = true
      ∧ (⟨256, 256, 256, 256, 0x7FC00000⟩ : Params).legal = true := by decide
theorem witness_EveryStepKeepsTheInvariant :
    ready.wf = true ∧ (stateOf (step ready)).isSome = true ∧ State.reset.wf = true ∧ faultedState.wf = true := by
  decide +kernel
theorem witness_DecodeOfEncodeIsTheCommand : (Instr.envRd 255 10).wellFormed = true := by decide
theorem witness_EncodeOfDecodeIsTheTransaction :
    decode ⟨0x4FFF0A00, []⟩ = .ok (.envRd 255 10) := rfl
theorem witness_LittleEndianBytesReadBack :
    ((0x11223344 : Word) :: [0x55667788])[1]? = some 0x55667788
      ∧ (transactionToBytes ⟨0x11223344, [0x55667788]⟩)[4 * 1 + 3]? = some 0x55 := by decide
theorem witness_RoundingIsToNearestTiesToEven :
    0 < 1 ∧ rn32 false ((2 ^ 25 - 1) * 2 ^ 103) 1 = 0x7F800000
      ∧ rn32 false ((2 ^ 25 - 1) * 2 ^ 103 - 1) 1 = 0x7F7FFFFF ∧ rn32 true 1 (2 ^ 150) = 0x80000000 := by
  decide +kernel
theorem witness_ArithmeticRoundsTheExactResultOnce :
    isFinite 0x7F7FFFFF = true ∧ isFinite 0x80000000 = true
      ∧ (valueUnits 0x7F7FFFFF + valueUnits 0x80000000 ≠ 0 ∧ valueUnits 0x00000001 + valueUnits 0x80000001 = 0)
      ∧ valueUnits 0x80000000 = valueUnits 0x00000000
      ∧ (magUnits 0x00000001 ≠ 0 ∧ magUnits 0x80000000 = 0)
      ∧ isNaN 0xFF800001 = true ∧ isInf 0x7F800000 = true ∧ isInf 0xFF800000 = true := by decide +kernel
theorem witness_OrderedCompareFollowsTheValues :
    (isFinite 0x80000000 = true ∧ isFinite 0x7F7FFFFF = true) ∧ (isNaN 0xFF800000 = false ∧ isNaN 0x7F800000 = false)
      ∧ isNaN 0x7F800001 = true := by decide +kernel
/-- The special cases by hand from IEEE 754: signed zeros, division by zero, invalid operations, infinities, order. -/
theorem test_arithmetic_special_cases :
    fadd 0x80000000 0x80000000 = 0x80000000 ∧ fadd 0x00000001 0x80000001 = 0 ∧ fsub 0x80000000 0 = 0x80000000
      ∧ fsub 0x3F800000 0x3F800000 = 0 ∧ fdiv 0xBF800000 0 = 0xFF800000 ∧ fdiv 0 0x80000000 = 0x7FC00000
      ∧ fsub 0x7F800000 0x7F800000 = 0x7FC00000 ∧ fsub 0x3F800000 0x7F800000 = 0xFF800000
      ∧ fmul 0x80000000 0x7F800000 = 0x7FC00000 ∧ fmul 0xBF800000 0x7F800000 = 0xFF800000
      ∧ fdiv 0x7F800000 0xFF800000 = 0x7FC00000 ∧ fdiv 0xBF800000 0x7F800000 = 0x80000000
      ∧ fadd 0xFFFFFFFF 0 = 0x7FC00000 ∧ flt 0xFF800000 0xFF7FFFFF = true ∧ flt 0x7F800000 0x7F800000 = false
      ∧ flt 0x80000000 0 = false := by
  decide +kernel

end Sys2Proof.Tests
end

section
/-! PROOFS. Rounding (00_scope.md R12, R16): a binary32 pattern without its sign is one number, its magnitude pattern;
its exact value grows with it, and `roundMagnitude` is the magnitude pattern nearest a rational. -/

namespace Sys2Proof.Machine

/-! ### A pattern as its sign and its magnitude pattern -/

theorem fabs_toNat (x : Word) : (fabs x).toNat = x.toNat % 2 ^ 31 := by
  have h := Nat.and_two_pow_sub_one_eq_mod x.toNat 31
  simpa [fabs] using h

theorem signBit_eq (x : Word) : signBit x = decide (2 ^ 31 ≤ x.toNat) :=
  BitVec.msb_eq_decide x

theorem expField_eq (x : Word) : expField x = (fabs x).toNat / 2 ^ 23 := by
  rw [fabs_toNat, expField, BitVec.extractLsb'_toNat, Nat.shiftRight_eq_div_pow]
  omega

theorem fracField_eq (x : Word) : fracField x = (fabs x).toNat % 2 ^ 23 := by
  rw [fabs_toNat, fracField, BitVec.extractLsb'_toNat, Nat.shiftRight_zero]
  omega

theorem isFinite_iff (x : Word) : isFinite x = true ↔ (fabs x).toNat < infMagnitude := by
  have := fabs_toNat x
  simp only [isFinite, expField_eq, infMagnitude, bne_iff_ne]
  omega

theorem isInf_iff (x : Word) : isInf x = true ↔ (fabs x).toNat = infMagnitude := by
  have := fabs_toNat x
  simp only [isInf, expField_eq, fracField_eq, infMagnitude, Bool.and_eq_true, beq_iff_eq]
  omega

theorem isNaN_iff (x : Word) : isNaN x = true ↔ infMagnitude < (fabs x).toNat := by
  have := fabs_toNat x
  simp only [isNaN, expField_eq, fracField_eq, infMagnitude, Bool.and_eq_true, beq_iff_eq, bne_iff_ne]
  omega

theorem isNaN_eq_false_iff (x : Word) : isNaN x = false ↔ (fabs x).toNat ≤ infMagnitude := by
  rw [← not_lt, ← isNaN_iff, Bool.not_eq_true]

/-- A finite pattern is neither a NaN nor an infinity. -/
theorem isNaN_isInf_of_isFinite {x : Word} (h : isFinite x = true) : isNaN x = false ∧ isInf x = false := by
  rw [isFinite_iff] at h
  rw [isNaN_eq_false_iff, ← Bool.not_eq_true, isInf_iff]
  omega

/-- An infinity is neither a NaN nor finite. -/
theorem isNaN_isFinite_of_isInf {x : Word} (h : isInf x = true) : isNaN x = false ∧ isFinite x = false := by
  rw [isInf_iff] at h
  rw [isNaN_eq_false_iff, ← Bool.not_eq_true, isFinite_iff]
  omega

section WithSign

variable {neg : Bool} {m : Nat} (h : m < 2 ^ 31)
include h

theorem withSign_toNat : (withSign neg m).toNat = (if neg then 2 ^ 31 else 0) + m := by
  rw [withSign, BitVec.toNat_ofNat, Nat.mod_eq_of_lt]
  split <;> omega

theorem signBit_withSign : signBit (withSign neg m) = neg := by
  rw [signBit_eq, withSign_toNat h]
  cases neg
  · simpa using h
  · simp

theorem fabs_withSign_toNat : (fabs (withSign neg m)).toNat = m := by
  rw [fabs_toNat, withSign_toNat h]
  split <;> omega

end WithSign

/-- Sign and magnitude pattern determine the pattern. -/
theorem withSign_signBit (x : Word) : withSign (signBit x) (fabs x).toNat = x := by
  apply BitVec.eq_of_toNat_eq
  have hx := x.isLt
  rw [withSign_toNat (by rw [fabs_toNat]; omega), fabs_toNat]
  simp only [signBit_eq, decide_eq_true_eq]
  split <;> omega

theorem eq_withSign_iff (x : Word) {neg : Bool} {m : Nat} (h : m < 2 ^ 31) :
    x = withSign neg m ↔ signBit x = neg ∧ (fabs x).toNat = m := by
  constructor
  · rintro rfl
    exact ⟨signBit_withSign h, fabs_withSign_toNat h⟩
  · rintro ⟨rfl, rfl⟩
    exact (withSign_signBit x).symm

theorem eq_infF_iff (x : Word) (neg : Bool) : x = infF neg ↔ signBit x = neg ∧ (fabs x).toNat = infMagnitude :=
  eq_withSign_iff x (by decide)

theorem eq_zeroWithSign_iff (x : Word) (neg : Bool) : x = zeroWithSign neg ↔ signBit x = neg ∧ (fabs x).toNat = 0 :=
  eq_withSign_iff x (by decide)

theorem infF_false : infF false = 0x7F800000 := rfl

theorem infF_true : infF true = 0xFF800000 := rfl

/-- The low bit of a pattern is the parity of its magnitude pattern. -/
theorem getLsbD_zero_eq_false_iff (x : Word) : x.getLsbD 0 = false ↔ (fabs x).toNat % 2 = 0 := by
  rw [BitVec.getLsbD, Nat.testBit_zero, fabs_toNat, decide_eq_false_iff_not]
  omega

/-! ### The exact value of a magnitude pattern -/

/-- `magUnits` as a function of the magnitude pattern, for every number: the binades go on above infinity's. -/
def patternUnits (m : Nat) : Nat :=
  if m / 2 ^ 23 = 0 then m % 2 ^ 23 else (2 ^ 23 + m % 2 ^ 23) * 2 ^ (m / 2 ^ 23 - 1)

theorem magUnits_eq (x : Word) : magUnits x = patternUnits (fabs x).toNat := by
  rw [magUnits, patternUnits, expField_eq, fracField_eq]

/-- `shift` and a significand of at most 24 bits add up to the pattern of their product; a significand rounded up to
`2^24` carries into the exponent. -/
theorem patternUnits_shift_add {shift sig : Nat} (hsig : sig ≤ 2 ^ 24) (hnorm : shift = 0 ∨ 2 ^ 23 ≤ sig) :
    patternUnits (shift * 2 ^ 23 + sig) = sig * 2 ^ shift := by
  rcases Nat.lt_or_ge sig (2 ^ 23) with hsub | hnormal
  · obtain rfl : shift = 0 := by omega
    rw [patternUnits, if_pos (by omega)]
    omega
  rcases hsig.lt_or_eq with hlt | rfl
  · have hdiv : (shift * 2 ^ 23 + sig) / 2 ^ 23 = shift + 1 := by omega
    have hmod : (shift * 2 ^ 23 + sig) % 2 ^ 23 = sig - 2 ^ 23 := by omega
    rw [patternUnits, hdiv, hmod, if_neg (by omega), Nat.add_sub_cancel' hnormal, Nat.add_sub_cancel]
  · have hdiv : (shift * 2 ^ 23 + 2 ^ 24) / 2 ^ 23 = shift + 2 := by omega
    have hmod : (shift * 2 ^ 23 + 2 ^ 24) % 2 ^ 23 = 0 := by omega
    rw [patternUnits, hdiv, hmod, if_neg (by omega), show shift + 2 - 1 = shift + 1 from rfl, pow_succ]
    omega

/-- Every magnitude pattern is a shift and a significand of 24 bits, below `2^23` only among the subnormals. -/
theorem exists_shift_add (m : Nat) :
    ∃ shift sig, m = shift * 2 ^ 23 + sig ∧ sig < 2 ^ 24 ∧ (shift = 0 ∨ 2 ^ 23 ≤ sig) :=
  ⟨m / 2 ^ 23 - 1, m - (m / 2 ^ 23 - 1) * 2 ^ 23, by omega, by omega, by omega⟩

theorem patternUnits_strictMono : StrictMono patternUnits := by
  refine strictMono_nat_of_lt_succ fun m => ?_
  obtain ⟨shift, sig, rfl, hsig, hnorm⟩ := exists_shift_add m
  rw [Nat.add_assoc, patternUnits_shift_add hsig.le hnorm, patternUnits_shift_add hsig (by omega)]
  exact Nat.mul_lt_mul_of_pos_right (Nat.lt_succ_self sig) (Nat.two_pow_pos shift)

theorem patternUnits_infMagnitude : patternUnits infMagnitude = 2 ^ 24 * 2 ^ 253 :=
  patternUnits_shift_add (shift := 253) (sig := 2 ^ 24) le_rfl (by decide)

/-- The largest finite value. -/
theorem patternUnits_pred_infMagnitude : patternUnits (infMagnitude - 1) = (2 ^ 24 - 1) * 2 ^ 253 :=
  patternUnits_shift_add (shift := 253) (sig := 2 ^ 24 - 1) (by decide) (by decide)

/-! ### The nearest magnitude pattern -/

/-- How far a magnitude pattern's value is from `n / den`, both in units of `2^-149`, times `den`. -/
def patternError (m n den : Nat) : Nat :=
  ((patternUnits m * den : Nat) - (n : Int)).natAbs

theorem magError_eq (w : Word) (num den : Nat) :
    magError w num den = patternError (fabs w).toNat (num * 2 ^ 149) den := by
  rw [magError, patternError, magUnits_eq]

/-- `r` is a magnitude pattern nearest `n / den` in units of `2^-149`, and even where another is as near. -/
def IsNearestPattern (r n den : Nat) : Prop :=
  ∀ m, patternError r n den ≤ patternError m n den
    ∧ (m ≠ r → patternError m n den = patternError r n den → r % 2 = 0)

theorem roundNearestEven_bounds (num den : Nat) :
    num / den ≤ roundNearestEven num den ∧ roundNearestEven num den ≤ num / den + 1 := by
  unfold roundNearestEven
  split <;> omega

/-- The nearest integer is at least as near as any other, and even where another is as near. -/
theorem IsNearestEven.natAbs_le {v num : Int} {den : Nat} (h : IsNearestEven v num den) (a : Int) :
    (v * den - num).natAbs ≤ (a * den - num).natAbs
      ∧ (a ≠ v → (a * den - num).natAbs = (v * den - num).natAbs → v % 2 = 0) := by
  obtain ⟨hnear, heven⟩ := h
  by_cases hav : a = v
  · subst hav; exact ⟨le_rfl, fun hne => absurd rfl hne⟩
  have hgap : den ≤ (a * den - v * den).natAbs := by
    rw [← sub_mul, Int.natAbs_mul, Int.natAbs_natCast]
    exact Nat.le_mul_of_pos_left den (Int.natAbs_pos.2 (sub_ne_zero.2 hav))
  constructor
  · omega
  · intro _ heq; exact heven (by omega)

/-- The spacing `2^shift` that `roundMagnitude` works at leaves a significand below `2^24`, and one of at least `2^23`
unless it is the subnormals' own spacing. -/
theorem spacingShift_spec (num : Nat) {den : Nat} (hden : 0 < den) :
    num * 2 ^ 149 < 2 ^ 24 * (den * 2 ^ spacingShift num den)
      ∧ (spacingShift num den = 0 ∨ 2 ^ 23 * (den * 2 ^ spacingShift num den) ≤ num * 2 ^ 149) := by
  unfold spacingShift
  generalize num * 2 ^ 149 = n
  have hswap (k s : Nat) : 2 ^ k * (den * 2 ^ s) = 2 ^ (k + s) * den := by rw [pow_add]; ring
  rw [hswap, hswap, ← Nat.div_lt_iff_lt_mul hden, ← Nat.le_div_iff_mul_le hden]
  constructor
  · exact Nat.lt_log2_self.trans_le (Nat.pow_le_pow_right two_pos (by omega))
  · by_cases hs : (n / den).log2 - 23 = 0
    · exact .inl hs
    · refine .inr ?_
      rw [show 23 + ((n / den).log2 - 23) = (n / den).log2 by omega]
      exact Nat.log2_self_le (by rintro h0; simp [h0] at hs)

/-- At a spacing `2^shift` as `spacingShift_spec` has it, the nearest whole number of spacings has the nearest
magnitude pattern. -/
theorem isNearestPattern_shift_add {n den shift : Nat} (hden : 0 < den) (hlt : n < 2 ^ 24 * (den * 2 ^ shift))
    (hge : shift = 0 ∨ 2 ^ 23 * (den * 2 ^ shift) ≤ n) :
    IsNearestPattern (shift * 2 ^ 23 + roundNearestEven n (den * 2 ^ shift)) n den := by
  intro m
  have hstep : 0 < den * 2 ^ shift := by positivity
  have hnear := (roundNearestEven_isNearest n _ hstep).natAbs_le
  obtain ⟨hlow, hhigh⟩ := roundNearestEven_bounds n (den * 2 ^ shift)
  generalize roundNearestEven n (den * 2 ^ shift) = r at *
  have hr : r ≤ 2 ^ 24 := hhigh.trans ((Nat.div_lt_iff_lt_mul hstep).2 hlt)
  have hnorm : shift = 0 ∨ 2 ^ 23 ≤ r := hge.imp_right fun h => ((Nat.le_div_iff_mul_le hstep).2 h).trans hlow
  have herror : patternError (shift * 2 ^ 23 + r) n den = ((r : Int) * (den * 2 ^ shift : Nat) - n).natAbs := by
    rw [patternError, patternUnits_shift_add hr hnorm]; push_cast; ring_nf
  obtain ⟨fine, sig, rfl, hsig, hsignorm⟩ := exists_shift_add m
  have herror' : patternError (fine * 2 ^ 23 + sig) n den = ((sig * 2 ^ fine * den : Nat) - (n : Int)).natAbs := by
    rw [patternError, patternUnits_shift_add hsig.le hsignorm]
  rw [herror, herror']
  rcases Nat.lt_or_ge fine shift with hfine | hcoarse
  · -- A pattern of a finer binade lies below `2^23` spacings, and these lie at or below the value.
    have hbound := (hnear ((2 ^ 23 : Nat) : Int)).1
    have hhalf : 2 * 2 ^ fine ≤ 2 ^ shift := by rw [← pow_succ']; exact Nat.pow_le_pow_right two_pos hfine
    have hbelow : sig * 2 ^ fine * den < 2 ^ 23 * (den * 2 ^ shift) := by
      calc sig * 2 ^ fine * den < 2 ^ 24 * 2 ^ fine * den := by gcongr
        _ = 2 ^ 23 * (den * (2 * 2 ^ fine)) := by ring
        _ ≤ 2 ^ 23 * (den * 2 ^ shift) := by gcongr
    omega
  · -- A pattern of the same or a coarser binade is a whole number of spacings.
    obtain ⟨k, rfl⟩ := Nat.exists_eq_add_of_le hcoarse
    have hwhole : ((sig * 2 ^ (shift + k) * den : Nat) : Int)
        = ((sig * 2 ^ k : Nat) : Int) * (den * 2 ^ shift : Nat) := by
      push_cast; ring
    obtain ⟨hle, heven⟩ := hnear ((sig * 2 ^ k : Nat) : Int)
    rw [hwhole]
    refine ⟨hle, fun hne heq => ?_⟩
    have hother : ((sig * 2 ^ k : Nat) : Int) ≠ r := by
      intro hrk
      refine hne (patternUnits_strictMono.injective ?_)
      rw [patternUnits_shift_add hsig.le hsignorm, patternUnits_shift_add hr hnorm, ← Int.ofNat_inj.1 hrk]
      ring
    have := heven hother heq
    omega

theorem roundMagnitude_isNearestPattern (num : Nat) {den : Nat} (hden : 0 < den) :
    IsNearestPattern (roundMagnitude num den) (num * 2 ^ 149) den :=
  have hshift := spacingShift_spec num hden
  isNearestPattern_shift_add hden hshift.1 hshift.2

/-- The nearest magnitude pattern reaches infinity's half a spacing above the largest finite value, the tie going up
because that value's pattern is odd. -/
theorem IsNearestPattern.infMagnitude_le_iff {r n den : Nat} (hr : IsNearestPattern r n den) (hden : 0 < den) :
    infMagnitude ≤ r ↔ (2 ^ 25 - 1) * (2 ^ 252 * den) ≤ n := by
  obtain ⟨hinf, htie⟩ := hr infMagnitude
  obtain ⟨hmax, -⟩ := hr (infMagnitude - 1)
  have hinfUnits : patternUnits infMagnitude * den = 2 ^ 25 * (2 ^ 252 * den) := by
    rw [patternUnits_infMagnitude]; ring
  have hmaxUnits : patternUnits (infMagnitude - 1) * den = (2 ^ 25 - 2) * (2 ^ 252 * den) := by
    rw [patternUnits_pred_infMagnitude]; ring
  have hhalf : 0 < 2 ^ 252 * den := by positivity
  unfold patternError at hinf htie hmax
  rw [hinfUnits] at hinf htie
  rw [hmaxUnits] at hmax
  generalize 2 ^ 252 * den = half at *
  constructor
  · intro hover
    have := Nat.mul_le_mul_right den (patternUnits_strictMono.monotone hover)
    omega
  · intro hfar
    by_contra hfin
    rcases (Nat.le_sub_one_of_lt (not_le.1 hfin)).lt_or_eq with hlt | rfl
    · have := Nat.mul_lt_mul_of_pos_right (patternUnits_strictMono hlt) hden
      omega
    · have : (infMagnitude - 1) % 2 = 0 := htie (by decide) (by omega)
      exact absurd this (by decide)

/-- Overflow begins half a spacing above the largest finite value. -/
theorem infMagnitude_le_roundMagnitude_iff (num : Nat) {den : Nat} (hden : 0 < den) :
    infMagnitude ≤ roundMagnitude num den ↔ (2 ^ 25 - 1) * 2 ^ 103 * den ≤ num := by
  have hscale : (2 ^ 25 - 1) * (2 ^ 252 * den) = (2 ^ 25 - 1) * 2 ^ 103 * den * 2 ^ 149 := by ring
  rw [(roundMagnitude_isNearestPattern num hden).infMagnitude_le_iff hden, hscale,
    Nat.mul_le_mul_right_iff (Nat.two_pow_pos 149)]

/-- `rn32` of any exact rational is its `RN32`. -/
theorem rn32_isRN32 (neg : Bool) (num : Nat) {den : Nat} (hden : 0 < den) : IsRN32 (rn32 neg num den) neg num den := by
  have hoverflow := infMagnitude_le_roundMagnitude_iff num hden
  have hle : min (roundMagnitude num den) infMagnitude ≤ infMagnitude := Nat.min_le_right ..
  have hlt : min (roundMagnitude num den) infMagnitude < 2 ^ 31 := hle.trans_lt (by decide)
  have hfabs : (fabs (rn32 neg num den)).toNat = min (roundMagnitude num den) infMagnitude := fabs_withSign_toNat hlt
  refine ⟨signBit_withSign hlt, ?_, ?_, fun hfin v _ => ?_⟩
  · rwa [isNaN_eq_false_iff, hfabs]
  · rw [isInf_iff, hfabs, min_eq_right_iff, hoverflow]
  · rw [isFinite_iff, hfabs] at hfin
    have hround : (fabs (rn32 neg num den)).toNat = roundMagnitude num den := by omega
    obtain ⟨hnear, heven⟩ := roundMagnitude_isNearestPattern num hden (fabs v).toNat
    rw [magError_eq, magError_eq, magUnits_eq, magUnits_eq, getLsbD_zero_eq_false_iff, hround]
    exact ⟨hnear, fun hne => heven fun h => hne (congrArg patternUnits h)⟩

end Sys2Proof.Machine

open Sys2Proof Sys2Proof.Machine

/-- Settles O58: the magnitude pattern is the nearest of an unbounded format, and infinity's is one value further. -/
theorem roundingIsToNearestTiesToEven : Obligations.RoundingIsToNearestTiesToEven :=
  fun neg num _ hden => rn32_isRN32 neg num hden

end

section
/-! PROOFS. The ordered compare (00_scope.md R16): the place of a pattern in the order is its sign and its magnitude
pattern, and a finite value grows with the magnitude pattern. -/

namespace Sys2Proof.Machine

/-- The number of a sign and a magnitude. -/
def signedMagnitude (neg : Bool) (m : Nat) : Int := if neg then -(m : Int) else m

theorem orderKey_eq (x : Word) : orderKey x = signedMagnitude (signBit x) (fabs x).toNat := rfl

theorem valueUnits_eq (x : Word) : valueUnits x = signedMagnitude (signBit x) (patternUnits (fabs x).toNat) := by
  rw [valueUnits, magUnits_eq, signedMagnitude]

/-- The values of patterns are ordered as their places are, both zeros alike. -/
theorem valueUnits_lt_iff (x y : Word) : valueUnits x < valueUnits y ↔ orderKey x < orderKey y := by
  simp only [valueUnits_eq, orderKey_eq]
  generalize (fabs x).toNat = m
  generalize (fabs y).toNat = n
  have hmn : patternUnits m < patternUnits n ↔ m < n := patternUnits_strictMono.lt_iff_lt
  have hnm : patternUnits n < patternUnits m ↔ n < m := patternUnits_strictMono.lt_iff_lt
  have hm : 0 < patternUnits m ↔ 0 < m := patternUnits_strictMono.lt_iff_lt (a := 0)
  have hn : 0 < patternUnits n ↔ 0 < n := patternUnits_strictMono.lt_iff_lt (a := 0)
  cases signBit x <;> cases signBit y <;> simp [signedMagnitude] <;> omega

theorem flt_iff {x y : Word} (hx : isNaN x = false) (hy : isNaN y = false) :
    flt x y = true ↔ orderKey x < orderKey y := by
  simp [flt, hx, hy]

theorem flt_eq_false_of_isNaN {x y : Word} (h : isNaN x = true ∨ isNaN y = true) : flt x y = false := by
  rcases h with h | h <;> simp [flt, h]

/-- No place is beyond the infinities', and only an infinity has its own. -/
theorem orderKey_bounds {x : Word} (hx : isNaN x = false) :
    -infMagnitude ≤ orderKey x ∧ orderKey x ≤ infMagnitude
      ∧ (orderKey x = -infMagnitude ↔ x = infF true) ∧ (orderKey x = infMagnitude ↔ x = infF false) := by
  rw [isNaN_eq_false_iff] at hx
  simp only [eq_infF_iff, orderKey_eq]
  have : 0 < infMagnitude := by decide
  cases signBit x <;> simp [signedMagnitude] <;> omega

/-- Plus infinity is above everything but itself and a NaN. -/
theorem flt_plusInf {x : Word} (hx : isNaN x = false) :
    flt (infF false) x = false ∧ (flt x (infF false) = true ↔ x ≠ infF false) := by
  have hinf : isNaN (infF false) = false := by decide
  have hplace : orderKey (infF false) = infMagnitude := rfl
  obtain ⟨-, hle, -, htop⟩ := orderKey_bounds hx
  rw [← Bool.not_eq_true, flt_iff hinf hx, flt_iff hx hinf, hplace, ← htop.ne]
  omega

/-- Minus infinity is below everything but itself and a NaN. -/
theorem flt_minusInf {x : Word} (hx : isNaN x = false) :
    flt x (infF true) = false ∧ (flt (infF true) x = true ↔ x ≠ infF true) := by
  have hinf : isNaN (infF true) = false := by decide
  have hplace : orderKey (infF true) = -infMagnitude := rfl
  obtain ⟨hge, -, hbottom, -⟩ := orderKey_bounds hx
  rw [← Bool.not_eq_true, flt_iff hinf hx, flt_iff hx hinf, hplace, ← hbottom.ne]
  omega

end Sys2Proof.Machine

open Sys2Proof Sys2Proof.Machine

/-- Settles O60: the compare of places is the compare of values, and the infinities have the outermost places. -/
theorem orderedCompareFollowsTheValues : Obligations.OrderedCompareFollowsTheValues := by
  intro x y
  simp only [← infF_false, ← infF_true]
  refine ⟨fun hx hy => ?_, fun hy => ?_, fun hx => ?_, flt_eq_false_of_isNaN, Iff.rfl⟩
  · rw [flt_iff (isNaN_isInf_of_isFinite hx).1 (isNaN_isInf_of_isFinite hy).1, valueUnits_lt_iff]
  · exact ⟨(flt_plusInf hy).1, (flt_minusInf hy).2⟩
  · exact ⟨(flt_minusInf hx).1, (flt_plusInf hx).2⟩

end

section
/-! PROOFS. The four operations (00_scope.md R16): one equation per operation and class of operands, finite, infinite
or NaN. -/

namespace Sys2Proof.Machine

/-! ### The flipped sign of a subtraction -/

theorem signBit_fneg (x : Word) : signBit (fneg x) = !signBit x := by
  simp [signBit, fneg]

@[simp] theorem fabs_fneg (x : Word) : fabs (fneg x) = fabs x := by
  apply BitVec.eq_of_toNat_eq
  rw [fabs_toNat, fabs_toNat, fneg, BitVec.toNat_xor, Nat.xor_mod_two_pow]
  exact Nat.xor_zero _

@[simp] theorem magUnits_fneg (x : Word) : magUnits (fneg x) = magUnits x := by
  rw [magUnits_eq, magUnits_eq, fabs_fneg]

@[simp] theorem isFinite_fneg (x : Word) : isFinite (fneg x) = isFinite x := by
  rw [Bool.eq_iff_iff, isFinite_iff, isFinite_iff, fabs_fneg]

@[simp] theorem isInf_fneg (x : Word) : isInf (fneg x) = isInf x := by
  rw [Bool.eq_iff_iff, isInf_iff, isInf_iff, fabs_fneg]

@[simp] theorem isNaN_fneg (x : Word) : isNaN (fneg x) = isNaN x := by
  rw [Bool.eq_iff_iff, isNaN_iff, isNaN_iff, fabs_fneg]

@[simp] theorem valueUnits_fneg (x : Word) : valueUnits (fneg x) = -valueUnits x := by
  rw [valueUnits, valueUnits, signBit_fneg, magUnits_fneg]
  cases signBit x <;> simp

/-! ### Finite operands -/

section Finite

variable {x y : Word} (hx : isFinite x = true) (hy : isFinite y = true)
include hx hy

theorem fadd_of_finite : fadd x y = faddFinite x y := by
  obtain ⟨hxn, hxi⟩ := isNaN_isInf_of_isFinite hx
  obtain ⟨hyn, hyi⟩ := isNaN_isInf_of_isFinite hy
  simp [fadd, hxn, hxi, hyn, hyi]

theorem fmul_of_finite :
    fmul x y = rn32 (signBit x != signBit y) (magUnits x * magUnits y) (2 ^ 298) := by
  obtain ⟨hxn, hxi⟩ := isNaN_isInf_of_isFinite hx
  obtain ⟨hyn, hyi⟩ := isNaN_isInf_of_isFinite hy
  simp only [fmul, hxn, hxi, hyn, hyi, Bool.or_self, Bool.false_eq_true, if_false]

theorem fdiv_of_finite :
    fdiv x y = if magUnits y = 0 then (if magUnits x = 0 then canonicalNaN else infF (signBit x != signBit y))
      else rn32 (signBit x != signBit y) (magUnits x) (magUnits y) := by
  obtain ⟨hxn, hxi⟩ := isNaN_isInf_of_isFinite hx
  obtain ⟨hyn, hyi⟩ := isNaN_isInf_of_isFinite hy
  simp [fdiv, hxn, hxi, hyn, hyi]

theorem fadd_isRN32 (hsum : valueUnits x + valueUnits y ≠ 0) :
    IsRN32 (fadd x y) (decide (valueUnits x + valueUnits y < 0)) (valueUnits x + valueUnits y).natAbs (2 ^ 149) := by
  rw [fadd_of_finite hx hy, faddFinite, if_neg hsum]
  exact rn32_isRN32 _ _ (Nat.two_pow_pos 149)

/-- An exact zero sum is −0 for two negative zeros alone: two operands below zero do not cancel. -/
theorem fadd_of_sum_zero (hsum : valueUnits x + valueUnits y = 0) :
    fadd x y = if x = zeroWithSign true ∧ y = zeroWithSign true then zeroWithSign true else zeroWithSign false := by
  have hboth : (signBit x && signBit y) = true ↔ x = zeroWithSign true ∧ y = zeroWithSign true := by
    rw [eq_zeroWithSign_iff, eq_zeroWithSign_iff, Bool.and_eq_true]
    refine ⟨fun ⟨hsx, hsy⟩ => ?_, fun ⟨⟨hsx, _⟩, hsy, _⟩ => ⟨hsx, hsy⟩⟩
    rw [valueUnits_eq, valueUnits_eq, hsx, hsy] at hsum
    simp only [signedMagnitude, if_true] at hsum
    have hzero (m : Nat) (hm : patternUnits m = 0) : m = 0 := patternUnits_strictMono.injective hm
    exact ⟨⟨hsx, hzero _ (by omega)⟩, hsy, hzero _ (by omega)⟩
  rw [fadd_of_finite hx hy, faddFinite, if_pos hsum]
  by_cases h : (signBit x && signBit y) = true
  · rw [if_pos (hboth.1 h), h]
  · rw [if_neg (mt hboth.2 h), Bool.eq_false_iff.2 h]

theorem fsub_isRN32 (hdiff : valueUnits x - valueUnits y ≠ 0) :
    IsRN32 (fsub x y) (decide (valueUnits x - valueUnits y < 0)) (valueUnits x - valueUnits y).natAbs (2 ^ 149) := by
  have h := fadd_isRN32 hx (y := fneg y) (by simpa using hy)
  simp only [valueUnits_fneg, ← sub_eq_add_neg] at h
  exact h hdiff

theorem fsub_of_eq (heq : valueUnits x = valueUnits y) :
    fsub x y = if x = zeroWithSign true ∧ y = zeroWithSign false then zeroWithSign true else zeroWithSign false := by
  have hflip : fneg y = zeroWithSign true ↔ y = zeroWithSign false := by
    simp [eq_zeroWithSign_iff, signBit_fneg]
  rw [fsub, fadd_of_sum_zero hx (y := fneg y) (by simpa using hy) (by simp [heq])]
  simp only [hflip]

theorem fmul_isRN32 : IsRN32 (fmul x y) (signBit x != signBit y) (magUnits x * magUnits y) (2 ^ 298) := by
  rw [fmul_of_finite hx hy]
  exact rn32_isRN32 _ _ (by positivity)

theorem fdiv_isRN32 (hne : magUnits y ≠ 0) :
    IsRN32 (fdiv x y) (signBit x != signBit y) (magUnits x) (magUnits y) := by
  rw [fdiv_of_finite hx hy, if_neg hne]
  exact rn32_isRN32 _ _ (Nat.pos_of_ne_zero hne)

theorem fdiv_by_zero (hzero : magUnits y = 0) :
    fdiv x y = if magUnits x = 0 then canonicalNaN else infF (signBit x != signBit y) := by
  rw [fdiv_of_finite hx hy, if_pos hzero]

end Finite

/-! ### A NaN operand -/

section NaN

variable {x y : Word} (h : isNaN x = true ∨ isNaN y = true)
include h

theorem fadd_of_isNaN : fadd x y = canonicalNaN := by
  simp [fadd, h]

theorem fsub_of_isNaN : fsub x y = canonicalNaN :=
  fadd_of_isNaN (by simpa using h)

theorem fmul_of_isNaN : fmul x y = canonicalNaN := by
  simp [fmul, h]

theorem fdiv_of_isNaN : fdiv x y = canonicalNaN := by
  simp [fdiv, h]

end NaN

/-! ### An infinite operand -/

theorem eq_infF_signBit {x : Word} (hx : isInf x = true) : x = infF (signBit x) :=
  (eq_infF_iff x _).2 ⟨rfl, (isInf_iff x).1 hx⟩

section Infinite

variable {x y : Word}

theorem fadd_of_isInf_isInf (hx : isInf x = true) (hy : isInf y = true) :
    fadd x y = if signBit x = signBit y then x else canonicalNaN := by
  simp [fadd, isNaN_isFinite_of_isInf, hx, hy]

theorem fadd_of_isInf_isFinite (hx : isInf x = true) (hy : isFinite y = true) : fadd x y = x := by
  simp [fadd, isNaN_isFinite_of_isInf, isNaN_isInf_of_isFinite, hx, hy]

theorem fadd_of_isFinite_isInf (hx : isFinite x = true) (hy : isInf y = true) : fadd x y = y := by
  simp [fadd, isNaN_isFinite_of_isInf, isNaN_isInf_of_isFinite, hx, hy]

theorem fsub_of_isInf_isInf (hx : isInf x = true) (hy : isInf y = true) :
    fsub x y = if signBit x = signBit y then canonicalNaN else x := by
  rw [fsub, fadd_of_isInf_isInf hx (by simpa using hy), signBit_fneg]
  cases signBit x <;> cases signBit y <;> rfl

theorem fsub_of_isInf_isFinite (hx : isInf x = true) (hy : isFinite y = true) : fsub x y = x :=
  fadd_of_isInf_isFinite hx (by simpa using hy)

theorem fsub_of_isFinite_isInf (hx : isFinite x = true) (hy : isInf y = true) :
    fsub x y = infF (!signBit y) := by
  have hy' : isInf (fneg y) = true := by simpa using hy
  rw [fsub, fadd_of_isFinite_isInf hx hy', eq_infF_signBit hy', signBit_fneg]

theorem fmul_of_isInf_isInf (hx : isInf x = true) (hy : isInf y = true) :
    fmul x y = infF (signBit x != signBit y) := by
  simp [fmul, isNaN_isFinite_of_isInf, hx, hy]

theorem fmul_of_isInf_isFinite (hx : isInf x = true) (hy : isFinite y = true) :
    fmul x y = if magUnits y = 0 then canonicalNaN else infF (signBit x != signBit y) := by
  simp [fmul, isNaN_isFinite_of_isInf, isNaN_isInf_of_isFinite, hx, hy]

theorem fmul_of_isFinite_isInf (hx : isFinite x = true) (hy : isInf y = true) :
    fmul x y = if magUnits x = 0 then canonicalNaN else infF (signBit x != signBit y) := by
  simp [fmul, isNaN_isFinite_of_isInf, isNaN_isInf_of_isFinite, hx, hy]

theorem fdiv_of_isInf_isInf (hx : isInf x = true) (hy : isInf y = true) : fdiv x y = canonicalNaN := by
  simp [fdiv, isNaN_isFinite_of_isInf, hx, hy]

theorem fdiv_of_isInf_isFinite (hx : isInf x = true) (hy : isFinite y = true) :
    fdiv x y = infF (signBit x != signBit y) := by
  simp [fdiv, isNaN_isFinite_of_isInf, isNaN_isInf_of_isFinite, hx, hy]

theorem fdiv_of_isFinite_isInf (hx : isFinite x = true) (hy : isInf y = true) :
    fdiv x y = zeroWithSign (signBit x != signBit y) := by
  simp [fdiv, isNaN_isFinite_of_isInf, isNaN_isInf_of_isFinite, hx, hy]

end Infinite

end Sys2Proof.Machine

open Sys2Proof Sys2Proof.Machine

/-- Settles O59 by the classes of the operands: both finite, one a NaN, both infinite, and one of each. -/
theorem arithmeticRoundsTheExactResultOnce : Obligations.ArithmeticRoundsTheExactResultOnce := by
  intro x y signedInf hinf
  have hsigned : infF (signBit x != signBit y) = signedInf := by
    rw [hinf]; cases signBit x <;> cases signBit y <;> rfl
  refine ⟨fun hx hy => ?finite, fun h => ?nan, fun hx hy => ?infInf, fun hx hy => ?infFinite,
    fun hx hy => ?finiteInf⟩
  case finite =>
    rw [← hsigned]
    refine ⟨?_, fadd_of_sum_zero hx hy, fsub_of_eq hx hy, fmul_isRN32 hx hy, fdiv_isRN32 hx hy, fdiv_by_zero hx hy⟩
    simp only [List.forall_mem_cons, List.not_mem_nil, false_implies, implies_true, and_true]
    exact ⟨fadd_isRN32 hx hy, fsub_isRN32 hx hy⟩
  case nan =>
    simp [fadd_of_isNaN h, fsub_of_isNaN h, fmul_of_isNaN h, fdiv_of_isNaN h, canonicalNaN]
  case infInf =>
    rw [← hsigned]
    exact ⟨fadd_of_isInf_isInf hx hy, fsub_of_isInf_isInf hx hy, fmul_of_isInf_isInf hx hy,
      fdiv_of_isInf_isInf hx hy⟩
  case infFinite =>
    rw [← hsigned]
    exact ⟨fadd_of_isInf_isFinite hx hy, fsub_of_isInf_isFinite hx hy, fmul_of_isInf_isFinite hx hy,
      fdiv_of_isInf_isFinite hx hy⟩
  case finiteInf =>
    rw [← hsigned]
    refine ⟨fadd_of_isFinite_isInf hx hy, ?_, fmul_of_isFinite_isInf hx hy, ?_⟩
    · rw [fsub_of_isFinite_isInf hx hy]; cases signBit y <;> rfl
    · rw [fdiv_of_isFinite_isInf hx hy]; cases signBit x <;> cases signBit y <;> rfl

end

section
/-! PROOFS. The step (10_state.md R22, 60_exceptions.md R305) and the reach of a command (10_state.md R20, R21, R23):
a command that runs writes at most the registers its UNIT and INST name, the `INIT` bit among them. -/

namespace Sys2Proof.Machine

/-- A rejected transaction is answered with fault entry while no fault is pending (60_exceptions.md R290). -/
theorem rejectTransaction_of_not_faulted {s : State} (h : s.faulted = false) (e : DecodeError) (cmd : Word) :
    rejectTransaction e cmd s = takeFault (decodeFault e) cmd s := by
  simp [rejectTransaction, h]

/-! ### What a run of a command leaves unchanged -/

/-- From `s` to `t`, nothing at index `n` of a unit has changed unless the command names it, and no parameter. -/
def KeepsOtherInstances (i : Instr) (s t : State) (n : Nat) : Prop :=
  (¬ (instrUnit i = 1 ∧ (instrInst i).toNat = n) → t.piAt n = s.piAt n)
    ∧ (¬ (instrUnit i = 2 ∧ (instrInst i).toNat = n) → t.oscAt n = s.oscAt n)
    ∧ (¬ (instrUnit i = 3 ∧ (instrInst i).toNat = n) → t.winAt n = s.winAt n)
    ∧ (¬ (instrUnit i = 4 ∧ (instrInst i).toNat = n) → t.envAt n = s.envAt n)
    ∧ t.params = s.params

/-- A command that runs writes the result words and at most the registers it names, so no other instances. -/
theorem RanTo.keepsOtherInstances {i : Instr} {s t : State} (h : RanTo i s t) (n : Nat) :
    KeepsOtherInstances i s t n := by
  obtain ⟨ws, -, rfl | ⟨r, hu, -, -, -, rfl⟩ | ⟨r, hu, -, -, -, rfl⟩ | ⟨r, hu, -, -, -, rfl⟩
    | ⟨r, hu, -, -, -, rfl⟩⟩ := h
  · exact ⟨fun _ => rfl, fun _ => rfl, fun _ => rfl, fun _ => rfl, rfl⟩
  · exact ⟨fun hn => (piFrame_setPi _ s r ws).1 n fun h => hn ⟨hu, h.symm⟩, fun _ => rfl, fun _ => rfl, fun _ => rfl,
      rfl⟩
  · exact ⟨fun _ => rfl, fun hn => (oscFrame_setOsc _ s r ws).1 n fun h => hn ⟨hu, h.symm⟩, fun _ => rfl, fun _ => rfl,
      rfl⟩
  · exact ⟨fun _ => rfl, fun _ => rfl, fun hn => (winFrame_setWin _ s r ws).1 n fun h => hn ⟨hu, h.symm⟩, fun _ => rfl,
      rfl⟩
  · exact ⟨fun _ => rfl, fun _ => rfl, fun _ => rfl, fun hn => (envFrame_setEnv _ s r ws).1 n fun h => hn ⟨hu, h.symm⟩,
      rfl⟩

/-! ### The `INIT` bits after a write -/

/-- Two states whose other instances agree have the same `INIT` bits there. -/
theorem KeepsOtherInstances.unitInit_eq {i : Instr} {s t : State} {n : Nat} (h : KeepsOtherInstances i s t n)
    {unit : BitVec 4} (hn : ¬ (instrUnit i = unit ∧ (instrInst i).toNat = n)) :
    unitInit t unit n = unitInit s unit n := by
  obtain ⟨hpi, hosc, hwin, henv, -⟩ := h
  have hother (k : BitVec 4) (hk : unit.toNat = k.toNat) : ¬ (instrUnit i = k ∧ (instrInst i).toNat = n) := by
    rwa [← BitVec.eq_of_toNat_eq hk]
  unfold unitInit
  split
  next hu => rw [hpi (hother 1 hu)]
  next hu => rw [hosc (hother 2 hu)]
  next hu => rw [hwin (hother 3 hu)]
  next hu => rw [henv (hother 4 hu)]
  next => rfl

/-- The `INIT` bit a command names, after it ran: as before, or 1 where it was 1 or the command is a
construct command (10_state.md R23). -/
theorem RanTo.unitInit_own {i : Instr} {s t : State} (h : RanTo i s t) :
    unitInit t (instrUnit i) (instrInst i).toNat = unitInit s (instrUnit i) (instrInst i).toNat
      ∨ (unitInit t (instrUnit i) (instrInst i).toNat = true
          ∧ (isConstruct i = true ∨ unitInit s (instrUnit i) (instrInst i).toNat = true)) := by
  obtain ⟨ws, -, rfl | ⟨r, hu, -, hr, hinit, rfl⟩ | ⟨r, hu, -, hr, hinit, rfl⟩ | ⟨r, hu, -, hr, hinit, rfl⟩
    | ⟨r, hu, -, hr, hinit, rfl⟩⟩ := h
  · exact .inl rfl
  all_goals
    right
    rw [hu]
    exact ⟨by simpa [unitInit] using hr, hinit⟩

/-! ### What any command leaves unchanged: the status, a refusal and fault entry write no unit -/

theorem exec_keepsOtherInstances {i : Instr} {s t : State} (h : exec i s = .next t) (n : Nat) :
    KeepsOtherInstances i s t n := by
  rcases exec_next_cases h with ⟨-, rfl⟩ | ⟨-, -, rfl⟩ | ⟨-, c, -, rfl⟩ | ⟨-, hran⟩
  case inr.inr.inr => exact hran.keepsOtherInstances n
  all_goals exact ⟨fun _ => rfl, fun _ => rfl, fun _ => rfl, fun _ => rfl, rfl⟩

/-- An `INIT` bit after a command: as before, or 1 where the command names it, which was so before or is so by a
construct command (10_state.md R23). -/
theorem exec_unitInit_cases {i : Instr} {s t : State} (h : exec i s = .next t) (unit : BitVec 4) (inst : BitVec 8) :
    unitInit t unit inst.toNat = unitInit s unit inst.toNat
      ∨ (instrUnit i = unit ∧ instrInst i = inst ∧ unitInit t unit inst.toNat = true
          ∧ (isConstruct i = true ∨ unitInit s unit inst.toNat = true)) := by
  by_cases hown : instrUnit i = unit ∧ instrInst i = inst
  · obtain ⟨rfl, rfl⟩ := hown
    rcases exec_next_cases h with ⟨-, rfl⟩ | ⟨-, -, rfl⟩ | ⟨-, c, -, rfl⟩ | ⟨-, hran⟩
    case inr.inr.inr => exact hran.unitInit_own.imp_right fun hset => ⟨rfl, rfl, hset⟩
    all_goals exact .inl rfl
  · refine .inl ((exec_keepsOtherInstances h inst.toNat).unitInit_eq fun ⟨hunit, hinst⟩ => hown ⟨hunit, ?_⟩)
    exact BitVec.eq_of_toNat_eq hinst

end Sys2Proof.Machine

open Sys2Proof Sys2Proof.Machine

/-- Settles O45 by the branches of the step: the decoder's answer for the oldest delivery, or an empty inbox. -/
theorem stepRunsTheDecodedCommand : Obligations.StepRunsTheDecodedCommand := by
  refine ⟨fun s t rest i hs hd => ?decoded, fun t e hd s rest hs hf => ?rejected, fun s hs => ?idle⟩
  case decoded => simp [step, hs, performTransaction, hd]
  case rejected =>
    have hreject := rejectTransaction_of_not_faulted (s := { s with inbox := rest }) hf e t.cmd
    rw [decodeFault_eq] at hreject
    simp [step, hs, performTransaction, hd, hreject, takeFault]
  case idle => simp [step, hs]

/-- Settles O49: only a command that ran writes a unit, and a run writes the registers it names. -/
theorem instancesAreIndependent : Obligations.InstancesAreIndependent :=
  fun _ _ _ n h => exec_keepsOtherInstances h n

/-- Settles O48 by what an `INIT` bit can be after a command. -/
theorem initBitsAreSetOnlyByConstructCommands : Obligations.InitBitsAreSetOnlyByConstructCommands := by
  intro i s t unit inst h
  rcases exec_unitInit_cases h unit inst with hsame | ⟨hunit, hinst, hset, hcause⟩
  · rw [hsame]
    exact ⟨id, fun hclear hset => absurd hset (by simp [hclear])⟩
  · exact ⟨fun _ => hset, fun hclear _ => ⟨hcause.resolve_right (by simp [hclear]), hunit, hinst⟩⟩

end

section
/-! PROOFS. The invariant (10_state.md R23, R55; 00_scope.md R9; 42_envelope.md R201, R216, R217): what each write of
the machine keeps of it, so what a command, a rejection, a reset and so every step keeps. -/

namespace Sys2Proof.Machine

/-! ### An envelope in `note_off` is at `+0.0` -/

/-- In `note_off` the level is `+0.0` (42_envelope.md R201, R216, R217). -/
def ZeroInNoteOff (r : EnvRegs) : Prop := r.state = .noteOff → r.y = zeroF

/-- A register record whose state is not `note_off` has nothing to meet. -/
theorem zeroInNoteOff_of_ne {r : EnvRegs} (h : r.state ≠ .noteOff) : ZeroInNoteOff r := fun hs => absurd hs h

/-- A tick enters `note_off` from `release` and `note_release` alone, and then at `+0.0` (R216, R217). -/
theorem ZeroInNoteOff.envAdvance {r : EnvRegs} (h : ZeroInNoteOff r) : ZeroInNoteOff (envAdvance r) := by
  cases hs : r.state <;> simp only [Machine.envAdvance, hs]
  case noteOff => exact h
  case sustain => exact zeroInNoteOff_of_ne (by simp [tickSustain, hs])
  case attack =>
    refine zeroInNoteOff_of_ne ?_
    simp only [tickAttack]
    repeat' split
    all_goals simp [hs]
  case decay | legato =>
    refine zeroInNoteOff_of_ne ?_
    simp only [tickDecay, tickLegato]
    split <;> simp [hs]
  case release =>
    simp only [tickRelease]
    repeat' split
    · exact zeroInNoteOff_of_ne (by simp)
    · exact fun _ => rfl
    · exact zeroInNoteOff_of_ne (by simp [hs])
  case noteRelease =>
    simp only [tickNoteRelease]
    split
    · exact fun _ => rfl
    · exact zeroInNoteOff_of_ne (by simp [hs])

/-- Every state that the body answers has `ENV[n]` at `+0.0` in `note_off`. -/
def AnswersZeroInNoteOff (n : Nat) (body : Except FaultCode State) : Prop :=
  ∀ u, body = .ok u → ZeroInNoteOff (u.envAt n)

section Bodies

variable {s : State} {n : Nat}

theorem answersZero_withResult (hs : ZeroInNoteOff (s.envAt n)) (ws : List Word) :
    AnswersZeroInNoteOff n (pure (s.withResult ws)) := by
  intro u hu
  obtain rfl := (except_pure_ok _ _).1 hu
  exact hs

theorem answersZero_setEnv {r : EnvRegs} (hr : ZeroInNoteOff r) (ws : List Word) :
    AnswersZeroInNoteOff n (pure ((s.setEnv n r).withResult ws)) := by
  intro u hu
  obtain rfl := (except_pure_ok _ _).1 hu
  simpa using hr

theorem answersZero_bind {α : Type} {x : Except FaultCode α} {f : α → Except FaultCode State}
    (hf : ∀ a, x = .ok a → AnswersZeroInNoteOff n (f a)) : AnswersZeroInNoteOff n (x >>= f) := by
  intro u hu
  obtain ⟨a, ha, hfa⟩ := (except_bind_ok _ _ _).1 hu
  exact hf a ha u hfa

theorem answersZero_ite {c : Prop} [Decidable c] {x y : Except FaultCode State}
    (hx : AnswersZeroInNoteOff n x) (hy : AnswersZeroInNoteOff n y) :
    AnswersZeroInNoteOff n (if c then x else y) := by
  split
  · exact hx
  · exact hy

/-- A body that begins with the access to `ENV[inst]` goes on with registers that are at `+0.0` in `note_off`. -/
theorem answersZero_live {inst : BitVec 8} (hs : ZeroInNoteOff (s.envAt inst.toNat))
    {f : EnvRegs → Except FaultCode State}
    (hf : ∀ r, ZeroInNoteOff r → AnswersZeroInNoteOff inst.toNat (f r)) :
    AnswersZeroInNoteOff inst.toNat (liveEnv s inst >>= f) :=
  answersZero_bind fun r hr => hf r (((liveEnv_ok _ _ _).1 hr).2.2 ▸ hs)

/-- A refusal and fault entry write no envelope, so a performed command keeps what its body answers. -/
theorem zeroInNoteOff_of_perform {i : Instr} {t : State} {body : Except FaultCode State}
    (h : perform i s body = .next t) (hs : ZeroInNoteOff (s.envAt n)) (hbody : AnswersZeroInNoteOff n body) :
    ZeroInNoteOff (t.envAt n) := by
  rcases perform_cases i s body with ⟨-, hp⟩ | ⟨-, u, hu, hp⟩ | ⟨-, c, -, hp⟩ <;> rw [hp] at h <;>
    obtain rfl := Host.Outcome.next.inj h
  · exact hs
  · exact hbody u hu
  · exact hs

end Bodies

/-- The ENV commands keep their envelope at `+0.0` in `note_off`: a construct command starts there, a tick arrives
there, `ENV.TRIGGER`, `ENV.LEGATO` and `ENV.RELEASE` enter other states, and the rest leave `STATE` and `Y`. -/
theorem exec_keeps_zeroInNoteOff {i : Instr} {s t : State} (hu : instrUnit i = 4) (h : exec i s = .next t)
    (hs : ZeroInNoteOff (s.envAt (instrInst i).toNat)) : ZeroInNoteOff (t.envAt (instrInst i).toNat) := by
  cases i with
  | envInit inst attack decay slevel srate release sps =>
    exact zeroInNoteOff_of_perform h hs <| answersZero_bind fun _ _ => answersZero_bind fun _ _ =>
      answersZero_bind fun _ _ => answersZero_bind fun _ _ => answersZero_bind fun _ _ => answersZero_bind fun _ _ =>
      answersZero_bind fun _ _ => answersZero_setEnv (fun _ => rfl) _
  | envTick inst =>
    exact zeroInNoteOff_of_perform h hs <| answersZero_live hs fun r hr => answersZero_setEnv hr.envAdvance _
  | envTrigger inst ad level =>
    exact zeroInNoteOff_of_perform h hs <| answersZero_live hs fun r hr => answersZero_bind fun _ _ =>
      answersZero_ite (answersZero_setEnv (zeroInNoteOff_of_ne (by simp)) _) (answersZero_withResult hs _)
  | envLegato inst =>
    exact zeroInNoteOff_of_perform h hs <| answersZero_live hs fun r hr =>
      answersZero_ite (answersZero_setEnv (zeroInNoteOff_of_ne (by simp)) _) (answersZero_withResult hs _)
  | envRelease inst =>
    exact zeroInNoteOff_of_perform h hs <| answersZero_live hs fun r hr =>
      answersZero_ite (answersZero_withResult hs _) (answersZero_setEnv (zeroInNoteOff_of_ne (by simp)) _)
  | envDecay inst =>
    exact zeroInNoteOff_of_perform h hs <| answersZero_live hs fun r hr => answersZero_setEnv (by exact hr) _
  | envState inst =>
    exact zeroInNoteOff_of_perform h hs <| answersZero_live hs fun r hr => answersZero_withResult hs _
  | envSetAttack inst sec sps | envSetDecay inst sec sps | envSetSrate inst sec sps | envSetRelease inst sec sps
  | envSetSlevel inst gain =>
    exact zeroInNoteOff_of_perform h hs <| answersZero_live hs fun r hr => answersZero_bind fun _ _ =>
      answersZero_setEnv (by exact hr) _
  | envNoteOffLevel inst level =>
    exact zeroInNoteOff_of_perform h hs <| answersZero_live hs fun r hr => answersZero_bind fun _ _ =>
      answersZero_ite (answersZero_setEnv (by exact hr) _) (answersZero_withResult hs _)
  | envRd inst reg =>
    exact zeroInNoteOff_of_perform h hs <| answersZero_bind fun _ _ => answersZero_live hs fun r hr =>
      answersZero_bind fun _ _ => answersZero_withResult hs _
  | _ => simp [instrUnit, Instr.opcode, opcodeRow] at hu

/-! ### The clauses of the invariant -/

/-- A unit's list is in canonical form and lists what `listed` allows alone. -/
def unitWf {α : Type} [DecidableEq α] (d : α) (listed : Nat × α → Bool) (b : Bank α) : Bool :=
  bankWf d b && b.all listed

/-- The fault registers hold a fault exactly while `FAULTED` is 1 (10_state.md R55). -/
def State.faultRecordWf (s : State) : Bool :=
  if s.faulted then s.fcode != .none else s.fcode == .none && s.fcmd == 0

theorem wf_iff (s : State) :
    s.wf = true ↔ s.params.legal = true ∧ unitWf PiRegs.unset (listedPi s.params) s.pi = true
      ∧ unitWf OscRegs.unset (listedOsc s.params) s.osc = true
      ∧ unitWf WinRegs.unset (listedWin s.params) s.win = true
      ∧ unitWf EnvRegs.unset (listedEnv s.params) s.env = true ∧ s.faultRecordWf = true := by
  simp only [State.wf, unitWf, State.faultRecordWf, Bool.and_eq_true, and_assoc]

/-- A write of an entry that may be listed keeps a unit's clause. -/
theorem unitWf_bankSet {α : Type} [DecidableEq α] {d : α} {listed : Nat × α → Bool} {b : Bank α} {n : Nat} {r : α}
    (hb : unitWf d listed b = true) (hr : listed (n, r) = true) : unitWf d listed (bankSet d b n r) = true := by
  simp only [unitWf, Bool.and_eq_true, List.all_eq_true] at hb ⊢
  obtain ⟨hform, hlisted⟩ := hb
  refine ⟨bankWf_bankSet d b n r hform, fun e he => ?_⟩
  rcases mem_bankSet d b n r e he with rfl | he
  · exact hr
  · exact hlisted e he

theorem listedEnv_iff (p : Params) (e : Nat × EnvRegs) :
    listedEnv p e = true ↔ e.1 < p.nEnv ∧ e.2.init = true ∧ ZeroInNoteOff e.2 := by
  simp [listedEnv, ZeroInNoteOff, and_assoc, imp_iff_not_or]

/-- In a state that meets the invariant every envelope, listed or unset, is at `+0.0` in `note_off`. -/
theorem zeroInNoteOff_of_wf {s : State} (h : s.wf = true) (n : Nat) : ZeroInNoteOff (s.envAt n) := by
  obtain ⟨-, -, -, -, henv, -⟩ := (wf_iff s).1 h
  rcases bankGet_mem EnvRegs.unset s.env n with hmem | hunset
  · have hlisted := List.all_eq_true.1 (Bool.and_eq_true_iff.1 henv).2 _ hmem
    exact ((listedEnv_iff _ _).1 hlisted).2.2
  · rw [State.envAt, hunset]
    exact fun _ => rfl

/-! ### What each write keeps -/

@[simp] theorem wf_withResult (s : State) (ws : List Word) : (s.withResult ws).wf = s.wf := rfl

@[simp] theorem wf_refuseCommand (s : State) : (refuseCommand s).wf = s.wf := rfl

/-- Taking a delivery writes no register. -/
theorem wf_inbox (s : State) (rest : List HostEvent) : ({ s with inbox := rest } : State).wf = s.wf := rfl

section Writes

variable {s : State} (h : s.wf = true)
include h

theorem takeFault_wf {c : FaultCode} (hc : c ≠ .none) (cmd : Word) : (takeFault c cmd s).wf = true := by
  obtain ⟨hparams, hpi, hosc, hwin, henv, -⟩ := (wf_iff s).1 h
  exact (wf_iff _).2 ⟨hparams, hpi, hosc, hwin, henv, by simpa [State.faultRecordWf] using hc⟩

theorem applyReset_wf : (applyReset s).wf = true :=
  (wf_iff _).2 ⟨((wf_iff s).1 h).1, rfl, rfl, rfl, rfl, rfl⟩

theorem setPi_wf {n : Nat} {r : PiRegs} (hn : n < s.params.nPi) (hr : r.init = true) : (s.setPi n r).wf = true := by
  obtain ⟨hparams, hpi, hosc, hwin, henv, hrecord⟩ := (wf_iff s).1 h
  exact (wf_iff _).2 ⟨hparams, unitWf_bankSet hpi (by simp [listedPi, hn, hr]), hosc, hwin, henv, hrecord⟩

theorem setOsc_wf {n : Nat} {r : OscRegs} (hn : n < s.params.nOsc) (hr : r.init = true) :
    (s.setOsc n r).wf = true := by
  obtain ⟨hparams, hpi, hosc, hwin, henv, hrecord⟩ := (wf_iff s).1 h
  exact (wf_iff _).2 ⟨hparams, hpi, unitWf_bankSet hosc (by simp [listedOsc, hn, hr]), hwin, henv, hrecord⟩

theorem setWin_wf {n : Nat} {r : WinRegs} (hn : n < s.params.nWin) (hr : r.init = true) :
    (s.setWin n r).wf = true := by
  obtain ⟨hparams, hpi, hosc, hwin, henv, hrecord⟩ := (wf_iff s).1 h
  exact (wf_iff _).2 ⟨hparams, hpi, hosc, unitWf_bankSet hwin (by simp [listedWin, hn, hr]), henv, hrecord⟩

theorem setEnv_wf {n : Nat} {r : EnvRegs} (hn : n < s.params.nEnv) (hr : r.init = true) (hz : ZeroInNoteOff r) :
    (s.setEnv n r).wf = true := by
  obtain ⟨hparams, hpi, hosc, hwin, henv, hrecord⟩ := (wf_iff s).1 h
  exact (wf_iff _).2
    ⟨hparams, hpi, hosc, hwin, unitWf_bankSet henv ((listedEnv_iff _ _).2 ⟨hn, hr, hz⟩), hrecord⟩

/-- A rejected transaction keeps the invariant: every decode error has a fault code. -/
theorem rejectTransaction_wf (e : DecodeError) (cmd : Word) : (rejectTransaction e cmd s).wf = true := by
  unfold rejectTransaction
  split
  · rwa [wf_refuseCommand]
  · exact takeFault_wf h (by cases e <;> simp [decodeFault]) cmd

/-- Every command keeps the invariant. -/
theorem exec_wf {i : Instr} {t : State} (he : exec i s = .next t) : t.wf = true := by
  rcases exec_next_cases he with ⟨-, rfl⟩ | ⟨-, -, rfl⟩ | ⟨-, c, hc, rfl⟩ | ⟨-, ws, -, hran⟩
  case inl => rwa [wf_withResult]
  case inr.inl => rwa [wf_refuseCommand]
  case inr.inr.inl => exact takeFault_wf h hc _
  case inr.inr.inr =>
    rcases hran with rfl | ⟨r, -, hn, hr, -, rfl⟩ | ⟨r, -, hn, hr, -, rfl⟩ | ⟨r, -, hn, hr, -, rfl⟩
      | ⟨r, hu, hn, hr, -, rfl⟩ <;> rw [wf_withResult]
    · exact h
    · exact setPi_wf h hn hr
    · exact setOsc_wf h hn hr
    · exact setWin_wf h hn hr
    · have hz := exec_keeps_zeroInNoteOff hu he (zeroInNoteOff_of_wf h _)
      exact setEnv_wf h hn hr (by simpa using hz)

end Writes

end Sys2Proof.Machine

open Sys2Proof Sys2Proof.Machine

/-- Settles O52 by what a step can do: nothing, a command, a rejection or a reset. -/
theorem everyStepKeepsTheInvariant : Obligations.EveryStepKeepsTheInvariant := by
  intro s t h hstep
  have htaken (rest : List HostEvent) : ({ s with inbox := rest } : State).wf = true := (wf_inbox s rest).trans h
  rcases step_cases s with ⟨-, hs⟩ | ⟨_, rest, i, -, -, hs⟩ | ⟨tr, rest, e, -, -, hs⟩ | ⟨_, rest, -, hs⟩ <;>
    rw [hs] at hstep
  case inr.inl => exact exec_wf (htaken rest) hstep
  all_goals obtain rfl := Host.Outcome.next.inj hstep
  · exact h
  · exact rejectTransaction_wf (htaken rest) e tr.cmd
  · exact applyReset_wf (htaken rest)

end

section
/-! PROOFS. Completion (20_memory.md R65, 70_reset_and_hazards.md R316) and the bytes of a serialising host
(20_memory.md R63): a command answers a next state, and a byte stream is its words in order, four bytes each. -/

namespace Sys2Proof.Machine

/-! ### Every command and every step has a next state -/

theorem perform_next (i : Instr) (s : State) (body : Except FaultCode State) : ∃ t, perform i s body = .next t := by
  rcases perform_cases i s body with ⟨-, hrefused⟩ | ⟨-, t, -, hran⟩ | ⟨-, _, -, hfaulted⟩
  · exact ⟨_, hrefused⟩
  · exact ⟨t, hran⟩
  · exact ⟨_, hfaulted⟩

theorem exec_next (i : Instr) (s : State) : ∃ t, exec i s = .next t := by
  rcases exec_performs i s with ⟨-, hstatus⟩ | ⟨body, hperform, -⟩
  · exact ⟨_, hstatus⟩
  · rw [hperform]
    exact perform_next i s body

theorem step_next (s : State) : ∃ t, step s = .next t := by
  rcases step_cases s with ⟨-, hidle⟩ | ⟨_, _, i, -, -, hcommand⟩ | ⟨_, _, _, -, -, hrejected⟩ | ⟨_, _, -, hreset⟩
  · exact ⟨_, hidle⟩
  · rw [hcommand]
    exact exec_next i _
  · exact ⟨_, hrejected⟩
  · exact ⟨_, hreset⟩

end Sys2Proof.Machine

namespace Sys2Proof

/-! ### The bytes of a list of words -/

theorem bytesToWords_flatMap (ws : List Word) : bytesToWords (ws.flatMap wordToBytes) = some ws := by
  induction ws with
  | nil => rfl
  | cons w ws ih => rw [List.flatMap_cons, bytesToWords_cons, ih, Option.map_some]

@[simp] theorem length_wordToBytes (w : Word) : (wordToBytes w).length = 4 := rfl

/-- Byte `j` of a word holds its bits from `8 * j` (20_memory.md R63). -/
theorem wordToBytes_getElem? (w : Word) {j : Nat} (hj : j < 4) :
    (wordToBytes w)[j]? = some (w.extractLsb' (8 * j) 8) := by
  match j, hj with
  | 0, _ | 1, _ | 2, _ | 3, _ => rfl

/-- Word `k` of a byte stream stands at the bytes from `4 * k`. -/
theorem flatMap_wordToBytes_getElem? {ws : List Word} {k : Nat} {w : Word} (hw : ws[k]? = some w) {j : Nat}
    (hj : j < 4) : (ws.flatMap wordToBytes)[4 * k + j]? = (wordToBytes w)[j]? := by
  induction ws generalizing k with
  | nil => simp at hw
  | cons v ws ih =>
    rw [List.flatMap_cons]
    cases k with
    | zero =>
      obtain rfl : v = w := by simpa using hw
      rw [Nat.mul_zero, Nat.zero_add, List.getElem?_append_left (by simpa using hj)]
    | succ k =>
      rw [List.getElem?_append_right (by simp; omega), length_wordToBytes,
        show 4 * (k + 1) + j - 4 = 4 * k + j by omega]
      exact ih (by simpa using hw)

end Sys2Proof

open Sys2Proof Sys2Proof.Machine

/-- Settles O46: each kind of step ends in a next state, a command's by the ways it can be performed. -/
theorem everyStepCompletes : Obligations.EveryStepCompletes :=
  ⟨step_next, exec_next⟩

/-- Settles O56 by the words of the byte stream, read back and found at their places. -/
theorem littleEndianBytesReadBack : Obligations.LittleEndianBytesReadBack := by
  refine fun t => ⟨?readBack, fun k j w hw hj => ?byte⟩
  case readBack => rw [transactionOfBytes, transactionToBytes, bytesToWords_flatMap]
  case byte => rw [transactionToBytes, flatMap_wordToBytes_getElem? hw hj, wordToBytes_getElem? w hj]

end

section
/-! PROOFS. The encoding (30_encoding.md R81, R90, R92): the fields a command of an opcode can hold, and the decoder
and the encoder as inverse of each other through them. -/

namespace Sys2Proof

/-! ### The fields of a legal command word -/

/-- What a `MOD` field keeps of its value in a command (R87). -/
def heldMod : ModUse → BitVec 2 → BitVec 2
  | .zero, _ => 0
  | .mode, m => modOfMode (modeOfMod m)
  | .autoDecay, m => m

/-- The fields that a command of opcode `k` made from the fields `f` holds: `UNIT` and `OP` of its row, zeros where the
opcode has no `INST`, `REG` or `MOD` (R84 to R87). -/
def heldFields (k : Opcode) (f : CmdFields) : CmdFields :=
  fieldsWith k (if (opcodeRow k).unit = 0 then 0 else f.inst) (if (opcodeRow k).regCount = 0 then 0 else f.reg)
    (heldMod (opcodeRow k).mod f.mod)

theorem modAllowed_iff (k : Opcode) (m : BitVec 2) :
    modAllowed k m = true ↔ heldMod (opcodeRow k).mod m = m := by
  unfold modAllowed
  cases (opcodeRow k).mod with
  | zero => exact beq_iff_eq.trans eq_comm
  | mode => revert m; decide
  | autoDecay => exact iff_of_true rfl rfl

theorem regAllowed_iff (k : Opcode) (reg : BitVec 8) :
    regAllowed k reg = true ↔
      ((opcodeRow k).regCount = 0 → reg = 0)
        ∧ ((opcodeRow k).regCount = 0 ∨ reg.toNat < (opcodeRow k).regCount) := by
  unfold regAllowed
  split <;> simp_all

/-- A command word is legal exactly when its opcode's command would hold every one of its fields, and `REG` names a
register (R92). -/
theorem checkCmd_ok_iff_held {f : CmdFields} {k : Opcode} :
    checkCmd f = .ok k ↔ heldFields k f = f ∧ regAllowed k f.reg = true := by
  have hzero {n : Nat} {c : Prop} [Decidable c] (x : BitVec n) : (if c then 0 else x) = x ↔ (c → x = 0) := by
    split
    · simpa [*] using eq_comm
    · simp [*]
  obtain ⟨unit, op, inst, reg, reserved, mod⟩ := f
  simp only [checkCmd_ok, modAllowed_iff, regAllowed_iff, heldFields, fieldsWith, CmdFields.mk.injEq, hzero,
    eq_comm (a := (0 : BitVec 6))]
  tauto

/-! ### The command an opcode makes of a word's fields and operands -/

/-- `i` is the command of opcode `k` with the fields `f` and the operand words `ops`. -/
structure IsCommandOf (k : Opcode) (f : CmdFields) (ops : List Word) (i : Instr) : Prop where
  opcode : i.opcode = k
  fields : instrFields i = heldFields k f
  operands : instrOps i = ops

/-- `x` is the opcode's command where the operand count is the opcode's, and `badLength` where it is not (R88). -/
def AttachesTo (k : Opcode) (f : CmdFields) (ops : List Word) (x : Except DecodeError Instr) : Prop :=
  (ops.length = (opcodeRow k).nOps ∧ ∃ i, x = .ok i ∧ IsCommandOf k f ops i)
    ∨ (ops.length ≠ (opcodeRow k).nOps ∧ x = .error .badLength)

section Attach

variable {k : Opcode} {f : CmdFields}

theorem takeOps0_attachesTo {i : Instr} (hn : (opcodeRow k).nOps = 0) (hi : IsCommandOf k f [] i)
    (ops : List Word) : AttachesTo k f ops (takeOps0 i ops) := by
  unfold AttachesTo
  rw [hn]
  match ops with
  | [] => exact .inl ⟨rfl, i, rfl, hi⟩
  | _ :: _ => exact .inr ⟨by simp, rfl⟩

theorem takeOps1_attachesTo {mk : Word → Instr} (hn : (opcodeRow k).nOps = 1)
    (hi : ∀ a, IsCommandOf k f [a] (mk a)) (ops : List Word) : AttachesTo k f ops (takeOps1 mk ops) := by
  unfold AttachesTo
  rw [hn]
  match ops with
  | [a] => exact .inl ⟨rfl, _, rfl, hi a⟩
  | [] | _ :: _ :: _ => exact .inr ⟨by simp, rfl⟩

theorem takeOps2_attachesTo {mk : Word → Word → Instr} (hn : (opcodeRow k).nOps = 2)
    (hi : ∀ a b, IsCommandOf k f [a, b] (mk a b)) (ops : List Word) : AttachesTo k f ops (takeOps2 mk ops) := by
  unfold AttachesTo
  rw [hn]
  match ops with
  | [a, b] => exact .inl ⟨rfl, _, rfl, hi a b⟩
  | [] | [_] | _ :: _ :: _ :: _ => exact .inr ⟨by simp, rfl⟩

theorem takeOps6_attachesTo {mk : Word → Word → Word → Word → Word → Word → Instr} (hn : (opcodeRow k).nOps = 6)
    (hi : ∀ a b c d e g, IsCommandOf k f [a, b, c, d, e, g] (mk a b c d e g)) (ops : List Word) :
    AttachesTo k f ops (takeOps6 mk ops) := by
  unfold AttachesTo
  rw [hn]
  match ops with
  | [a, b, c, d, e, g] => exact .inl ⟨rfl, _, rfl, hi a b c d e g⟩
  | [] | [_] | [_, _] | [_, _, _] | [_, _, _, _] | [_, _, _, _, _] | _ :: _ :: _ :: _ :: _ :: _ :: _ :: _ =>
    exact .inr ⟨by simp, rfl⟩

end Attach

/-- Every opcode makes its command of the right number of operand words, and rejects any other number (R88, R90). -/
theorem attachOps_attachesTo (k : Opcode) (f : CmdFields) (ops : List Word) :
    AttachesTo k f ops (attachOps k f ops) := by
  cases k with
  | sysNop | sysStatus | piInc | piDec | piFirst | piLast | piRd | oscTick | oscRd | winTick | winRd | envTick
  | envLegato | envDecay | envRelease | envState | envRd =>
    exact takeOps0_attachesTo rfl (by constructor <;> rfl) ops
  | sysPhaseFrac32 | envTrigger | envSetSlevel | envNoteOffLevel =>
    exact takeOps1_attachesTo rfl (fun _ => by constructor <;> rfl) ops
  | sysPhaseFrac64 | sysPhaseFreq | piInit | piLoad | oscInit | oscConfig | winInit | winConfig | envSetAttack
  | envSetDecay | envSetSrate | envSetRelease =>
    exact takeOps2_attachesTo rfl (fun _ _ => by constructor <;> rfl) ops
  | envInit => exact takeOps6_attachesTo rfl (fun _ _ _ _ _ _ => by constructor <;> rfl) ops

/-! ### A command's own fields and operands -/

theorem heldFields_instrFields (i : Instr) : heldFields i.opcode (instrFields i) = instrFields i := by
  cases i with
  | piInit | piLoad =>
    simp [instrFields, heldFields, fieldsWith, heldMod, Instr.opcode, opcodeRow]
  | _ => rfl

/-- A command is well-formed exactly when its opcode allows its `REG` (R85). -/
theorem wellFormed_iff (i : Instr) : i.wellFormed = true ↔ regAllowed i.opcode (instrFields i).reg = true := by
  cases i <;> rfl

theorem attachOps_instr (i : Instr) : attachOps i.opcode (instrFields i) (instrOps i) = .ok i := by
  cases i with
  | piInit | piLoad => simp [attachOps, instrFields, fieldsWith, instrOps, Instr.opcode, takeOps2]
  | _ => rfl

theorem checkCmd_instrFields {i : Instr} (h : i.wellFormed = true) : checkCmd (instrFields i) = .ok i.opcode :=
  checkCmd_ok_iff_held.2 ⟨heldFields_instrFields i, (wellFormed_iff i).1 h⟩

theorem decode_encode {i : Instr} (h : i.wellFormed = true) : decode (encode i) = .ok i :=
  decode_ok.2 ⟨i.opcode, by simpa [encode, cmdWord] using checkCmd_instrFields h,
    by simpa [encode, cmdWord] using attachOps_instr i⟩

theorem decode_of_encode_eq {i : Instr} {t : Transaction} (h : i.wellFormed = true) (ht : encode i = t) :
    decode t = .ok i :=
  ht ▸ decode_encode h

/-- What the decoder answers is the command of the word's opcode, with the word's fields and the operands. -/
theorem isCommandOf_of_decode {t : Transaction} {i : Instr} (h : decode t = .ok i) :
    checkCmd (cmdFields t.cmd) = .ok i.opcode ∧ IsCommandOf i.opcode (cmdFields t.cmd) t.ops i := by
  obtain ⟨k, hk, hi⟩ := decode_ok.1 h
  rcases attachOps_attachesTo k (cmdFields t.cmd) t.ops with ⟨-, j, hj, hcommand⟩ | ⟨-, herror⟩
  · obtain rfl : j = i := Except.ok.inj (hj.symm.trans hi)
    obtain rfl := hcommand.opcode
    exact ⟨hk, hcommand⟩
  · cases herror.symm.trans hi

end Sys2Proof

open Sys2Proof Sys2Proof.Machine

/-- Settles O53: a well-formed command's word passes the checks, and its opcode makes the command of it again. -/
theorem decodeOfEncodeIsTheCommand : Obligations.DecodeOfEncodeIsTheCommand :=
  fun _ => decode_encode

/-- Settles O54: the command holds every field of a legal word and every operand, so its encoding is the
transaction. -/
theorem encodeOfDecodeIsTheTransaction : Obligations.EncodeOfDecodeIsTheTransaction := by
  intro t i h
  obtain ⟨hlegal, hcommand⟩ := isCommandOf_of_decode h
  obtain ⟨hheld, hreg⟩ := checkCmd_ok_iff_held.1 hlegal
  have hfields : instrFields i = cmdFields t.cmd := hcommand.fields.trans hheld
  constructor
  · rw [encode, cmdWord, hfields, packCmd_cmdFields, hcommand.operands]
  · rwa [wellFormed_iff, hfields]

/-- Settles O55: each of the words is the encoding of its command. -/
theorem sampleWordsDecode : Obligations.SampleWordsDecode :=
  ⟨decode_of_encode_eq rfl (by decide), decode_of_encode_eq rfl (by decide), decode_of_encode_eq rfl (by decide),
    decode_of_encode_eq rfl (by decide), decode_of_encode_eq rfl (by decide), decode_of_encode_eq rfl (by decide)⟩

/-- Settles O57 by running the assembler on each line. -/
theorem sampleLinesAssemble : Obligations.SampleLinesAssemble := by
  unfold Obligations.SampleLinesAssemble
  decide +kernel

end

section
/-! PROOFS. The decoder against the rows of spec/opcode_table.json (30_encoding.md R88, R90, R92), and what becomes of a
transaction no row covers. -/

namespace Sys2Proof

/-! ### A command word under a mask -/

/-- The fields `f` under the mask `m`. -/
def CmdFields.masked (f m : CmdFields) : CmdFields :=
  ⟨f.unit &&& m.unit, f.op &&& m.op, f.inst &&& m.inst, f.reg &&& m.reg, f.reserved &&& m.reserved, f.mod &&& m.mod⟩

theorem packCmd_and (f m : CmdFields) : packCmd f &&& packCmd m = packCmd (f.masked m) := by
  apply BitVec.eq_of_getLsbD_eq
  intro n hn
  simp only [CmdFields.masked, BitVec.getLsbD_and, packCmd_getLsbD]
  split_ifs <;> rfl

theorem packCmd_inj {f g : CmdFields} : packCmd f = packCmd g ↔ f = g :=
  (Function.LeftInverse.injective cmdFields_packCmd).eq_iff

theorem packCmd_reg (f : CmdFields) : (packCmd f).toNat / 256 % 256 = f.reg.toNat := by
  have := f.reg.isLt
  have := f.reserved.isLt
  have := f.mod.isLt
  rw [packCmd_toNat]
  omega

/-! ### The table's rows from the opcode map -/

/-- The bits of `MOD` that an opcode fixes (R87). -/
def fixedMod : ModUse → BitVec 2
  | .zero => 3
  | .mode => 2
  | .autoDecay => 0

/-- The fields' bits that an opcode fixes: `UNIT`, `OP`, the reserved bits, and what its command holds no value of. -/
def fixedFields (k : Opcode) : CmdFields :=
  ⟨.allOnes 4, .allOnes 4, if (opcodeRow k).unit = 0 then .allOnes 8 else 0,
    if (opcodeRow k).regCount = 0 then .allOnes 8 else 0, .allOnes 6, fixedMod (opcodeRow k).mod⟩

theorem and_fixedMod_eq_zero_iff (k : Opcode) (m : BitVec 2) :
    m &&& fixedMod (opcodeRow k).mod = 0 ↔ modAllowed k m = true := by
  unfold modAllowed
  cases (opcodeRow k).mod <;> revert m <;> decide

end Sys2Proof

namespace Sys2Proof.Machine

/-- The row of spec/opcode_table.json for an opcode. -/
def TableRow.ofOpcode (k : Opcode) : TableRow :=
  ⟨packCmd (fieldsWith k 0 0 0), packCmd (fixedFields k), (opcodeRow k).nOps, (opcodeRow k).regCount⟩

theorem tableRows_eq : tableRows = allOpcodes.map TableRow.ofOpcode := by decide

theorem mem_allOpcodes (k : Opcode) : k ∈ allOpcodes := by
  cases k <;> decide

/-- An opcode's row covers exactly the legal words of that opcode (R92). -/
theorem ofOpcode_covers_iff (k : Opcode) (w : Word) :
    (TableRow.ofOpcode k).covers w ↔ checkCmd (cmdFields w) = .ok k := by
  have hones {n : Nat} (x : BitVec n) {c : Prop} [Decidable c] :
      x &&& (if c then BitVec.allOnes n else 0) = 0 ↔ (c → x = 0) := by
    split <;> simp [*]
  obtain ⟨f, rfl⟩ : ∃ f, packCmd f = w := ⟨cmdFields w, packCmd_cmdFields w⟩
  simp only [TableRow.covers, TableRow.ofOpcode, packCmd_and, packCmd_inj, packCmd_reg, cmdFields_packCmd,
    checkCmd_ok, regAllowed_iff, ← and_fixedMod_eq_zero_iff, CmdFields.masked, fixedFields, fieldsWith,
    CmdFields.mk.injEq, BitVec.and_allOnes, hones, eq_comm (b := f.unit), eq_comm (b := f.op)]
  tauto

/-- A row of the table covers a word exactly when it is the row of an opcode that the word is legal for. -/
theorem mem_tableRows_covers_iff (r : TableRow) (w : Word) :
    (r ∈ tableRows ∧ r.covers w) ↔ ∃ k, checkCmd (cmdFields w) = .ok k ∧ r = .ofOpcode k := by
  rw [tableRows_eq, List.mem_map]
  constructor
  · rintro ⟨⟨k, -, rfl⟩, hcovers⟩
    exact ⟨k, (ofOpcode_covers_iff k w).1 hcovers, rfl⟩
  · rintro ⟨k, hk, rfl⟩
    exact ⟨⟨k, mem_allOpcodes k, rfl⟩, (ofOpcode_covers_iff k w).2 hk⟩

/-! ### What a transaction answers, by its word and its operand count -/

theorem decode_of_legal {t : Transaction} {k : Opcode} (h : checkCmd (cmdFields t.cmd) = .ok k) :
    decode t = attachOps k (cmdFields t.cmd) t.ops := by
  rw [decode, h]
  rfl

theorem checkCmd_error_ne_badLength {f : CmdFields} {e : DecodeError} (h : checkCmd f = .error e) :
    e ≠ .badLength := by
  rintro rfl
  unfold checkCmd at h
  repeat' split at h
  all_goals cases h

/-- A word that is legal for no opcode is rejected at every length, and the step that takes it faults
`ILLEGAL_COMMAND` (R92). -/
theorem rejected_of_not_legal {t : Transaction} (h : ∀ k, checkCmd (cmdFields t.cmd) ≠ .ok k) :
    (∃ e, decode t = .error e ∧ decodeFault e = .illegalCommand) ∧ StepRaises t .illegalCommand := by
  cases hcheck : checkCmd (cmdFields t.cmd) with
  | ok k => exact absurd hcheck (h k)
  | error e =>
    have hne := checkCmd_error_ne_badLength hcheck
    have hdecode : decode t = .error e := by
      rw [decode, hcheck]
      rfl
    obtain ⟨-, hstep, -⟩ := stepRunsTheDecodedCommand
    refine ⟨⟨e, hdecode, by rw [decodeFault_eq, if_neg hne]⟩, ?_⟩
    simpa [hne] using hstep t e hdecode

end Sys2Proof.Machine

open Sys2Proof Sys2Proof.Machine

/-- Settles O41: the rows are the opcodes', a row covers the legal words of its opcode, and the opcode takes its number
of operand words alone. -/
theorem decoderAcceptsExactlyTheTable : Obligations.DecoderAcceptsExactlyTheTable := by
  intro t
  have hattaches (k : Opcode) (hk : checkCmd (cmdFields t.cmd) = .ok k) :
      AttachesTo k (cmdFields t.cmd) t.ops (decode t) :=
    decode_of_legal hk ▸ attachOps_attachesTo k (cmdFields t.cmd) t.ops
  refine ⟨fun huncovered => ?uncovered, fun r hr hcovers hlength => ?atLength, fun r hr hcovers hlength => ?otherLength⟩
  case uncovered =>
    refine rejected_of_not_legal fun k hk => ?_
    obtain ⟨hr, hcovers⟩ := (mem_tableRows_covers_iff _ t.cmd).2 ⟨k, hk, rfl⟩
    exact huncovered _ hr hcovers
  case atLength =>
    obtain ⟨k, hk, rfl⟩ := (mem_tableRows_covers_iff r t.cmd).1 ⟨hr, hcovers⟩
    rcases hattaches k hk with ⟨-, i, hi, -⟩ | ⟨hother, -⟩
    · exact ⟨i, hi⟩
    · exact absurd hlength hother
  case otherLength =>
    obtain ⟨k, hk, rfl⟩ := (mem_tableRows_covers_iff r t.cmd).1 ⟨hr, hcovers⟩
    rcases hattaches k hk with ⟨hsame, -⟩ | ⟨-, herror⟩
    · exact absurd hsame hlength
    · obtain ⟨-, hstep, -⟩ := stepRunsTheDecodedCommand
      exact ⟨herror, hstep t .badLength herror⟩

end

section
/-! PROOFS. The `INST` of a command (30_encoding.md R84) and its result words (R80): every command of a unit checks
`INST` against the count before anything else, and no later check raises `BAD_INSTANCE`. -/

namespace Sys2Proof.Machine

/-! ### A run's result words and fault flag -/

theorem RanTo.result_length_and_faulted {i : Instr} {s t : State} (h : RanTo i s t) :
    t.result.length = (opcodeRow i.opcode).nRes ∧ t.faulted = s.faulted := by
  obtain ⟨ws, hlength, rfl | ⟨r, -, -, -, -, rfl⟩ | ⟨r, -, -, -, -, rfl⟩ | ⟨r, -, -, -, -, rfl⟩
    | ⟨r, -, -, -, -, rfl⟩⟩ := h
  all_goals exact ⟨hlength, rfl⟩

theorem opcode_eq_sysStatus_iff (i : Instr) : i.opcode = .sysStatus ↔ i = .sysStatus := by
  cases i <;> simp [Instr.opcode]

/-! ### What follows the check of `INST` -/

/-- The body raises no `BAD_INSTANCE`, and a state it answers has the fault flag of `s`. -/
def FindsInstance (s : State) (body : Except FaultCode State) : Prop :=
  body ≠ .error .badInstance ∧ ∀ t, body = .ok t → t.faulted = s.faulted

section Bodies

variable {s : State}

theorem findsInstance_pure {t : State} (h : t.faulted = s.faulted) : FindsInstance s (pure t) := by
  refine ⟨except_pure_error _ _, fun u hu => ?_⟩
  obtain rfl := (except_pure_ok _ _).1 hu
  exact h

theorem findsInstance_bind {α : Type} {x : Except FaultCode α} {f : α → Except FaultCode State}
    (hx : x ≠ .error .badInstance) (hf : ∀ a, FindsInstance s (f a)) : FindsInstance s (x >>= f) := by
  refine ⟨fun h => ?_, fun t ht => ?_⟩
  · rcases (except_bind_error _ _ _).1 h with h | ⟨a, -, h⟩
    · exact hx h
    · exact (hf a).1 h
  · obtain ⟨a, -, ha⟩ := (except_bind_ok _ _ _).1 ht
    exact (hf a).2 t ha

theorem findsInstance_ite {c : Prop} [Decidable c] {x y : Except FaultCode State} (hx : FindsInstance s x)
    (hy : FindsInstance s y) : FindsInstance s (if c then x else y) := by
  split
  · exact hx
  · exact hy

end Bodies

theorem freqToPhase_ne_badInstance (f sps : Word) : freqToPhase f sps ≠ .error .badInstance := by
  simp [freqToPhase, -bind_pure_comp]

theorem oscCoef_ne_badInstance (f sps : Word) : oscCoef f sps ≠ .error .badInstance := by
  simp [oscCoef, -bind_pure_comp]

theorem winCoef_ne_badInstance (width sps : Word) : winCoef width sps ≠ .error .badInstance := by
  simp [winCoef, oscCoef_ne_badInstance, -bind_pure_comp]

theorem envCoef_ne_badInstance (sec sps : Word) : envCoef sec sps ≠ .error .badInstance := by
  simp [envCoef, -bind_pure_comp]

/-! ### Every command of a unit checks its `INST` first -/

/-- `i` is performed by the check of its `INST` against its unit's count, and then by a body that raises no
`BAD_INSTANCE`. -/
def ChecksInstance (i : Instr) (s : State) : Prop :=
  ∃ body : Unit → Except FaultCode State,
    exec i s = perform i s (checkInst (unitCount s (instrUnit i)) (instrInst i) >>= body) ∧ FindsInstance s (body ())

section Commands

variable {i : Instr} {s : State}

/-- A command that begins with the access to the constructed registers its `INST` names. -/
theorem checksInstance_of_live {α : Type} {live : Except FaultCode α} {f : α → Except FaultCode State} {init : Bool}
    {r : α} (he : exec i s = perform i s (live >>= f))
    (hlive : live = do
      checkInst (unitCount s (instrUnit i)) (instrInst i)
      checkInit init
      return r)
    (hf : ∀ r, FindsInstance s (f r)) : ChecksInstance i s := by
  refine ⟨fun _ => checkInit init >>= fun _ => f r, ?_, findsInstance_bind (by simp) fun _ => hf r⟩
  simp only [he, hlive, bind_assoc, pure_bind]

/-- The readback of a register its unit has (R85). -/
theorem checksInstance_of_rd {α : Type} {live : Except FaultCode α} {init : Bool} {r : α} {reg : BitVec 8}
    {g : α → Option Word} (hreg : regAllowed i.opcode reg = true)
    (he : exec i s = perform i s (do
      checkReg i.opcode reg
      let r ← live
      let v ← readRegister (g r)
      return s.withResult [v]))
    (hlive : live = do
      checkInst (unitCount s (instrUnit i)) (instrInst i)
      checkInit init
      return r) : ChecksInstance i s := by
  have hchecked : checkReg i.opcode reg = pure () := (checkReg_ok _ _ _).2 hreg
  rw [hchecked, pure_bind] at he
  exact checksInstance_of_live he hlive fun _ =>
    findsInstance_bind (by simp) fun _ => findsInstance_pure rfl

end Commands

/-- Every well-formed command of PI, OSC, WIN and ENV, the construct commands too, checks its `INST` first (R84,
60_exceptions.md R290). -/
theorem exec_checksInstance {i : Instr} (hwf : i.wellFormed = true) (hu : instrUnit i ≠ 0) (s : State) :
    ChecksInstance i s := by
  have hreg := (wellFormed_iff i).1 hwf
  cases i with
  | sysNop | sysPhaseFrac32 | sysPhaseFrac64 | sysPhaseFreq | sysStatus => exact absurd rfl hu
  | piInit => exact ⟨_, rfl, findsInstance_bind (freqToPhase_ne_badInstance _ _) fun _ => findsInstance_pure rfl⟩
  | piLoad => exact ⟨_, rfl, findsInstance_pure rfl⟩
  | oscInit => exact ⟨_, rfl, findsInstance_bind (oscCoef_ne_badInstance _ _) fun _ => findsInstance_pure rfl⟩
  | winInit => exact ⟨_, rfl, findsInstance_bind (winCoef_ne_badInstance _ _) fun _ => findsInstance_pure rfl⟩
  | envInit =>
    exact ⟨_, rfl, findsInstance_bind (by simp) fun _ => findsInstance_bind (by simp) fun _ =>
      findsInstance_bind (by simp) fun _ => findsInstance_bind (by simp) fun _ => findsInstance_bind (by simp) fun _ =>
      findsInstance_bind (by simp) fun _ => findsInstance_pure rfl⟩
  | piInc | piDec | piFirst | piLast | oscTick | winTick | envTick | envDecay | envState =>
    exact checksInstance_of_live rfl rfl fun _ => findsInstance_pure rfl
  | envLegato | envRelease =>
    exact checksInstance_of_live rfl rfl fun _ => findsInstance_ite (findsInstance_pure rfl) (findsInstance_pure rfl)
  | oscConfig =>
    exact checksInstance_of_live rfl rfl fun _ =>
      findsInstance_bind (oscCoef_ne_badInstance _ _) fun _ => findsInstance_pure rfl
  | winConfig =>
    exact checksInstance_of_live rfl rfl fun _ =>
      findsInstance_bind (winCoef_ne_badInstance _ _) fun _ => findsInstance_pure rfl
  | envSetAttack | envSetDecay | envSetSrate | envSetRelease =>
    exact checksInstance_of_live rfl rfl fun _ =>
      findsInstance_bind (envCoef_ne_badInstance _ _) fun _ => findsInstance_pure rfl
  | envSetSlevel =>
    exact checksInstance_of_live rfl rfl fun _ => findsInstance_bind (by simp) fun _ => findsInstance_pure rfl
  | envTrigger | envNoteOffLevel =>
    exact checksInstance_of_live rfl rfl fun _ => findsInstance_bind (by simp) fun _ =>
      findsInstance_ite (findsInstance_pure rfl) (findsInstance_pure rfl)
  | piRd | oscRd | winRd | envRd => exact checksInstance_of_rd hreg rfl rfl

section Answers

variable {i : Instr} {s : State} (h : ChecksInstance i s) (hs : s.faulted = false)
include h hs

theorem ChecksInstance.raises_badInstance (hmissing : unitCount s (instrUnit i) ≤ (instrInst i).toNat) :
    Raises i s .badInstance := by
  obtain ⟨body, he, -⟩ := h
  rw [Raises, he]
  exact perform_error hs i ((except_bind_error _ _ _).2 (.inl ((checkInst_error _ _ _).2 ⟨hmissing, rfl⟩)))

theorem ChecksInstance.not_badInstance {t : State} (ht : exec i s = .next t)
    (hpresent : (instrInst i).toNat < unitCount s (instrUnit i)) :
    ¬ (t.faulted = true ∧ t.fcode = .badInstance) := by
  obtain ⟨body, he, hne, hkeeps⟩ := h
  rw [checkInst_present hpresent] at he
  rcases perform_cases i s (body ()) with ⟨hf, -⟩ | ⟨-, u, hu, hp⟩ | ⟨-, c, hc, hp⟩
  · exact absurd hf (by simp [hs])
  · obtain rfl : u = t := Host.Outcome.next.inj (hp.symm.trans (he.symm.trans ht))
    simp [hkeeps u hu, hs]
  · obtain rfl := Host.Outcome.next.inj (hp.symm.trans (he.symm.trans ht))
    rintro ⟨-, rfl⟩
    exact hne hc

end Answers

end Sys2Proof.Machine

open Sys2Proof Sys2Proof.Machine

/-- Settles O39: every command of a unit checks its `INST` first, and a SYS word with `INST` other than 0 is legal
for no opcode. -/
theorem missingInstanceFaults : Obligations.MissingInstanceFaults := by
  refine ⟨fun i s t hs hwf hu ht => ?command, fun t hunit hinst => ?sysWord⟩
  case command =>
    have hchecks := exec_checksInstance hwf hu s
    exact ⟨hchecks.raises_badInstance hs, hchecks.not_badInstance hs ht⟩
  case sysWord =>
    refine rejected_of_not_legal fun k hk => ?_
    obtain ⟨hrow, -, hzero, -⟩ := checkCmd_ok.1 hk
    exact hinst (hzero (hrow.trans hunit))

/-- Settles O47 by what a command can do: the status returns two words, a refusal and fault entry none, and a run its
opcode's number. -/
theorem resultCountIsTheOpcodes : Obligations.ResultCountIsTheOpcodes := by
  intro i s t h
  by_cases hstatus : i = .sysStatus
  · subst hstatus
    obtain rfl := Host.Outcome.next.inj h
    exact (if_neg fun ⟨_, hne⟩ => hne rfl).symm
  have hopcode : i.opcode ≠ .sysStatus := mt (opcode_eq_sysStatus_iff i).1 hstatus
  rcases exec_next_cases h with ⟨hi, -⟩ | ⟨-, hs, rfl⟩ | ⟨-, c, -, rfl⟩ | ⟨hs, hran⟩
  · exact absurd hi hstatus
  · exact (if_pos ⟨hs, hopcode⟩).symm
  · exact (if_pos ⟨rfl, hopcode⟩).symm
  · obtain ⟨hlength, hfaulted⟩ := hran.result_length_and_faulted
    rw [hlength, hfaulted, hs]
    exact (if_neg fun ⟨hf, _⟩ => absurd hf (by simp)).symm

end

section
/-! PROOFS. The transaction a command is delivered as (30_encoding.md R80, R81, R88), and a command's answer from the
answer of its body. -/

namespace Sys2Proof.Machine

/-! ### The transaction of a command -/

/-- A command word is its opcode's word with `INST`, `REG` and `MOD` added at their places (R81). -/
theorem packCmd_fieldsWith (k : Opcode) (inst reg : BitVec 8) (mod : BitVec 2) :
    packCmd (fieldsWith k inst reg mod)
      = withInst (packCmd (fieldsWith k 0 0 0)) inst + BitVec.ofNat 32 (256 * reg.toNat) + mod.setWidth 32 := by
  apply BitVec.eq_of_toNat_eq
  have := (opcodeRow k).unit.isLt
  have := (opcodeRow k).op.isLt
  have := inst.isLt
  have := reg.isLt
  have := mod.isLt
  simp only [withInst, BitVec.toNat_add, BitVec.toNat_ofNat, BitVec.toNat_setWidth, packCmd_toNat, fieldsWith,
    BitVec.ofNat_eq_ofNat, Nat.zero_mod]
  omega

/-- A command has its opcode's number of operand words (R80, R90). -/
theorem length_instrOps (i : Instr) : (instrOps i).length = (opcodeRow i.opcode).nOps := by
  rcases attachOps_attachesTo i.opcode (instrFields i) (instrOps i) with ⟨hlength, -⟩ | ⟨-, herror⟩
  · exact hlength
  · cases herror.symm.trans (attachOps_instr i)

/-- A well-formed command is delivered as the word of its fields with its operand words, and in no other way. -/
theorem deliveredAs_of_fields {i : Instr} {f : CmdFields} {cmd : Word} (hwf : i.wellFormed = true)
    (hfields : instrFields i = f) (hword : packCmd f = cmd) : DeliveredAs i cmd (instrOps i) := by
  subst hfields hword
  change DeliveredAs i (cmdWord i) (instrOps i)
  have hlegal : checkCmd (cmdFields (cmdWord i)) = .ok i.opcode := by
    rw [cmdWord, cmdFields_packCmd, checkCmd_instrFields hwf]
  have hdecode : decode ⟨cmdWord i, instrOps i⟩ = .ok i := decode_of_encode_eq hwf rfl
  refine ⟨fun t => ⟨fun h => ?_, fun h => h ▸ hdecode⟩, fun ops' hlength => ?_⟩
  · obtain ⟨hencode, -⟩ := encodeOfDecodeIsTheTransaction t i h
    exact hencode.symm
  · rw [decode_of_legal (t := ⟨cmdWord i, ops'⟩) hlegal]
    rcases attachOps_attachesTo i.opcode (cmdFields (cmdWord i)) ops' with ⟨hsame, -⟩ | ⟨-, herror⟩
    · exact absurd (hsame.trans (length_instrOps i).symm) hlength
    · exact herror

/-- A command that holds an `INST` alone is delivered as its opcode's word with that `INST`. -/
theorem deliveredAs_withInst {i : Instr} {k : Opcode} {inst : BitVec 8} {base : Word} (hwf : i.wellFormed = true)
    (hfields : instrFields i = fieldsWith k inst 0 0) (hbase : packCmd (fieldsWith k 0 0 0) = base) :
    DeliveredAs i (withInst base inst) (instrOps i) :=
  deliveredAs_of_fields hwf hfields (by rw [packCmd_fieldsWith, hbase]; simp)

/-! ### A command's answer from its body's -/

section Answers

variable {i : Instr} {s : State} {body : Except FaultCode State} (hs : s.faulted = false)
  (he : exec i s = perform i s body)
include hs he

theorem raises_of_body_error {c : FaultCode} (hb : body = .error c) : Raises i s c :=
  he.trans (perform_error hs i hb)

theorem exec_of_body_ok {t : State} (hb : body = .ok t) : exec i s = .next t :=
  he.trans (perform_ok hs i hb)

end Answers

end Sys2Proof.Machine

end

section
/-! PROOFS. The converters (40_phase.md R120 to R124): a fraction's conversion by the exact value of its pattern,
binary32 and binary64 alike, and a frequency's by its operand checks. -/

namespace Sys2Proof.Machine

/-! ### A fraction's conversion -/

/-- The exact values `frac_to_phase` faults on: a NaN and a value below zero (R120). -/
def ExactValue.badFraction : ExactValue → Bool
  | .nan => true
  | .inf neg => neg
  | .fin neg num _ => neg && num != 0

theorem fracToPhase_of_bad {x : ExactValue} (h : x.badFraction = true) : fracToPhase x = .error .negativeFraction := by
  cases x with
  | nan => rfl
  | inf neg => exact if_pos h
  | fin neg num den => exact if_pos h

theorem fracToPhase_of_good {x : ExactValue} (h : x.badFraction ≠ true) :
    ∃ p, fracToPhase x = .ok p ∧ (∀ neg, x = .inf neg → p = phaseMax)
      ∧ ∀ neg num den, x = .fin neg num den → 0 < den →
          ∃ v : Nat, IsNearestEven v (num * 2 ^ 32 : Nat) den ∧ p.toNat = min v (2 ^ 32 - 1) := by
  cases x with
  | nan => exact absurd rfl h
  | inf neg =>
    obtain rfl : neg = false := Bool.eq_false_iff.2 h
    exact ⟨phaseMax, rfl, fun _ _ => rfl, fun _ _ _ h => by cases h⟩
  | fin neg num den =>
    refine ⟨_, if_neg h, fun _ heq => (by cases heq), fun _ _ _ heq hden => ?_⟩
    obtain ⟨rfl, rfl, rfl⟩ := ExactValue.fin.inj heq
    obtain ⟨p, hp, hv⟩ := fracToPhase_fin (Bool.eq_false_iff.2 h) hden
    obtain rfl := Except.ok.inj (hp.symm.trans (if_neg h))
    exact hv

/-- A value without the sign, or a zero, is not below zero: −0.0 is not negative (R120). -/
theorem not_sign_and_nonzero {neg : Bool} {zero : Prop} (h : neg = false ∨ zero) : ¬ (neg = true ∧ ¬ zero) := by
  rintro ⟨rfl, hne⟩
  exact hne (h.resolve_left Bool.noConfusion)

/-! ### The exact value of a binary32 pattern -/

section Exact32

variable {x : Word}

theorem exact32_of_isNaN (h : isNaN x = true) : exact32 x = .nan := by
  simp [exact32, h]

theorem exact32_of_isInf (h : isInf x = true) : exact32 x = .inf (signBit x) := by
  simp [exact32, h, isNaN_isFinite_of_isInf h]

theorem exact32_of_isFinite (h : isFinite x = true) : exact32 x = .fin (signBit x) (magUnits x) (2 ^ 149) := by
  simp [exact32, isNaN_isInf_of_isFinite h]

end Exact32

/-- A pattern is a NaN, an infinity or finite. -/
theorem isNaN_or_isInf_or_isFinite (x : Word) : isNaN x = true ∨ isInf x = true ∨ isFinite x = true := by
  rw [isNaN_iff, isInf_iff, isFinite_iff]
  omega

/-- A binary32 fraction is refused exactly when it is a NaN, or has the sign and is not −0.0 (R120). -/
theorem badFraction_exact32_iff (x : Word) :
    (exact32 x).badFraction = true ↔ isNaN x = true ∨ (signBit x = true ∧ fabs x ≠ 0) := by
  rcases isNaN_or_isInf_or_isFinite x with h | h | h
  · simp [exact32_of_isNaN h, h, ExactValue.badFraction]
  · have hne : fabs x ≠ 0#32 := fun hzero => absurd ((isInf_iff x).1 h) (by rw [hzero]; decide)
    simp [exact32_of_isInf h, isNaN_isFinite_of_isInf h, hne, ExactValue.badFraction]
  · have hzero : magUnits x = 0 ↔ fabs x = 0#32 := magUnits_zero_iff x
    simp [exact32_of_isFinite h, isNaN_isInf_of_isFinite h, hzero, ExactValue.badFraction]

/-! ### The exact value of a binary64 pattern -/

theorem expField64_eq (x : BitVec 64) : expField64 x = (x.setWidth 63).toNat / 2 ^ 52 := by
  rw [BitVec.toNat_setWidth, expField64, BitVec.extractLsb'_toNat, Nat.shiftRight_eq_div_pow]
  omega

theorem fracField64_eq (x : BitVec 64) : fracField64 x = (x.setWidth 63).toNat % 2 ^ 52 := by
  rw [BitVec.toNat_setWidth, fracField64, BitVec.extractLsb'_toNat, Nat.shiftRight_zero]
  omega

theorem setWidth_eq_zero_iff_fields (x : BitVec 64) :
    x.setWidth 63 = 0 ↔ expField64 x = 0 ∧ fracField64 x = 0 := by
  rw [expField64_eq, fracField64_eq, ← BitVec.toNat_inj, show (0 : BitVec 63).toNat = 0 from rfl]
  omega

/-- The magnitude is 0 exactly for the two zeros. -/
theorem magUnits64_eq_zero_iff (x : BitVec 64) : magUnits64 x = 0 ↔ x.setWidth 63 = 0 := by
  rw [setWidth_eq_zero_iff_fields, magUnits64]
  split
  next hexp => simp [hexp]
  next hexp => simp [hexp]

section Exact64

variable {x : BitVec 64}

theorem exact64_of_nan (hexp : expField64 x = 2047) (hfrac : fracField64 x ≠ 0) : exact64 x = .nan := by
  simp [exact64, hexp, hfrac]

theorem exact64_of_inf (hexp : expField64 x = 2047) (hfrac : fracField64 x = 0) :
    exact64 x = .inf (x.getLsbD 63) := by
  simp [exact64, hexp, hfrac]

theorem exact64_of_finite (hexp : expField64 x ≠ 2047) :
    exact64 x = .fin (x.getLsbD 63) (magUnits64 x) (2 ^ 1074) :=
  if_neg hexp

end Exact64

/-- A binary64 fraction is refused exactly when it is a NaN, or has the sign and is not −0.0 (R120, R122). -/
theorem badFraction_exact64_iff (x : BitVec 64) :
    (exact64 x).badFraction = true ↔
      (expField64 x = 2047 ∧ fracField64 x ≠ 0) ∨ (x.getLsbD 63 = true ∧ x.setWidth 63 ≠ 0) := by
  by_cases hexp : expField64 x = 2047
  · by_cases hfrac : fracField64 x = 0
    · have hne : x.setWidth 63 ≠ 0#63 := fun hzero =>
        absurd ((setWidth_eq_zero_iff_fields x).1 hzero) (by simp [hexp])
      simp [exact64_of_inf hexp hfrac, hexp, hfrac, hne, ExactValue.badFraction]
    · simp [exact64_of_nan hexp hfrac, hexp, hfrac, ExactValue.badFraction]
  · rw [exact64_of_finite hexp, ExactValue.badFraction]
    simp [hexp, magUnits64_eq_zero_iff]

/-! ### A frequency's conversion -/

section Frequency

variable {f sps : Word}

theorem freqToPhase_badFrequency (hf : isFinite f = false) : freqToPhase f sps = .error .badFrequency := by
  rw [freqToPhase, checkFrequency_bad hf]
  rfl

theorem freqToPhase_badSampleRate (hf : isFinite f = true) (hsps : ¬ PositiveFinite sps) :
    freqToPhase f sps = .error .badSampleRate := by
  rw [freqToPhase, checkFrequency_good hf, checkRate_bad hsps]
  rfl

/-- Operands that pass their checks have the nearest increment, modulo 2^32 (R123). -/
theorem freqToPhase_isNearest (hf : isFinite f = true) (hsps : PositiveFinite sps) :
    ∃ v : Int, IsNearestEven v (valueUnits f * 2 ^ 32) (magUnits sps)
      ∧ freqToPhase f sps = .ok (BitVec.ofInt 32 v) := by
  obtain ⟨v, hv, hvalue⟩ := freqToPhaseValue_isNearest f sps hsps
  refine ⟨v, hv, ?_⟩
  rw [freqToPhase, checkFrequency_good hf, checkRate_good hsps, hvalue]
  rfl

end Frequency

/-! ### A command that returns what its converter answers -/

section Converters

variable {i : Instr} {s : State} {x : Except FaultCode Word} (hs : s.faulted = false)
  (he : exec i s = perform i s (do
    let p ← x
    return s.withResult [p]))
include hs he

theorem raises_of_converter_error {c : FaultCode} (hx : x = .error c) : Raises i s c :=
  raises_of_body_error hs he (by rw [hx]; rfl)

theorem exec_of_converter_ok {p : Word} (hx : x = .ok p) : exec i s = .next { s with result := [p] } :=
  exec_of_body_ok hs he (by rw [hx]; rfl)

end Converters

end Sys2Proof.Machine

open Sys2Proof Sys2Proof.Machine

/-- Settles O3 by the classes of a binary32 pattern: the exact value decides the fault, the saturation and the nearest
phase. -/
theorem phaseFrac32ReturnsNearestPhase : Obligations.PhaseFrac32ReturnsNearestPhase := by
  refine fun x => ⟨deliveredAs_of_fields (f := fieldsWith .sysPhaseFrac32 0 0 0) rfl rfl (by decide),
    fun s hs => ⟨fun hbad => ?fault, fun hnan hsign => ?phase⟩⟩
  case fault =>
    exact raises_of_converter_error hs rfl (fracToPhase_of_bad ((badFraction_exact32_iff x).2 hbad))
  case phase =>
    have hgood : (exact32 x).badFraction ≠ true := by
      rw [Ne, badFraction_exact32_iff, hnan]
      exact not_or_intro Bool.false_ne_true (not_sign_and_nonzero hsign)
    obtain ⟨p, hp, hinf, hfin⟩ := fracToPhase_of_good hgood
    exact ⟨p, exec_of_converter_ok hs rfl hp, fun h => hinf _ (exact32_of_isInf h),
      fun h => hfin _ _ _ (exact32_of_isFinite h) (Nat.two_pow_pos 149)⟩

/-- Settles O4: the same conversion, of the exact value of the joined pattern. -/
theorem phaseFrac64ReturnsNearestPhase : Obligations.PhaseFrac64ReturnsNearestPhase := by
  refine fun lo hi => ⟨deliveredAs_of_fields (f := fieldsWith .sysPhaseFrac64 0 0 0) rfl rfl (by decide), ?_⟩
  rintro s x hs rfl
  refine ⟨fun hbad => ?fault, fun hnan hsign => ?phase⟩
  case fault =>
    exact raises_of_converter_error hs rfl (fracToPhase_of_bad ((badFraction_exact64_iff _).2 hbad))
  case phase =>
    have hgood : (exact64 (hi ++ lo)).badFraction ≠ true := by
      rw [Ne, badFraction_exact64_iff]
      exact not_or_intro hnan (not_sign_and_nonzero hsign)
    obtain ⟨p, hp, hinf, hfin⟩ := fracToPhase_of_good hgood
    refine ⟨p, exec_of_converter_ok hs rfl hp, fun h => hinf _ (exact64_of_inf h ?_),
      fun h => hfin _ _ _ (exact64_of_finite h) (pow_pos two_pos _)⟩
    by_contra hfrac
    exact hnan ⟨h, hfrac⟩

/-- Settles O5 by the operand checks in order. -/
theorem phaseFreqReturnsExactIncrement : Obligations.PhaseFreqReturnsExactIncrement := by
  refine fun f sps => ⟨deliveredAs_of_fields (f := fieldsWith .sysPhaseFreq 0 0 0) rfl rfl (by decide),
    fun s hs => ⟨fun hf => ?frequency, fun hf hsps => ?rate, fun hf hsps => ?increment⟩⟩
  case frequency => exact raises_of_converter_error hs rfl (freqToPhase_badFrequency hf)
  case rate => exact raises_of_converter_error hs rfl (freqToPhase_badSampleRate hf hsps)
  case increment =>
    obtain ⟨v, hv, hphase⟩ := freqToPhase_isNearest hf hsps
    exact ⟨v, hv, exec_of_converter_ok hs rfl hphase⟩

end

section
/-! PROOFS. The phase iterators (40_phase.md R125 to R132): a PI command on a slot and on a ready iterator, the answer
of each command, and an increment and a decrement as arithmetic on the phase. -/

namespace Sys2Proof.Machine

/-! ### A PI command by its checks -/

section Checks

variable {i : Instr} {s : State} {inst : BitVec 8}

/-- A construct command of PI checks its `INST` before anything else (R84, 60_exceptions.md R290). -/
theorem raises_badInstance_of_newPi {f : Unit → Except FaultCode State} (hs : s.faulted = false)
    (hmissing : s.params.nPi ≤ inst.toNat) (he : exec i s = perform i s (checkInst s.params.nPi inst >>= f)) :
    Raises i s .badInstance :=
  raises_of_body_error hs he (by rw [checkInst_missing hmissing]; rfl)

/-- On an iterator that exists a construct command of PI goes on with its operands, whatever the `INIT` bit. -/
theorem exec_newPi_of_slot {f : Unit → Except FaultCode State} (h : PiSlot s inst)
    (he : exec i s = perform i s (checkInst s.params.nPi inst >>= f)) : exec i s = perform i s (f ()) := by
  obtain ⟨-, hpresent⟩ := h
  rw [he, checkInst_present hpresent]
  rfl

/-- On a ready iterator a PI command goes on with its registers. -/
theorem exec_livePi_of_ready {f : PiRegs → Except FaultCode State} (h : PiReady s inst)
    (he : exec i s = perform i s (livePi s inst >>= f)) : exec i s = perform i s (f (s.piAt inst.toNat)) := by
  rw [he, livePi_ready h]
  rfl

end Checks

/-! ### The command word of a construct command -/

/-- `PI.INIT` and `PI.LOAD` hold `INST` and the mode, the mode in bit 0 (30_encoding.md R87). -/
theorem deliveredAs_withMode {i : Instr} {k : Opcode} {inst : BitVec 8} {mode : PiMode} {base : Word}
    (hwf : i.wellFormed = true) (hfields : instrFields i = fieldsWith k inst 0 (modOfMode mode))
    (hbase : packCmd (fieldsWith k 0 0 0) = base) :
    DeliveredAs i (withInst base inst + (if mode = .sat then 1 else 0)) (instrOps i) :=
  deliveredAs_of_fields hwf hfields (by rw [packCmd_fieldsWith, hbase]; cases mode <;> simp [modOfMode])

/-! ### What each PI command answers -/

/-- `PI[inst]` moved to a phase, which is the result (R127, R128). -/
def State.movePhase (s : State) (inst : BitVec 8) (p : Word) : State :=
  (s.setPi inst.toNat { s.piAt inst.toNat with phase := p }).withResult [p]

@[simp] theorem piAt_movePhase (s : State) (inst : BitVec 8) (p : Word) :
    (s.movePhase inst p).piAt inst.toNat = { s.piAt inst.toNat with phase := p } := by
  simp [State.movePhase]

theorem piFrame_movePhase (s : State) (inst : BitVec 8) (p : Word) : piFrame inst s (s.movePhase inst p) :=
  piFrame_setPi inst s _ _

section Ready

variable {s : State} {inst : BitVec 8} (h : PiReady s inst)
include h

theorem PiReady.movePhase (p : Word) : PiReady (s.movePhase inst p) inst := by
  obtain ⟨hs, hpresent, hinit⟩ := h
  exact ⟨hs, hpresent, by simpa using hinit⟩

theorem exec_piInc : exec (.piInc inst) s = .next (s.movePhase inst (phaseInc (s.piAt inst.toNat))) :=
  exec_of_body_ok h.1 (exec_livePi_of_ready h rfl) rfl

theorem exec_piDec : exec (.piDec inst) s = .next (s.movePhase inst (phaseDec (s.piAt inst.toNat))) :=
  exec_of_body_ok h.1 (exec_livePi_of_ready h rfl) rfl

theorem exec_piFirst :
    exec (.piFirst inst) s = .next { s with result := [boolWord (phaseFirst (s.piAt inst.toNat))] } :=
  exec_of_body_ok h.1 (exec_livePi_of_ready h rfl) rfl

theorem exec_piLast :
    exec (.piLast inst) s = .next { s with result := [boolWord (phaseLast (s.piAt inst.toNat))] } :=
  exec_of_body_ok h.1 (exec_livePi_of_ready h rfl) rfl

end Ready

/-! ### The boundary predicates -/

theorem phaseFirst_iff (r : PiRegs) : phaseFirst r = true ↔ r.phase.toNat < r.step.toNat :=
  decide_eq_true_iff

theorem phaseLast_iff (r : PiRegs) : phaseLast r = true ↔ 2 ^ 32 ≤ r.phase.toNat + r.step.toNat := by
  have := r.phase.isLt
  rw [phaseLast, BitVec.ult, decide_eq_true_iff, phaseMax_sub_toNat]
  omega

/-- After an increment in WRAP mode the phase is below the step exactly when the increment wrapped (R130). -/
theorem phaseFirst_phaseInc_iff {r : PiRegs} (hwrap : r.mode = .wrap) :
    phaseFirst { r with phase := phaseInc r } = true ↔ 2 ^ 32 ≤ r.phase.toNat + r.step.toNat := by
  have := r.phase.isLt
  have := r.step.isLt
  rw [phaseFirst_iff]
  simp only [phaseInc_toNat, hwrap, if_true]
  omega

/-! ### Increments and decrements in a row -/

theorem phaseDec_phaseInc {r : PiRegs} (hwrap : r.mode = .wrap) :
    phaseDec { r with phase := phaseInc r } = r.phase := by
  simp [phaseDec, phaseInc, hwrap]

theorem phaseInc_phaseDec {r : PiRegs} (hwrap : r.mode = .wrap) :
    phaseInc { r with phase := phaseDec r } = r.phase := by
  simp [phaseDec, phaseInc, hwrap]

section Saturating

variable {r : PiRegs} (hsat : r.mode = .sat)
include hsat

theorem phase_le_phaseInc : r.phase.toNat ≤ (phaseInc r).toNat := by
  have := r.phase.isLt
  rw [phaseInc_toNat, hsat, if_neg (by simp)]
  omega

theorem phaseDec_le_phase : (phaseDec r).toNat ≤ r.phase.toNat := by
  have hdec := phaseDec_toNat r
  rw [hsat, if_neg (by simp)] at hdec
  omega

/-- `PMAX` is the end of the increments: no phase is above it. -/
theorem phaseInc_of_phaseMax (hmax : r.phase = phaseMax) : phaseInc r = phaseMax := by
  have hle := phase_le_phaseInc hsat
  have hlt := (phaseInc r).isLt
  apply BitVec.eq_of_toNat_eq
  rw [hmax, phaseMax_toNat] at hle
  rw [phaseMax_toNat]
  omega

/-- 0 is the end of the decrements. -/
theorem phaseDec_of_zero (hzero : r.phase = 0) : phaseDec r = 0 := by
  have hle := phaseDec_le_phase hsat
  rw [hzero] at hle
  exact BitVec.eq_of_toNat_eq (Nat.le_zero.1 hle)

end Saturating

theorem repeatExec_succ {i : Instr} {s t : State} (h : exec i s = .next t) (n : Nat) :
    repeatExec i (n + 1) s = repeatExec i n t := by
  rw [repeatExec, h]

/-- `n` increments in WRAP mode add `n` steps to the phase, modulo `2^32`. -/
theorem repeatExec_piInc {s : State} {inst : BitVec 8} (h : PiReady s inst)
    (hwrap : (s.piAt inst.toNat).mode = .wrap) (n : Nat) :
    ∃ t, repeatExec (.piInc inst) n s = .next t
      ∧ t.piAt inst.toNat = { s.piAt inst.toNat with
          phase := (s.piAt inst.toNat).phase + BitVec.ofNat 32 n * (s.piAt inst.toNat).step } := by
  induction n generalizing s with
  | zero => exact ⟨s, rfl, by simp⟩
  | succ n ih =>
    obtain ⟨t, ht, hregs⟩ := ih (h.movePhase (phaseInc (s.piAt inst.toNat))) (by simpa using hwrap)
    refine ⟨t, (repeatExec_succ (exec_piInc h) n).trans ht, hregs.trans ?_⟩
    have hsum (p q : Word) : p + q + BitVec.ofNat 32 n * q = p + BitVec.ofNat 32 (n + 1) * q := by
      rw [BitVec.ofNat_add, show BitVec.ofNat 32 1 = 1 from rfl]
      ring
    simp [phaseInc, hwrap, hsum]

/-- Only a multiple of `2^32` steps of an odd size is 0, modulo `2^32`. -/
theorem ofNat_mul_eq_zero_iff {step : Word} (hodd : step.toNat % 2 = 1) (n : Nat) :
    BitVec.ofNat 32 n * step = 0 ↔ 2 ^ 32 ∣ n := by
  have hcoprime : Nat.Coprime (2 ^ 32) step.toNat :=
    ((Nat.coprime_two_left).2 (Nat.odd_iff.2 hodd)).pow_left 32
  rw [← BitVec.toNat_inj, BitVec.toNat_mul, BitVec.toNat_ofNat, Nat.mod_mul_mod]
  exact Nat.dvd_iff_mod_eq_zero.symm.trans hcoprime.dvd_mul_right

end Sys2Proof.Machine

open Sys2Proof Sys2Proof.Machine

/-- Settles O6 by the checks in order, that of `INST` and then the operands'. -/
theorem piInitConstructsAtPhaseZero : Obligations.PiInitConstructsAtPhaseZero := by
  refine fun inst mode f sps => ⟨deliveredAs_withMode rfl rfl (by decide), fun s =>
    ⟨fun hs hmissing => raises_badInstance_of_newPi hs hmissing rfl, fun hslot hf => ?frequency,
      fun hslot hf hsps => ?rate, fun hslot hf hsps => ?constructed⟩⟩
  case frequency =>
    exact raises_of_body_error hslot.1 (exec_newPi_of_slot hslot rfl) (by rw [freqToPhase_badFrequency hf]; rfl)
  case rate =>
    exact raises_of_body_error hslot.1 (exec_newPi_of_slot hslot rfl) (by rw [freqToPhase_badSampleRate hf hsps]; rfl)
  case constructed =>
    obtain ⟨v, hv, hstep⟩ := freqToPhase_isNearest hf hsps
    refine ⟨_, v, exec_of_body_ok hslot.1 (exec_newPi_of_slot hslot rfl) (by rw [hstep]; rfl), hv, ?_, rfl,
      piFrame_setPi inst s _ _⟩
    simp

/-- Settles O7: after the check of `INST` nothing is left to raise a fault. -/
theorem piLoadConstructsFromOperands : Obligations.PiLoadConstructsFromOperands := by
  refine fun inst mode phase step => ⟨deliveredAs_withMode rfl rfl (by decide), fun s =>
    ⟨fun hs hmissing => raises_badInstance_of_newPi hs hmissing rfl, fun hslot => ?constructed⟩⟩
  case constructed =>
    refine ⟨_, exec_of_body_ok hslot.1 (exec_newPi_of_slot hslot rfl) rfl, ?_, rfl, piFrame_setPi inst s _ _⟩
    simp

/-- Settles O8 by the value of an increment. -/
theorem piIncAdvancesByModeAndReturnsPhase : Obligations.PiIncAdvancesByModeAndReturnsPhase :=
  fun inst => ⟨deliveredAs_withInst rfl rfl (by decide), fun s => ⟨piChecks_of_live rfl, fun h =>
    ⟨_, _, exec_piInc h, phaseInc_toNat _, piAt_movePhase s inst _, rfl, piFrame_movePhase s inst _⟩⟩⟩

/-- Settles O9 by the value of a decrement. -/
theorem piDecRetreatsByModeAndReturnsPhase : Obligations.PiDecRetreatsByModeAndReturnsPhase :=
  fun inst => ⟨deliveredAs_withInst rfl rfl (by decide), fun s => ⟨piChecks_of_live rfl, fun h =>
    ⟨_, _, exec_piDec h, phaseDec_toNat _, piAt_movePhase s inst _, rfl, piFrame_movePhase s inst _⟩⟩⟩

/-- Settles O10: the compare, on any registers and on those an increment leaves. -/
theorem piFirstComparesPhaseWithStep : Obligations.PiFirstComparesPhaseWithStep := by
  refine fun inst => ⟨deliveredAs_withInst rfl rfl (by decide), fun s =>
    ⟨piChecks_of_live rfl, fun h => ?compare, fun h hwrap => ?afterIncrement⟩⟩
  case compare =>
    rw [exec_piFirst h, boolWord]
    simp only [phaseFirst_iff]
  case afterIncrement =>
    refine ⟨_, _, exec_piInc h, exec_piFirst (h.movePhase _), ?_⟩
    rw [piAt_movePhase]
    exact phaseFirst_phaseInc_iff hwrap

/-- Settles O11: `PMAX - PHASE` is below the step exactly when the sum leaves 32 bits. -/
theorem piLastTellsTheNextIncrementWraps : Obligations.PiLastTellsTheNextIncrementWraps :=
  fun inst => ⟨deliveredAs_withInst rfl rfl (by decide), fun s => ⟨piChecks_of_live rfl, fun h =>
    ⟨_, exec_piLast h, phaseLast_iff _⟩⟩⟩

/-- Settles O12 by the laws of the phase alone. -/
theorem iteratorLawsOfIncAndDec : Obligations.IteratorLawsOfIncAndDec := by
  intro inst s h
  refine ⟨_, _, _, _, exec_piInc h, exec_piDec (h.movePhase _), exec_piDec h, exec_piInc (h.movePhase _),
    fun hwrap => ?inverse, fun hsat => ?clamped⟩
  case inverse =>
    simp only [piAt_movePhase, phaseDec_phaseInc hwrap, phaseInc_phaseDec hwrap, and_self]
  case clamped =>
    simp only [piAt_movePhase]
    exact ⟨phase_le_phaseInc hsat, phaseDec_le_phase hsat, phaseInc_of_phaseMax hsat, phaseDec_of_zero hsat⟩

/-- Settles O13: `n` increments add `n` steps, and an odd step is coprime to `2^32`. -/
theorem fullCycleOfIncrementsRestoresPhase : Obligations.FullCycleOfIncrementsRestoresPhase := by
  intro inst s h hwrap
  refine ⟨?restored, fun hodd n hpos hlt => ?moved⟩
  case restored =>
    obtain ⟨t, ht, hregs⟩ := repeatExec_piInc h hwrap (2 ^ 32)
    have hcycle : BitVec.ofNat 32 (2 ^ 32) = 0 := by decide
    exact ⟨t, ht, by simpa [hcycle] using hregs⟩
  case moved =>
    obtain ⟨t, ht, hregs⟩ := repeatExec_piInc h hwrap n
    refine ⟨t, ht, ?_⟩
    rw [hregs, Ne, add_eq_left, ofNat_mul_eq_zero_iff hodd]
    exact Nat.not_dvd_of_pos_of_lt hpos hlt

end

section
/-! PROOFS. The oscillators and the window generators (41_oscillator.md R160 to R163, R180 to R183): the coefficients by
their operand checks, and a command's answer check by check. -/

namespace Sys2Proof.Machine

/-! ### A command's answer check by check -/

section Checks

variable {α : Type} {i : Instr} {s : State} {x : Except FaultCode α} {f : α → Except FaultCode State}
  (he : exec i s = perform i s (x >>= f))
include he

/-- A check that passes hands its value to the rest of the command. -/
theorem exec_of_check_ok {a : α} (hx : x = .ok a) : exec i s = perform i s (f a) := by
  rw [he, hx]
  rfl

/-- The first check that fails names the fault (60_exceptions.md R290). -/
theorem raises_of_check_error (hs : s.faulted = false) {c : FaultCode} (hx : x = .error c) : Raises i s c :=
  raises_of_body_error hs he (by rw [hx]; rfl)

end Checks

/-! ### The coefficient of an oscillator -/

section OscCoefficient

variable {f sps : Word}

theorem oscCoef_badFrequency (hf : isFinite f = false) : oscCoef f sps = .error .badFrequency := by
  rw [oscCoef, checkFrequency_bad hf]
  rfl

theorem oscCoef_badSampleRate (hf : isFinite f = true) (hsps : ¬ PositiveFinite sps) :
    oscCoef f sps = .error .badSampleRate := by
  rw [oscCoef, checkFrequency_good hf, checkRate_bad hsps]
  rfl

theorem oscCoef_good (hf : isFinite f = true) (hsps : PositiveFinite sps) :
    oscCoef f sps = .ok (oscCoefValue f sps) := by
  rw [oscCoef, checkFrequency_good hf, checkRate_good hsps]
  rfl

end OscCoefficient

/-! ### When a quotient overflows -/

/-- A rounded magnitude is finite below half a spacing above the largest finite value (00_scope.md R12). -/
theorem IsRN32.isFinite_iff {r : Word} {neg : Bool} {num den : Nat} (h : IsRN32 r neg num den) :
    isFinite r = true ↔ num < (2 ^ 25 - 1) * 2 ^ 103 * den := by
  obtain ⟨-, hnan, hinf, -⟩ := h
  rw [← not_le, ← hinf]
  refine ⟨fun hfin => ?_, fun hnotInf => ?_⟩
  · simp [(isNaN_isInf_of_isFinite hfin).2]
  · simpa [hnan, hnotInf] using isNaN_or_isInf_or_isFinite r

/-- A finite quotient stays finite under a smaller dividend. -/
theorem isFinite_fdiv_of_magUnits_le {x z y : Word} (hx : isFinite x = true) (hz : isFinite z = true)
    (hy : PositiveFinite y) (hle : magUnits x ≤ magUnits z) (hquot : isFinite (fdiv z y) = true) :
    isFinite (fdiv x y) = true := by
  have hne : magUnits y ≠ 0 := (magUnits_pos hy).ne'
  rw [(fdiv_isRN32 hz hy.1 hne).isFinite_iff] at hquot
  rw [(fdiv_isRN32 hx hy.1 hne).isFinite_iff]
  exact hle.trans_lt hquot

/-! ### The coefficients of a window generator -/

section WinCoefficients

variable {width sps : Word}

/-- A width that fails a check faults whatever the sample rate is (60_exceptions.md R290 check 5; log entry 17). -/
theorem winCoef_badDuration (h : PositiveFinite width → isFinite (fdiv 0x40000000 width) = false) :
    winCoef width sps = .error .badDuration := by
  rw [winCoef, checkWidth_bad h]
  rfl

variable (hwidth : PositiveFinite width) (htwo : isFinite (fdiv 0x40000000 width) = true)
include hwidth htwo

theorem winCoef_badSampleRate (hsps : ¬ PositiveFinite sps) : winCoef width sps = .error .badSampleRate := by
  rw [winCoef, checkWidth_good hwidth htwo, checkRate_bad hsps]
  rfl

/-- The frequency checks of the two coefficients cannot fail: `2/width` is finite, so `1/width` is too. -/
theorem winCoef_good (hsps : PositiveFinite sps) :
    winCoef width sps = .ok (oscCoefValue (fdiv oneF width) sps, oscCoefValue (fdiv twoF width) sps) := by
  have hone : isFinite (fdiv oneF width) = true :=
    isFinite_fdiv_of_magUnits_le (z := twoF) (by decide) (by decide) hwidth (by decide) htwo
  rw [winCoef, checkWidth_good hwidth htwo, checkRate_good hsps, oscCoef_good hone hsps,
    oscCoef_good (f := fdiv twoF width) htwo hsps]
  rfl

end WinCoefficients

/-! ### The registers a command has written -/

theorem oscAt_setOsc_same (s : State) (n : Nat) (r : OscRegs) (ws : List Word) :
    ((s.setOsc n r).withResult ws).oscAt n = r := by
  simp

theorem winAt_setWin_same (s : State) (n : Nat) (r : WinRegs) (ws : List Word) :
    ((s.setWin n r).withResult ws).winAt n = r := by
  simp

end Sys2Proof.Machine

open Sys2Proof Sys2Proof.Machine

/-- Settles O17 by the checks in order: `INST`, the width, the sample rate. -/
theorem winInitStartsBothOscillators : Obligations.WinInitStartsBothOscillators := by
  refine fun inst width sps => ⟨deliveredAs_withInst rfl rfl (by decide), fun s =>
    ⟨fun hs hmissing => raises_of_check_error rfl hs (checkInst_missing hmissing), fun ⟨hs, hpresent⟩ hwidth => ?width,
      fun ⟨hs, hpresent⟩ _ htwo => ?overflow, fun ⟨hs, hpresent⟩ hwidth htwo hsps => ?rate,
      fun ⟨hs, hpresent⟩ hwidth hsps htwo => ?started⟩⟩
  all_goals have he := exec_of_check_ok (i := .winInit inst width sps) (s := s) rfl (checkInst_present hpresent)
  case width => exact raises_of_check_error he hs (winCoef_badDuration fun h => absurd h hwidth)
  case overflow => exact raises_of_check_error he hs (winCoef_badDuration fun _ => htwo)
  case rate => exact raises_of_check_error he hs (winCoef_badSampleRate hwidth htwo hsps)
  case started =>
    exact ⟨_, exec_of_body_ok hs (exec_of_check_ok he (winCoef_good hwidth htwo hsps)) rfl,
      winAt_setWin_same s inst.toNat _ _, rfl, winFrame_setWin inst s _ _⟩

/-- Settles O18: on a ready generator the operands are checked as in `WIN.INIT`. -/
theorem winConfigKeepsBothStates : Obligations.WinConfigKeepsBothStates := by
  refine fun inst width sps => ⟨deliveredAs_withInst rfl rfl (by decide), fun s =>
    ⟨winChecks_of_live rfl, fun h hwidth => ?width, fun h _ htwo => ?overflow, fun h hwidth htwo hsps => ?rate,
      fun h hwidth hsps htwo => ?configured⟩⟩
  all_goals
    have hs : s.faulted = false := h.1
    have he := exec_of_check_ok (i := .winConfig inst width sps) rfl (liveWin_ready h)
  case width => exact raises_of_check_error he hs (winCoef_badDuration fun hw => absurd hw hwidth)
  case overflow => exact raises_of_check_error he hs (winCoef_badDuration fun _ => htwo)
  case rate => exact raises_of_check_error he hs (winCoef_badSampleRate hwidth htwo hsps)
  case configured =>
    exact ⟨_, exec_of_body_ok hs (exec_of_check_ok he (winCoef_good hwidth htwo hsps)) rfl,
      winAt_setWin_same s inst.toNat _ _, rfl, winFrame_setWin inst s _ _⟩

/-- Settles O14 by the checks in order: `INST`, the frequency, the sample rate. -/
theorem oscInitStartsAtCosineOneSineZero : Obligations.OscInitStartsAtCosineOneSineZero := by
  refine fun inst f sps => ⟨deliveredAs_withInst rfl rfl (by decide), fun s =>
    ⟨fun hs hmissing => raises_of_check_error rfl hs (checkInst_missing hmissing), fun ⟨hs, hpresent⟩ hf => ?frequency,
      fun ⟨hs, hpresent⟩ hf hsps => ?rate, fun ⟨hs, hpresent⟩ hf hsps => ?started⟩⟩
  all_goals have he := exec_of_check_ok (i := .oscInit inst f sps) (s := s) rfl (checkInst_present hpresent)
  case frequency => exact raises_of_check_error he hs (oscCoef_badFrequency hf)
  case rate => exact raises_of_check_error he hs (oscCoef_badSampleRate hf hsps)
  case started =>
    exact ⟨_, exec_of_body_ok hs (exec_of_check_ok he (oscCoef_good hf hsps)) rfl,
      oscAt_setOsc_same s inst.toNat _ _, rfl, oscFrame_setOsc inst s _ _⟩

/-- Settles O15: on a ready oscillator the operands are checked as in `OSC.INIT`. -/
theorem oscConfigKeepsTheState : Obligations.OscConfigKeepsTheState := by
  refine fun inst f sps => ⟨deliveredAs_withInst rfl rfl (by decide), fun s =>
    ⟨oscChecks_of_live rfl, fun h hf => ?frequency, fun h hf hsps => ?rate, fun h hf hsps => ?configured⟩⟩
  all_goals
    have hs : s.faulted = false := h.1
    have he := exec_of_check_ok (i := .oscConfig inst f sps) rfl (liveOsc_ready h)
  case frequency => exact raises_of_check_error he hs (oscCoef_badFrequency hf)
  case rate => exact raises_of_check_error he hs (oscCoef_badSampleRate hf hsps)
  case configured =>
    exact ⟨_, exec_of_body_ok hs (exec_of_check_ok he (oscCoef_good hf hsps)) rfl,
      oscAt_setOsc_same s inst.toNat _ _, rfl, oscFrame_setOsc inst s _ _⟩

/-- Settles O16: a ready oscillator's tick writes the pair of one step of the recurrence and returns it. -/
theorem oscTickAppliesTheSequentialRecurrence : Obligations.OscTickAppliesTheSequentialRecurrence := by
  refine fun inst => ⟨deliveredAs_withInst rfl rfl (by decide), fun s => ⟨oscChecks_of_live rfl, fun h => ?tick⟩⟩
  case tick =>
    have he := exec_of_check_ok (i := .oscTick inst) rfl (liveOsc_ready h)
    exact ⟨_, _, _, exec_of_body_ok h.1 he rfl, rfl, rfl, oscAt_setOsc_same s inst.toNat _ _, rfl,
      oscFrame_setOsc inst s _ _⟩

/-- Settles O19: a ready generator's tick steps each oscillator by the recurrence of its own registers, and the sum is
of the two new cosines. -/
theorem winTickReturnsTheBlackmanSum : Obligations.WinTickReturnsTheBlackmanSum := by
  refine fun inst => ⟨deliveredAs_withInst rfl rfl (by decide), fun s => ⟨winChecks_of_live rfl, fun h => ?tick⟩⟩
  case tick =>
    have he := exec_of_check_ok (i := .winTick inst) rfl (liveWin_ready h)
    exact ⟨_, _, _, _, _, exec_of_body_ok h.1 he rfl, rfl, rfl, rfl, rfl, winAt_setWin_same s inst.toNat _ _, rfl,
      winFrame_setWin inst s _ _⟩

end

section
/-! PROOFS. The envelope generators (42_envelope.md R200 to R231): a command's answer by its checks, a tick by the state
it starts in, and the transitions of a tick. -/

namespace Sys2Proof.Machine

/-! ### An ENV command by its checks -/

/-- The command runs on its envelope: it holds `r` after it, the result words are `ws`, nothing else has changed. -/
def EnvRunsTo (i : Instr) (inst : BitVec 8) (s : State) (r : EnvRegs) (ws : List Word) : Prop :=
  ∃ t : State, exec i s = .next t ∧ t.result = ws ∧ envFrame inst s t ∧ t.envAt inst.toNat = r

section Checks

variable {i : Instr} {s : State} {inst : BitVec 8}

/-- On a ready envelope an ENV command goes on with its registers. -/
theorem exec_liveEnv_of_ready {f : EnvRegs → Except FaultCode State} (h : EnvReady s inst)
    (he : exec i s = perform i s (liveEnv s inst >>= f)) : exec i s = perform i s (f (s.envAt inst.toNat)) :=
  exec_of_check_ok he (liveEnv_ready h)

variable (hs : s.faulted = false)
include hs

theorem envRunsTo_of_write {r : EnvRegs} {ws : List Word}
    (he : exec i s = perform i s (pure ((s.setEnv inst.toNat r).withResult ws))) : EnvRunsTo i inst s r ws :=
  ⟨_, exec_of_body_ok hs he rfl, rfl, envFrame_setEnv inst s r ws, by simp⟩

theorem envRunsTo_of_return {ws : List Word} (he : exec i s = perform i s (pure (s.withResult ws))) :
    EnvRunsTo i inst s (s.envAt inst.toNat) ws :=
  ⟨_, exec_of_body_ok hs he rfl, rfl, envFrame_withResult inst s ws, rfl⟩

/-- A command that writes under a condition leaves its envelope alone where the condition fails. -/
theorem envRunsTo_of_conditional_write {c : Prop} [Decidable c] {r : EnvRegs} {ws : List Word}
    (he : exec i s = perform i s
      (if c then pure ((s.setEnv inst.toNat r).withResult ws) else pure (s.withResult ws))) :
    EnvRunsTo i inst s (if c then r else s.envAt inst.toNat) ws := by
  split at he
  next hc => simpa only [if_pos hc] using envRunsTo_of_write hs he
  next hc => simpa only [if_neg hc] using envRunsTo_of_return hs he

end Checks

/-! ### The rate setters -/

section EnvCoefficient

variable {sec sps : Word}

theorem envCoef_badDuration (hsec : ¬ PositiveFinite sec) : envCoef sec sps = .error .badDuration := by
  rw [envCoef, checkDuration_bad hsec]
  rfl

theorem envCoef_badSampleRate (hsec : PositiveFinite sec) (hsps : ¬ PositiveFinite sps) :
    envCoef sec sps = .error .badSampleRate := by
  rw [envCoef, checkDuration_good hsec, checkRate_bad hsps]
  rfl

theorem envCoef_good (hsec : PositiveFinite sec) (hsps : PositiveFinite sps) :
    envCoef sec sps = .ok (envCoefValue sec sps) := by
  rw [envCoef, checkDuration_good hsec, checkRate_good hsps]
  rfl

end EnvCoefficient

/-- The command derives a coefficient from its two operands and stores it by `store` in the envelope it names. -/
def IsRateSetter (i : Instr) (inst : BitVec 8) (sec sps : Word) (store : EnvRegs → Word → EnvRegs) : Prop :=
  ∀ s : State, exec i s = perform i s (do
    let r ← liveEnv s inst
    let c ← envCoef sec sps
    return (s.setEnv inst.toNat (store r c)).withResult [])

section RateSetters

variable {i : Instr} {inst : BitVec 8} {sec sps : Word} {store : EnvRegs → Word → EnvRegs}
  (hi : IsRateSetter i inst sec sps store) {s : State}
include hi

/-- A rate setter checks the envelope it names, then the duration, then the sample rate (R200, 60_exceptions.md R290). -/
theorem IsRateSetter.checks :
    EnvChecks i inst s
      ∧ (EnvReady s inst → ¬ PositiveFinite sec → Raises i s .badDuration)
      ∧ (EnvReady s inst → PositiveFinite sec → ¬ PositiveFinite sps → Raises i s .badSampleRate) := by
  refine ⟨envChecks_of_live (hi s), fun h hsec => ?duration, fun h hsec hsps => ?rate⟩
  all_goals have he := exec_liveEnv_of_ready h (hi s)
  case duration => exact raises_of_check_error he h.1 (envCoef_badDuration hsec)
  case rate => exact raises_of_check_error he h.1 (envCoef_badSampleRate hsec hsps)

theorem IsRateSetter.runsTo (h : EnvReady s inst) (hsec : PositiveFinite sec) (hsps : PositiveFinite sps) :
    EnvRunsTo i inst s (store (s.envAt inst.toNat) (envCoefValue sec sps)) [] :=
  envRunsTo_of_write h.1 (exec_of_check_ok (exec_liveEnv_of_ready h (hi s)) (envCoef_good hsec hsps))

end RateSetters

/-! ### The tick -/

theorem envTickResult_eq (r : EnvRegs) :
    envTickResult r = if r.state = .noteOff then 0 else (envAdvance r).y := by
  cases hstate : r.state <;> simp [envTickResult, hstate, zeroF]

section Tick

variable {s : State} {inst : BitVec 8} (h : EnvReady s inst)
include h

theorem envTick_runsTo :
    EnvRunsTo (.envTick inst) inst s (envAdvance (s.envAt inst.toNat)) [envTickResult (s.envAt inst.toNat)] := by
  have he := exec_liveEnv_of_ready (i := .envTick inst) h rfl
  exact envRunsTo_of_write h.1 he

/-- What an advance of the registers is, a tick writes. -/
theorem envTick_writes {r r' : EnvRegs} (hr : r = s.envAt inst.toNat) (hadvance : envAdvance r = r') :
    ∃ t : State, exec (.envTick inst) s = .next t ∧ envFrame inst s t ∧ t.envAt inst.toNat = r' := by
  obtain ⟨t, ht, -, hframe, hregs⟩ := envTick_runsTo h
  exact ⟨t, ht, hframe, hregs.trans (hr ▸ hadvance)⟩

end Tick

section Advance

variable {r : EnvRegs}

theorem envAdvance_noteOff (h : r.state = .noteOff) : envAdvance r = r := by simp only [envAdvance, h]

theorem envAdvance_attack (h : r.state = .attack) : envAdvance r = tickAttack r := by simp only [envAdvance, h]

theorem envAdvance_legato (h : r.state = .legato) : envAdvance r = tickLegato r := by simp only [envAdvance, h]

theorem envAdvance_decay (h : r.state = .decay) : envAdvance r = tickDecay r := by simp only [envAdvance, h]

theorem envAdvance_sustain (h : r.state = .sustain) : envAdvance r = tickSustain r := by simp only [envAdvance, h]

theorem envAdvance_release (h : r.state = .release) : envAdvance r = tickRelease r := by simp only [envAdvance, h]

theorem envAdvance_noteRelease (h : r.state = .noteRelease) : envAdvance r = tickNoteRelease r := by
  simp only [envAdvance, h]

/-- `ite` on a Boolean, its two branches in the other order. -/
theorem ite_eq_false_comm {α : Type} (b : Bool) (x y : α) : (if b = false then x else y) = if b then y else x := by
  cases b <;> rfl

/-! ### When a tick changes the state -/

theorem tickAttack_moves (h : (tickAttack r).state ≠ r.state) :
    fgt (approach r.y overshoot r.ca) r.level = true ∧ (tickAttack r).y = r.level
      ∧ ((r.ad = 1 ∧ (tickAttack r).state = .decay)
        ∨ (r.ad = 3 ∧ (tickAttack r).state = .sustain ∧ (tickAttack r).ssl = r.level)) := by
  simp only [tickAttack] at h ⊢
  split_ifs at h ⊢ with habove hdecay hsustain
  · exact ⟨habove, rfl, .inl ⟨hdecay, rfl⟩⟩
  · exact ⟨habove, rfl, .inr ⟨hsustain, rfl, rfl⟩⟩
  all_goals exact absurd rfl h

theorem tickDecay_moves (h : (tickDecay r).state ≠ r.state) :
    near (approach r.y (fmul r.level r.sl) r.cd) (fmul r.level r.sl) = true ∧ (tickDecay r).state = .sustain
      ∧ (tickDecay r).y = fmul r.level r.sl ∧ (tickDecay r).ssl = fmul r.level r.sl := by
  simp only [tickDecay] at h ⊢
  split_ifs at h ⊢ with hnear
  · exact ⟨hnear, rfl, rfl, rfl⟩
  · exact absurd rfl h

theorem tickLegato_moves (h : (tickLegato r).state ≠ r.state) :
    near (approach r.y r.ssl r.ca) r.ssl = true ∧ (tickLegato r).state = .sustain ∧ (tickLegato r).y = r.ssl := by
  simp only [tickLegato] at h ⊢
  split_ifs at h ⊢ with hnear
  · exact ⟨hnear, rfl, rfl⟩
  · exact absurd rfl h

theorem tickRelease_moves (h : (tickRelease r).state ≠ r.state) :
    near (approach r.y r.nol r.cr) r.nol = true
      ∧ ((fgt r.nol hysteresis = true ∧ (tickRelease r).state = .noteRelease ∧ (tickRelease r).y = r.nol)
        ∨ (fgt r.nol hysteresis = false ∧ (tickRelease r).state = .noteOff ∧ (tickRelease r).y = zeroF)) := by
  simp only [tickRelease] at h ⊢
  split_ifs at h ⊢ with hnear hfloor
  · exact ⟨hnear, .inl ⟨hfloor, rfl, rfl⟩⟩
  · exact ⟨hnear, .inr ⟨Bool.not_eq_true _ ▸ hfloor, rfl, rfl⟩⟩
  · exact absurd rfl h

theorem tickNoteRelease_moves (h : (tickNoteRelease r).state ≠ r.state) :
    near (approach r.y (fmul secondaryFactor r.nol) r.cr) (fmul secondaryFactor r.nol) = true
      ∧ (tickNoteRelease r).state = .noteOff ∧ (tickNoteRelease r).y = zeroF := by
  simp only [tickNoteRelease] at h ⊢
  split_ifs at h ⊢ with hnear
  · exact ⟨hnear, rfl, rfl⟩
  · exact absurd rfl h

end Advance

/-! ### The registers a command has written -/

theorem envAt_setEnv_same (s : State) (n : Nat) (r : EnvRegs) (ws : List Word) :
    ((s.setEnv n r).withResult ws).envAt n = r := by
  simp

/-! ### Commands that change an envelope -/

section Changes

variable {i : Instr} {s t : State}

/-- Only a command whose checks passed changes an envelope: a refusal and fault entry write none. -/
theorem body_ok_of_envAt_ne {n : Nat} {body : Except FaultCode State} (h : perform i s body = .next t)
    (hne : t.envAt n ≠ s.envAt n) : body = .ok t := by
  rcases perform_cases i s body with ⟨-, hp⟩ | ⟨-, u, hu, hp⟩ | ⟨-, c, -, hp⟩ <;> rw [hp] at h <;>
    obtain rfl := Host.Outcome.next.inj h
  · exact absurd rfl hne
  · exact hu
  · exact absurd rfl hne

/-- So a command other than a construct command went on with its registers. -/
theorem live_body_ok_of_envAt_ne {inst : BitVec 8} {r : EnvRegs} {f : EnvRegs → Except FaultCode State}
    (hr : r = s.envAt inst.toNat) (h : perform i s (liveEnv s inst >>= f) = .next t)
    (hne : t.envAt inst.toNat ≠ s.envAt inst.toNat) : f r = .ok t := by
  obtain ⟨r₀, hlive, hf⟩ := (except_bind_ok _ _ _).1 (body_ok_of_envAt_ne h hne)
  obtain ⟨-, -, rfl⟩ := (liveEnv_ok _ _ _).1 hlive
  rwa [hr]

/-- A command that changes an envelope is an ENV command and names it (10_state.md R20). -/
theorem names_env_of_envAt_ne {inst : BitVec 8} (h : exec i s = .next t)
    (hne : t.envAt inst.toNat ≠ s.envAt inst.toNat) : instrUnit i = 4 ∧ instrInst i = inst := by
  obtain ⟨-, -, -, henv, -⟩ := exec_keepsOtherInstances h inst.toNat
  obtain ⟨hunit, hinst⟩ := not_imp_comm.1 henv hne
  exact ⟨hunit, BitVec.eq_of_toNat_eq hinst⟩

/-- Five commands write `STATE`; every other one leaves it in every envelope. -/
theorem exec_keeps_envState (h : exec i s = .next t)
    (hi : i.opcode ∉ [.envInit, .envTick, .envTrigger, .envLegato, .envRelease]) (inst : BitVec 8) :
    (t.envAt inst.toNat).state = (s.envAt inst.toNat).state := by
  by_contra hmoved
  have hne : t.envAt inst.toNat ≠ s.envAt inst.toNat := fun heq => hmoved (congrArg EnvRegs.state heq)
  obtain ⟨hunit, rfl⟩ := names_env_of_envAt_ne h hne
  cases i with
  | envSetAttack inst sec sps | envSetDecay inst sec sps | envSetSrate inst sec sps | envSetRelease inst sec sps
  | envSetSlevel inst gain =>
    obtain ⟨_, -, hbody⟩ := (except_bind_ok _ _ _).1 (live_body_ok_of_envAt_ne rfl h hne)
    obtain rfl := (except_pure_ok _ _).1 hbody
    exact hmoved ((congrArg EnvRegs.state (envAt_setEnv_same s inst.toNat _ _)).trans rfl)
  | envDecay inst =>
    obtain rfl := (except_pure_ok _ _).1 (live_body_ok_of_envAt_ne rfl h hne)
    exact hmoved ((congrArg EnvRegs.state (envAt_setEnv_same s inst.toNat _ _)).trans rfl)
  | envNoteOffLevel inst level =>
    obtain ⟨-, -, hbody⟩ := (except_bind_ok _ _ _).1 (live_body_ok_of_envAt_ne rfl h hne)
    split at hbody <;> obtain rfl := (except_pure_ok _ _).1 hbody
    · exact hmoved ((congrArg EnvRegs.state (envAt_setEnv_same s inst.toNat _ _)).trans rfl)
    · exact hne rfl
  | envState inst =>
    obtain rfl := (except_pure_ok _ _).1 (live_body_ok_of_envAt_ne rfl h hne)
    exact hne rfl
  | envRd inst reg =>
    obtain ⟨_, -, hbody⟩ := (except_bind_ok _ _ _).1 (body_ok_of_envAt_ne h hne)
    obtain ⟨_, -, hread⟩ := (except_bind_ok _ _ _).1 hbody
    obtain ⟨_, -, hresult⟩ := (except_bind_ok _ _ _).1 hread
    obtain rfl := (except_pure_ok _ _).1 hresult
    exact hne rfl
  | envInit | envTick | envTrigger | envLegato | envRelease => simp [Instr.opcode] at hi
  | _ => simp [instrUnit, Instr.opcode, opcodeRow] at hunit

end Changes

end Sys2Proof.Machine

open Sys2Proof Sys2Proof.Machine

/-- Settles O34: the four commands differ only in the register they store the coefficient in. -/
theorem rateSettersWriteTheirOwnCoefficient : Obligations.RateSettersWriteTheirOwnCoefficient := by
  intro inst sec sps
  have hattack : IsRateSetter (.envSetAttack inst sec sps) inst sec sps fun r c => { r with ca := c } := fun _ => rfl
  have hdecay : IsRateSetter (.envSetDecay inst sec sps) inst sec sps fun r c => { r with cd := c } := fun _ => rfl
  have hsrate : IsRateSetter (.envSetSrate inst sec sps) inst sec sps fun r c => { r with cs := c } := fun _ => rfl
  have hrelease : IsRateSetter (.envSetRelease inst sec sps) inst sec sps fun r c => { r with cr := c } := fun _ => rfl
  refine ⟨deliveredAs_withInst rfl rfl (by decide), deliveredAs_withInst rfl rfl (by decide),
    deliveredAs_withInst rfl rfl (by decide), deliveredAs_withInst rfl rfl (by decide), fun s => ⟨?checks, ?writes⟩⟩
  case checks =>
    simp only [List.forall_mem_cons, List.not_mem_nil, false_implies, implies_true, and_true]
    exact ⟨hattack.checks, hdecay.checks, hsrate.checks, hrelease.checks⟩
  case writes =>
    rintro c h hsec hsps rfl
    obtain ⟨t, ht, htRes, htFrame, htRegs⟩ := hattack.runsTo h hsec hsps
    obtain ⟨u, hu, huRes, huFrame, huRegs⟩ := hdecay.runsTo h hsec hsps
    obtain ⟨v, hv, hvRes, hvFrame, hvRegs⟩ := hsrate.runsTo h hsec hsps
    obtain ⟨w, hw, hwRes, hwFrame, hwRegs⟩ := hrelease.runsTo h hsec hsps
    refine ⟨t, u, v, w, ht, hu, hv, hw, htRegs, huRegs, hvRegs, hwRegs, ?_⟩
    simp only [List.forall_mem_cons, List.not_mem_nil, false_implies, implies_true, and_true]
    exact ⟨⟨htRes, htFrame⟩, ⟨huRes, huFrame⟩, ⟨hvRes, hvFrame⟩, hwRes, hwFrame⟩

/-- Settles O37: only an ENV command that names the envelope and passed its checks changes it; of the five that write
`STATE` each writes it under its row's condition, and a tick's rows are those of the state it starts in. -/
theorem envelopeChangesStateOnlyByTheTable : Obligations.EnvelopeChangesStateOnlyByTheTable := by
  intro i s t inst r r' h hr hr' hmoved
  have hne : t.envAt inst.toNat ≠ s.envAt inst.toNat := fun heq => hmoved (by rw [hr, hr', heq])
  obtain ⟨-, rfl⟩ := names_env_of_envAt_ne h hne
  cases i with
  | envInit inst attack decay slevel srate release sps =>
    have hbody := body_ok_of_envAt_ne h hne
    simp only [except_bind_ok, except_pure_ok] at hbody
    obtain ⟨_, -, _, -, _, -, _, -, _, -, _, -, _, -, rfl⟩ := hbody
    obtain rfl := hr'.trans (envAt_setEnv_same s inst.toNat _ _)
    exact .inl ⟨rfl, rfl, rfl⟩
  | envTick inst =>
    obtain rfl := (except_pure_ok _ _).1 (live_body_ok_of_envAt_ne hr h hne)
    obtain rfl := hr'.trans (envAt_setEnv_same s inst.toNat _ _)
    cases hstate : r.state
    case noteOff => exact absurd (congrArg EnvRegs.state (envAdvance_noteOff hstate)) hmoved
    case sustain => exact absurd (congrArg EnvRegs.state (envAdvance_sustain hstate)) hmoved
    case attack =>
      rw [envAdvance_attack hstate] at hmoved ⊢
      exact .inr <| .inr <| .inr <| .inr <| .inl ⟨rfl, rfl, tickAttack_moves hmoved⟩
    case decay =>
      rw [envAdvance_decay hstate] at hmoved ⊢
      exact .inr <| .inr <| .inr <| .inr <| .inr <| .inl ⟨_, rfl, rfl, rfl, tickDecay_moves hmoved⟩
    case legato =>
      rw [envAdvance_legato hstate] at hmoved ⊢
      exact .inr <| .inr <| .inr <| .inr <| .inr <| .inr <| .inl ⟨rfl, rfl, tickLegato_moves hmoved⟩
    case release =>
      rw [envAdvance_release hstate] at hmoved ⊢
      exact .inr <| .inr <| .inr <| .inr <| .inr <| .inr <| .inr <| .inl ⟨rfl, rfl, tickRelease_moves hmoved⟩
    case noteRelease =>
      rw [envAdvance_noteRelease hstate] at hmoved ⊢
      exact .inr <| .inr <| .inr <| .inr <| .inr <| .inr <| .inr <| .inr
        ⟨_, rfl, rfl, rfl, tickNoteRelease_moves hmoved⟩
  | envTrigger inst ad level =>
    obtain ⟨-, -, hbody⟩ := (except_bind_ok _ _ _).1 (live_body_ok_of_envAt_ne hr h hne)
    split at hbody <;> obtain rfl := (except_pure_ok _ _).1 hbody
    next hlouder =>
      obtain rfl := hr'.trans (envAt_setEnv_same s inst.toNat _ _)
      exact .inr <| .inl ⟨ad, level, rfl, hlouder, rfl, rfl, rfl⟩
    next => exact absurd rfl hne
  | envLegato inst =>
    have hbody := live_body_ok_of_envAt_ne hr h hne
    split at hbody <;> obtain rfl := (except_pure_ok _ _).1 hbody
    next hbelow =>
      obtain ⟨hsustain, hlower⟩ := hbelow
      obtain rfl := hr'.trans (envAt_setEnv_same s inst.toNat _ _)
      exact .inr <| .inr <| .inl ⟨rfl, hsustain, hlower, rfl⟩
    next => exact absurd rfl hne
  | envRelease inst =>
    have hbody := live_body_ok_of_envAt_ne hr h hne
    split at hbody <;> obtain rfl := (except_pure_ok _ _).1 hbody
    next => exact absurd rfl hne
    next hsounding =>
      obtain rfl := hr'.trans (envAt_setEnv_same s inst.toNat _ _)
      exact .inr <| .inr <| .inr <| .inl ⟨rfl, hsounding, rfl⟩
  | _ =>
    rw [hr, hr'] at hmoved
    exact (hmoved (exec_keeps_envState h (by simp [Instr.opcode]) _)).elim

/-- Settles O20 by the checks in order: `INST`, then operand by operand. -/
theorem envInitConstructsInNoteOff : Obligations.EnvInitConstructsInNoteOff := by
  refine fun inst attack decay slevel srate release sps => ⟨deliveredAs_withInst rfl rfl (by decide), ?_⟩
  rintro s i rfl
  have hinst (h : EnvSlot s inst) :=
    exec_of_check_ok (i := .envInit inst attack decay slevel srate release sps) rfl (checkInst_present h.2)
  have hattack (h : EnvSlot s inst) (ha : PositiveFinite attack) :=
    exec_of_check_ok (hinst h) (checkDuration_good ha)
  have hdecay (h : EnvSlot s inst) (ha : PositiveFinite attack) (hd : PositiveFinite decay) :=
    exec_of_check_ok (hattack h ha) (checkDuration_good hd)
  have hslevel (h : EnvSlot s inst) (ha : PositiveFinite attack) (hd : PositiveFinite decay)
      (hl : isFinite slevel = true) :=
    exec_of_check_ok (hdecay h ha hd) (checkLevel_good hl)
  have hsrate (h : EnvSlot s inst) (ha : PositiveFinite attack) (hd : PositiveFinite decay)
      (hl : isFinite slevel = true) (hsr : PositiveFinite srate) :=
    exec_of_check_ok (hslevel h ha hd hl) (checkDuration_good hsr)
  have hrelease (h : EnvSlot s inst) (ha : PositiveFinite attack) (hd : PositiveFinite decay)
      (hl : isFinite slevel = true) (hsr : PositiveFinite srate) (hre : PositiveFinite release) :=
    exec_of_check_ok (hsrate h ha hd hl hsr) (checkDuration_good hre)
  refine ⟨fun hs hmissing => raises_of_check_error rfl hs (checkInst_missing hmissing),
    fun h hbad => raises_of_check_error (hinst h) h.1 (checkDuration_bad hbad),
    fun h ha hbad => raises_of_check_error (hattack h ha) h.1 (checkDuration_bad hbad),
    fun h ha hd hbad => raises_of_check_error (hdecay h ha hd) h.1 (checkLevel_bad hbad),
    fun h ha hd hl hbad => raises_of_check_error (hslevel h ha hd hl) h.1 (checkDuration_bad hbad),
    fun h ha hd hl hsr hbad => raises_of_check_error (hsrate h ha hd hl hsr) h.1 (checkDuration_bad hbad),
    fun h ha hd hl hsr hre hbad => raises_of_check_error (hrelease h ha hd hl hsr hre) h.1 (checkRate_bad hbad),
    fun h ha hd hl hsr hre hsps => ?constructed⟩
  case constructed =>
    exact ⟨_, exec_of_body_ok h.1 (exec_of_check_ok (hrelease h ha hd hl hsr hre) (checkRate_good hsps)) rfl,
      envAt_setEnv_same s inst.toNat _ _, rfl, envFrame_setEnv inst s _ _⟩

/-- Settles O21 by the result and the registers of an advance. -/
theorem envTickReturnsTheUpdatedLevel : Obligations.EnvTickReturnsTheUpdatedLevel := by
  refine fun inst => ⟨deliveredAs_withInst rfl rfl (by decide), fun s => ⟨envChecks_of_live rfl, fun h => ?tick⟩⟩
  case tick =>
    obtain ⟨t, ht, hresult, hframe, hregs⟩ := envTick_runsTo h
    rw [envTickResult_eq] at hresult
    refine ⟨t, ht, ?_, ?_, hframe⟩ <;> rw [hregs]
    · exact hresult
    · exact envAdvance_frame _

/-- Settles O22: the advance of registers in `note_off` is the registers. -/
theorem tickInNoteOffWritesNothing : Obligations.TickInNoteOffWritesNothing := by
  intro inst s h hstate
  obtain ⟨t, ht, hresult, hframe, hregs⟩ := envTick_runsTo h
  rw [envTickResult_eq, if_pos hstate] at hresult
  rw [envAdvance_noteOff hstate] at hregs
  exact ⟨t, ht, hresult, hregs, hframe⟩

/-- Settles O23; the statement takes the branch that stays below `LEVEL` first. -/
theorem tickInAttackClampsAtLevelAndMoves : Obligations.TickInAttackClampsAtLevelAndMoves := by
  rintro inst s r y h hr hstate rfl
  refine envTick_writes h hr ?_
  rw [envAdvance_attack hstate, ite_eq_false_comm]
  rfl

/-- Settles O24: the goal and the snap are those of a tick in `decay`. -/
theorem tickInDecaySnapsIntoSustain : Obligations.TickInDecaySnapsIntoSustain := by
  rintro inst s r goal y h hr hstate rfl rfl
  exact envTick_writes h hr (envAdvance_decay hstate)

/-- Settles O25: a tick in `sustain` has one case. -/
theorem tickInSustainDroops : Obligations.TickInSustainDroops :=
  fun _ _ _ h hr hstate => envTick_writes h hr (envAdvance_sustain hstate)

/-- Settles O26: the snap is that of a tick in `legato`. -/
theorem tickInLegatoSnapsIntoSustain : Obligations.TickInLegatoSnapsIntoSustain := by
  rintro inst s r y h hr hstate rfl
  exact envTick_writes h hr (envAdvance_legato hstate)

/-- Settles O27; the statement takes the branch that stays in `release` first. -/
theorem tickInReleaseEndsByTheFloor : Obligations.TickInReleaseEndsByTheFloor := by
  rintro inst s r y h hr hstate rfl
  refine envTick_writes h hr ?_
  rw [envAdvance_release hstate, ite_eq_false_comm]
  rfl

/-- Settles O28: the goal and the arrival are those of a tick in `note_release`. -/
theorem tickInNoteReleaseEndsInNoteOff : Obligations.TickInNoteReleaseEndsInNoteOff := by
  rintro inst s r goal y h hr hstate rfl rfl
  exact envTick_writes h hr (envAdvance_noteRelease hstate)

/-- Settles O29: the level is checked after the envelope, and a trigger that is not louder writes nothing. -/
theorem triggerRestartsOnlyWhenLouder : Obligations.TriggerRestartsOnlyWhenLouder := by
  refine fun inst ad level => ⟨deliveredAs_of_fields (f := fieldsWith .envTrigger inst 0 ad) rfl rfl ?word, fun s =>
    ⟨envChecks_of_live rfl, fun h hlevel => ?level, fun h hlevel => ?run⟩⟩
  case word =>
    rw [packCmd_fieldsWith, show packCmd (fieldsWith .envTrigger 0 0 0) = 0x42000000 by decide]
    simp
  all_goals have he := exec_liveEnv_of_ready (i := .envTrigger inst ad level) h rfl
  case level => exact raises_of_check_error he h.1 (checkLevel_bad hlevel)
  case run => exact envRunsTo_of_conditional_write h.1 (exec_of_check_ok he (checkLevel_good hlevel))

/-- Settles O30: nothing but its condition stands between a ready envelope and `legato`. -/
theorem legatoOnlyFromSustainBelowStart : Obligations.LegatoOnlyFromSustainBelowStart := by
  refine fun inst => ⟨deliveredAs_withInst rfl rfl (by decide), fun s => ⟨envChecks_of_live rfl, fun h => ?run⟩⟩
  case run =>
    have he := exec_liveEnv_of_ready (i := .envLegato inst) h rfl
    exact envRunsTo_of_conditional_write h.1 he

/-- Settles O31: on a ready envelope nothing is left to check. -/
theorem decayOnlySetsAutoDecay : Obligations.DecayOnlySetsAutoDecay := by
  refine fun inst => ⟨deliveredAs_withInst rfl rfl (by decide), fun s => ⟨envChecks_of_live rfl, fun h => ?run⟩⟩
  case run =>
    have he := exec_liveEnv_of_ready (i := .envDecay inst) h rfl
    exact envRunsTo_of_write h.1 he

/-- Settles O32: the command's condition is the one it does nothing under. -/
theorem releaseFromEveryStateButNoteOff : Obligations.ReleaseFromEveryStateButNoteOff := by
  refine fun inst => ⟨deliveredAs_withInst rfl rfl (by decide), fun s => ⟨envChecks_of_live rfl, fun h => ?run⟩⟩
  case run =>
    have he := exec_liveEnv_of_ready (i := .envRelease inst) h rfl
    rw [← ite_not] at he ⊢
    exact envRunsTo_of_conditional_write h.1 he

/-- Settles O33 by the states in the order of their codes. -/
theorem envStateReturnsTheCode : Obligations.EnvStateReturnsTheCode := by
  refine fun inst => ⟨deliveredAs_withInst rfl rfl (by decide), fun s => ⟨envChecks_of_live rfl, fun h => ?run⟩⟩
  case run =>
    have he := exec_liveEnv_of_ready (i := .envState inst) h rfl
    refine ⟨_, exec_of_body_ok h.1 he rfl, ?_⟩
    cases (s.envAt inst.toNat).state <;> rfl

/-- Settles O35: the gain is checked after the envelope. -/
theorem setSlevelStoresTheGain : Obligations.SetSlevelStoresTheGain := by
  refine fun inst gain => ⟨deliveredAs_withInst rfl rfl (by decide), fun s =>
    ⟨envChecks_of_live rfl, fun h hgain => ?level, fun h hgain => ?run⟩⟩
  all_goals have he := exec_liveEnv_of_ready (i := .envSetSlevel inst gain) h rfl
  case level => exact raises_of_check_error he h.1 (checkLevel_bad hgain)
  case run => exact envRunsTo_of_write h.1 (exec_of_check_ok he (checkLevel_good hgain))

/-- Settles O36: the level is checked after the envelope, and one that is not below the floor writes nothing. -/
theorem noteOffLevelOnlyLowersTheFloor : Obligations.NoteOffLevelOnlyLowersTheFloor := by
  refine fun inst level => ⟨deliveredAs_withInst rfl rfl (by decide), fun s =>
    ⟨envChecks_of_live rfl, fun h hlevel => ?level, fun h hlevel => ?run⟩⟩
  all_goals have he := exec_liveEnv_of_ready (i := .envNoteOffLevel inst level) h rfl
  case level => exact raises_of_check_error he h.1 (checkLevel_bad hlevel)
  case run => exact envRunsTo_of_conditional_write h.1 (exec_of_check_ok he (checkLevel_good hlevel))

end

section
/-! PROOFS. The rest of 43_system.md: the readback commands (R264, with the indices of 10_state.md R24), the no-op
(R260) and the status (R262). -/

namespace Sys2Proof.Machine

/-! ### The register an index names -/

theorem piRegister_eq_getElem? (r : PiRegs) (reg : BitVec 8) :
    piRegister r reg = [r.phase, r.step, if r.mode = .sat then 1 else 0][reg.toNat]? := by
  have hmode : (piModeBit r.mode).setWidth 32 = if r.mode = .sat then 1 else 0 := by cases r.mode <;> rfl
  rw [piRegister, hmode]
  match reg.toNat with
  | 0 | 1 | 2 | _ + 3 => rfl

theorem oscRegister_eq_getElem? (r : OscRegs) (reg : BitVec 8) :
    oscRegister r reg = [r.a, r.s0, r.s1][reg.toNat]? := by
  rw [oscRegister]
  match reg.toNat with
  | 0 | 1 | 2 | _ + 3 => rfl

theorem winRegister_eq_getElem? (r : WinRegs) (reg : BitVec 8) :
    winRegister r reg = [r.a1, r.s01, r.s11, r.a2, r.s02, r.s12][reg.toNat]? := by
  rw [winRegister]
  match reg.toNat with
  | 0 | 1 | 2 | 3 | 4 | 5 | _ + 6 => rfl

/-- `STATE` is zero-extended by the number it is, `AD` sign-extended by the integer it is. -/
theorem envRegister_eq_getElem? (r : EnvRegs) (reg : BitVec 8) :
    envRegister r reg =
      [BitVec.ofNat 32 (envStateCode r.state).toNat, r.y, r.level, r.ca, r.cd, r.sl, r.cs, r.cr, r.ssl, r.nol,
        BitVec.ofInt 32 r.ad.toInt][reg.toNat]? := by
  rw [envRegister, BitVec.ofNat_toNat, ← BitVec.signExtend]
  match reg.toNat with
  | 0 | 1 | 2 | 3 | 4 | 5 | 6 | 7 | 8 | 9 | 10 | _ + 11 => rfl

/-! ### What a readback command answers -/

/-- A command that holds an `INST` and a `REG` is delivered as its opcode's word with both at their places (R81). -/
theorem deliveredAs_withReg {i : Instr} {k : Opcode} {inst reg : BitVec 8} {base : Word} (hwf : i.wellFormed = true)
    (hfields : instrFields i = fieldsWith k inst reg 0) (hbase : packCmd (fieldsWith k 0 0 0) = base) :
    DeliveredAs i (withInst base inst + BitVec.ofNat 32 (256 * reg.toNat)) (instrOps i) :=
  deliveredAs_of_fields hwf hfields (by rw [packCmd_fieldsWith, hbase]; simp)

section Readback

variable {α : Type} {i : Instr} {s : State} {reg : BitVec 8} {live : Except FaultCode α} {g : α → Option Word}
  (he : exec i s = perform i s (do
    checkReg i.opcode reg
    let r ← live
    let v ← readRegister (g r)
    return s.withResult [v]))
include he

/-- The index is part of the command word: it is checked before the instance (R85, 60_exceptions.md R290). -/
theorem raises_illegalCommand_of_rd (hs : s.faulted = false) (hreg : regAllowed i.opcode reg = false) :
    Raises i s .illegalCommand :=
  raises_of_check_error he hs ((checkReg_error _ _ _).2 ⟨hreg, rfl⟩)

/-- With an index its unit has, a readback command begins with the access to its instance. -/
theorem exec_rd_of_regAllowed (hreg : regAllowed i.opcode reg = true) :
    exec i s = perform i s (live >>= fun r => readRegister (g r) >>= fun v => pure (s.withResult [v])) :=
  exec_of_check_ok he ((checkReg_ok _ _ ()).2 hreg)

end Readback

/-- On a ready instance a readback command returns the register its index names, and writes the result alone. -/
theorem exec_rd_of_ready {α : Type} {i : Instr} {s : State} {live : Except FaultCode α} {g : α → Option Word} {r : α}
    {regs : List Word} {n : Nat} (hs : s.faulted = false)
    (he : exec i s = perform i s (live >>= fun r => readRegister (g r) >>= fun v => pure (s.withResult [v])))
    (hlive : live = .ok r) (hregs : g r = regs[n]?) (hlt : n < regs.length) :
    ∃ v : Word, exec i s = .next { s with result := [v] } ∧ regs[n]? = some v := by
  have hnamed : regs[n]? = some regs[n] := List.getElem?_eq_getElem hlt
  exact ⟨_, exec_of_converter_ok hs (exec_of_check_ok he hlive) ((readRegister_ok _ _).2 (hregs.trans hnamed)), hnamed⟩

end Sys2Proof.Machine

open Sys2Proof Sys2Proof.Machine

/-- Settles O38: an index its unit has passes the first check and names the register at its place; any other fails it,
whatever the instance. -/
theorem readbackReturnsTheNamedRegister : Obligations.ReadbackReturnsTheNamedRegister := by
  intro inst reg
  refine ⟨fun hlt => deliveredAs_withReg (decide_eq_true hlt) rfl (by decide),
    fun hlt => deliveredAs_withReg (decide_eq_true hlt) rfl (by decide),
    fun hlt => deliveredAs_withReg (decide_eq_true hlt) rfl (by decide),
    fun hlt => deliveredAs_withReg (decide_eq_true hlt) rfl (by decide),
    fun s => ⟨fun hlt => ?pi, fun hlt => ?osc, fun hlt => ?win, fun hlt => ?env, fun hs => ⟨fun hge => ⟨?noPi, ?noOsc⟩,
      fun hge => ?noWin, fun hge => ?noEnv⟩⟩⟩
  case pi =>
    have he := exec_rd_of_regAllowed (i := .piRd inst reg) (s := s) rfl (decide_eq_true hlt)
    exact ⟨piChecks_of_live he, fun h => exec_rd_of_ready h.1 he (livePi_ready h) (piRegister_eq_getElem? _ _) hlt⟩
  case osc =>
    have he := exec_rd_of_regAllowed (i := .oscRd inst reg) (s := s) rfl (decide_eq_true hlt)
    exact ⟨oscChecks_of_live he, fun h => exec_rd_of_ready h.1 he (liveOsc_ready h) (oscRegister_eq_getElem? _ _) hlt⟩
  case win =>
    have he := exec_rd_of_regAllowed (i := .winRd inst reg) (s := s) rfl (decide_eq_true hlt)
    exact ⟨winChecks_of_live he, fun h => exec_rd_of_ready h.1 he (liveWin_ready h) (winRegister_eq_getElem? _ _) hlt⟩
  case env =>
    have he := exec_rd_of_regAllowed (i := .envRd inst reg) (s := s) rfl (decide_eq_true hlt)
    exact ⟨envChecks_of_live he, fun h => exec_rd_of_ready h.1 he (liveEnv_ready h) (envRegister_eq_getElem? _ _) hlt⟩
  all_goals exact raises_illegalCommand_of_rd rfl hs (decide_eq_false (not_lt.2 hge))

/-- Settles O1: a refusal and the no-op both leave the state with an empty result. -/
theorem nopChangesNoRegister : Obligations.NopChangesNoRegister := by
  refine ⟨deliveredAs_of_fields (f := fieldsWith .sysNop 0 0 0) rfl rfl (by decide), fun s => ?_⟩
  have he : exec .sysNop s = perform .sysNop s (.ok (s.withResult [])) := rfl
  rcases Bool.eq_false_or_eq_true s.faulted with hs | hs
  · exact he.trans (perform_faulted hs _ _)
  · exact exec_of_body_ok hs he rfl

/-- Settles O2: the status answers before any check, in a faulted state as in any other. -/
theorem statusReturnsTheFaultRegisters : Obligations.StatusReturnsTheFaultRegisters :=
  ⟨deliveredAs_of_fields (f := fieldsWith .sysStatus 0 0 0) rfl rfl (by decide),
    fun s => ⟨_, rfl, statusWord_isStatusWord s.faulted s.fcode⟩⟩

end

section
/-! PROOFS. Faults (60_exceptions.md R282, R285, R288, R292): the instance checks of a command that is no construct
command, the entry of a fault, and what a faulted machine answers. -/

namespace Sys2Proof.Machine

/-! ### The step on a transaction, by the decoder's answer -/

theorem step_of_decode_ok {s : State} {t : Transaction} {rest : List HostEvent} {i : Instr}
    (hinbox : s.inbox = .transaction t :: rest) (hdecode : decode t = .ok i) :
    step s = exec i { s with inbox := rest } := by
  obtain ⟨hdecoded, -⟩ := stepRunsTheDecodedCommand
  exact hdecoded s t rest i hinbox hdecode

theorem step_of_decode_error {s : State} {t : Transaction} {rest : List HostEvent} {e : DecodeError}
    (hinbox : s.inbox = .transaction t :: rest) (hdecode : decode t = .error e) :
    step s = .next (rejectTransaction e t.cmd { s with inbox := rest }) := by
  simp [step, hinbox, performTransaction, hdecode]

theorem rejectTransaction_of_faulted {s : State} (hs : s.faulted = true) (e : DecodeError) (cmd : Word) :
    rejectTransaction e cmd s = refuseCommand s := by
  simp [rejectTransaction, hs]

theorem decodeFault_ne_none (e : DecodeError) : decodeFault e ≠ .none := by
  cases e <;> exact FaultCode.noConfusion

/-! ### Fault entry (R285) -/

/-- A command that raises a fault takes it with its own command word; no command that runs raises one. -/
theorem exec_takes_fault {i : Instr} {s t : State} (hs : s.faulted = false) (h : exec i s = .next t)
    (ht : t.faulted = true) : ∃ c, c ≠ .none ∧ t = takeFault c (cmdWord i) s := by
  have hraised : t.faulted ≠ s.faulted := by simp [hs, ht]
  rcases exec_next_cases h with ⟨-, rfl⟩ | ⟨-, -, rfl⟩ | ⟨-, hfault⟩ | ⟨-, hran⟩
  · exact absurd rfl hraised
  · exact absurd rfl hraised
  · exact hfault
  · obtain ⟨-, hkept⟩ := hran.result_length_and_faulted
    exact absurd hkept hraised

/-- A step that raises a fault takes it with the delivered word: a decoded command's own word is that word. -/
theorem step_takes_fault {s u : State} {t : Transaction} {rest : List HostEvent}
    (hinbox : s.inbox = .transaction t :: rest) (hs : s.faulted = false) (h : step s = .next u)
    (hu : u.faulted = true) : ∃ c, c ≠ .none ∧ u = takeFault c t.cmd { s with inbox := rest } := by
  cases hdecode : decode t with
  | ok i =>
    have hexec : exec i { s with inbox := rest } = .next u := (step_of_decode_ok hinbox hdecode).symm.trans h
    obtain ⟨hencode, -⟩ := encodeOfDecodeIsTheTransaction t i hdecode
    have hword : cmdWord i = t.cmd := congrArg Transaction.cmd hencode
    exact hword ▸ exec_takes_fault hs hexec hu
  | error e =>
    have hreject := rejectTransaction_of_not_faulted (s := { s with inbox := rest }) hs e t.cmd
    rw [step_of_decode_error hinbox hdecode, hreject] at h
    exact ⟨decodeFault e, decodeFault_ne_none e, (Host.Outcome.next.inj h).symm⟩

/-! ### Refusal (R288) -/

theorem exec_refused {i : Instr} {s : State} (hs : s.faulted = true) (hi : i ≠ .sysStatus) :
    exec i s = .next (refuseCommand s) := by
  rcases exec_performs i s with ⟨hstatus, -⟩ | ⟨body, he, -⟩
  · exact absurd hstatus hi
  · exact he.trans (perform_faulted hs i body)

/-- A faulted machine refuses a command other than the status as it refuses a transaction the decoder rejects. -/
theorem step_refused {s : State} {t : Transaction} {rest : List HostEvent}
    (hinbox : s.inbox = .transaction t :: rest) (hs : s.faulted = true) (ht : decode t ≠ .ok .sysStatus) :
    step s = .next (refuseCommand { s with inbox := rest }) := by
  cases hdecode : decode t with
  | ok i =>
    have hi : i ≠ .sysStatus := fun h => ht (h ▸ hdecode)
    exact (step_of_decode_ok hinbox hdecode).trans (exec_refused hs hi)
  | error e =>
    have hreject := rejectTransaction_of_faulted (s := { s with inbox := rest }) hs e t.cmd
    rw [step_of_decode_error hinbox hdecode, hreject]

end Sys2Proof.Machine

open Sys2Proof Sys2Proof.Machine

/-- Settles O40: every command but a construct command begins with the access to its instance, a readback command once
its index is one its unit has. -/
theorem unsetInstanceFaults : Obligations.UnsetInstanceFaults := by
  intro i s hs hwf hunit hpresent hconstruct hunset
  have hreg := (wellFormed_iff i).1 hwf
  cases i with
  | sysNop | sysPhaseFrac32 | sysPhaseFrac64 | sysPhaseFreq | sysStatus => exact absurd rfl hunit
  | piInit | piLoad | oscInit | winInit | envInit => cases hconstruct
  | piInc | piDec | piFirst | piLast => exact (piChecks_of_live rfl).2 hs hpresent hunset
  | oscConfig | oscTick => exact (oscChecks_of_live rfl).2 hs hpresent hunset
  | winConfig | winTick => exact (winChecks_of_live rfl).2 hs hpresent hunset
  | envTick | envTrigger | envLegato | envDecay | envRelease | envState | envSetAttack | envSetDecay | envSetSlevel
  | envSetSrate | envSetRelease | envNoteOffLevel =>
    exact (envChecks_of_live rfl).2 hs hpresent hunset
  | piRd => exact (piChecks_of_live (exec_rd_of_regAllowed rfl hreg)).2 hs hpresent hunset
  | oscRd => exact (oscChecks_of_live (exec_rd_of_regAllowed rfl hreg)).2 hs hpresent hunset
  | winRd => exact (winChecks_of_live (exec_rd_of_regAllowed rfl hreg)).2 hs hpresent hunset
  | envRd => exact (envChecks_of_live (exec_rd_of_regAllowed rfl hreg)).2 hs hpresent hunset

/-- Settles O42: a step that raises a fault is fault entry with the delivered word, which writes the record alone. -/
theorem faultEntryRecordsAndWritesNothingElse : Obligations.FaultEntryRecordsAndWritesNothingElse := by
  intro s u t rest hinbox hs h hu
  obtain ⟨c, hc, rfl⟩ := step_takes_fault hinbox hs h hu
  exact ⟨hc, rfl, rfl⟩

/-- Settles O43: the word `0x04000000` without operands is the one transaction that decodes to the status, and the
status is the one command a faulted machine does not refuse. -/
theorem faultedMachinePerformsOnlyStatus : Obligations.FaultedMachinePerformsOnlyStatus := by
  intro s t rest hinbox hs
  obtain ⟨⟨hdelivered, -⟩, hanswer⟩ := statusReturnsTheFaultRegisters
  refine ⟨fun hother => ?refused, fun hstatus => ?performed⟩
  case refused => exact step_refused hinbox hs (mt (hdelivered t).1 hother)
  case performed =>
    obtain ⟨w, hexec, hw⟩ := hanswer { s with inbox := rest }
    exact ⟨w, (step_of_decode_ok hinbox ((hdelivered t).2 hstatus)).trans hexec, hs ▸ hw⟩

end

section
/-! PROOFS. Reset and power-up (70_reset_and_hazards.md R310, R311), and what no command observes: two states that
differ in unset registers alone are answered alike by each shared operation, so by every command. -/

namespace Sys2Proof.Machine

/-! ### One instance in two states no command can tell apart -/

/-- The records of one instance in two states: their `INIT` bits agree, and where these are 1 so do the registers. -/
def AgreeIfSet {α : Type} (init : α → Bool) (r r' : α) : Prop :=
  init r' = init r ∧ (init r = true → r' = r)

/-- `SameButUnset` with the clause of each unit under its name. -/
theorem sameButUnset_iff (s s' : State) :
    SameButUnset s s' ↔ sysFrame s s' ∧ s'.result = s.result
      ∧ (∀ n, AgreeIfSet PiRegs.init (s.piAt n) (s'.piAt n)) ∧ (∀ n, AgreeIfSet OscRegs.init (s.oscAt n) (s'.oscAt n))
      ∧ (∀ n, AgreeIfSet WinRegs.init (s.winAt n) (s'.winAt n))
      ∧ ∀ n, AgreeIfSet EnvRegs.init (s.envAt n) (s'.envAt n) := Iff.rfl

section Instance

variable {α : Type} {init : α → Bool} {r r' : α}

/-- The same write to both makes the written instance equal, and the others agree as before. -/
theorem AgreeIfSet.write (h : AgreeIfSet init r r') (written : Prop) [Decidable written] (v : α) :
    AgreeIfSet init (if written then v else r) (if written then v else r') := by
  split
  · exact ⟨rfl, fun _ => rfl⟩
  · exact h

/-- The check of the `INIT` bit lets through equal registers, or faults in both states (60_exceptions.md R282). -/
theorem AgreeIfSet.checkInit (h : AgreeIfSet init r r') :
    (do checkInit (init r'); return r') = (do checkInit (init r); return r) := by
  obtain ⟨hinit, hregs⟩ := h
  cases hset : init r with
  | true => rw [hregs hset, hset]
  | false => rw [hinit, hset]; rfl

end Instance

/-! ### What each shared operation keeps and answers -/

namespace SameButUnset

variable {s s' : State} (h : SameButUnset s s')
include h

theorem sys_eq : s'.faulted = s.faulted ∧ s'.fcode = s.fcode ∧ s'.fcmd = s.fcmd ∧ s'.params = s.params := by
  obtain ⟨⟨hfaulted, hfcode, hfcmd, hparams, -⟩, -⟩ := h
  exact ⟨hfaulted, hfcode, hfcmd, hparams⟩

theorem params_eq : s'.params = s.params := by
  obtain ⟨-, -, -, hparams⟩ := h.sys_eq
  exact hparams

theorem checkInst_eq (count : Params → Nat) (inst : BitVec 8) :
    checkInst (count s'.params) inst = checkInst (count s.params) inst := by rw [h.params_eq]

theorem withResult (ws : List Word) : SameButUnset (s.withResult ws) (s'.withResult ws) := by
  obtain ⟨hsys, -, hunits⟩ := h
  exact ⟨hsys, rfl, hunits⟩

theorem takeFault (c : FaultCode) (cmd : Word) : SameButUnset (takeFault c cmd s) (takeFault c cmd s') := by
  obtain ⟨⟨-, -, -, hparams, hinbox⟩, -, hunits⟩ := h
  exact ⟨⟨rfl, rfl, rfl, hparams, hinbox⟩, rfl, hunits⟩

theorem setPi (n : Nat) (r : PiRegs) : SameButUnset (s.setPi n r) (s'.setPi n r) := by
  obtain ⟨hsys, hresult, hpi, hosc, hwin, henv⟩ := (sameButUnset_iff s s').1 h
  exact (sameButUnset_iff _ _).2
    ⟨hsys, hresult, fun m => by simpa only [piAt_setPi] using (hpi m).write _ r, hosc, hwin, henv⟩

theorem setOsc (n : Nat) (r : OscRegs) : SameButUnset (s.setOsc n r) (s'.setOsc n r) := by
  obtain ⟨hsys, hresult, hpi, hosc, hwin, henv⟩ := (sameButUnset_iff s s').1 h
  exact (sameButUnset_iff _ _).2
    ⟨hsys, hresult, hpi, fun m => by simpa only [oscAt_setOsc] using (hosc m).write _ r, hwin, henv⟩

theorem setWin (n : Nat) (r : WinRegs) : SameButUnset (s.setWin n r) (s'.setWin n r) := by
  obtain ⟨hsys, hresult, hpi, hosc, hwin, henv⟩ := (sameButUnset_iff s s').1 h
  exact (sameButUnset_iff _ _).2
    ⟨hsys, hresult, hpi, hosc, fun m => by simpa only [winAt_setWin] using (hwin m).write _ r, henv⟩

theorem setEnv (n : Nat) (r : EnvRegs) : SameButUnset (s.setEnv n r) (s'.setEnv n r) := by
  obtain ⟨hsys, hresult, hpi, hosc, hwin, henv⟩ := (sameButUnset_iff s s').1 h
  exact (sameButUnset_iff _ _).2
    ⟨hsys, hresult, hpi, hosc, hwin, fun m => by simpa only [envAt_setEnv] using (henv m).write _ r⟩

theorem livePi_eq (inst : BitVec 8) : livePi s' inst = livePi s inst := by
  obtain ⟨-, -, hpi, -⟩ := (sameButUnset_iff s s').1 h
  rw [livePi, livePi, h.params_eq, (hpi _).checkInit]

theorem liveOsc_eq (inst : BitVec 8) : liveOsc s' inst = liveOsc s inst := by
  obtain ⟨-, -, -, hosc, -⟩ := (sameButUnset_iff s s').1 h
  rw [liveOsc, liveOsc, h.params_eq, (hosc _).checkInit]

theorem liveWin_eq (inst : BitVec 8) : liveWin s' inst = liveWin s inst := by
  obtain ⟨-, -, -, -, hwin, -⟩ := (sameButUnset_iff s s').1 h
  rw [liveWin, liveWin, h.params_eq, (hwin _).checkInit]

theorem liveEnv_eq (inst : BitVec 8) : liveEnv s' inst = liveEnv s inst := by
  obtain ⟨-, -, -, -, -, henv⟩ := (sameButUnset_iff s s').1 h
  rw [liveEnv, liveEnv, h.params_eq, (henv _).checkInit]

end SameButUnset

/-! ### Bodies answered alike -/

/-- The bodies of one command in two states raise the same fault, or answer states no command can tell apart. -/
inductive AnswerAlike : Except FaultCode State → Except FaultCode State → Prop where
  | raised (c : FaultCode) : AnswerAlike (.error c) (.error c)
  | ran {t t' : State} (h : SameButUnset t t') : AnswerAlike (.ok t) (.ok t')

namespace AnswerAlike

/-- A check or an access that is the same in both states, then bodies alike for each value it answers. -/
theorem bind {α : Type} {x x' : Except FaultCode α} {f f' : α → Except FaultCode State} (hx : x' = x)
    (hf : ∀ a, AnswerAlike (f a) (f' a)) : AnswerAlike (x >>= f) (x' >>= f') := by
  subst hx
  cases x' with
  | error c => exact .raised c
  | ok a => exact hf a

theorem ite {c : Prop} [Decidable c] {x x' y y' : Except FaultCode State} (hx : AnswerAlike x x')
    (hy : AnswerAlike y y') : AnswerAlike (if c then x else y) (if c then x' else y') := by
  split
  · exact hx
  · exact hy

end AnswerAlike

section Answers

variable {s s' : State} (h : SameButUnset s s')
include h

theorem SameButUnset.answer_withResult (ws : List Word) :
    AnswerAlike (pure (s.withResult ws)) (pure (s'.withResult ws)) :=
  .ran (h.withResult ws)

theorem SameButUnset.answer_setPi (n : Nat) (r : PiRegs) (ws : List Word) :
    AnswerAlike (pure ((s.setPi n r).withResult ws)) (pure ((s'.setPi n r).withResult ws)) :=
  .ran ((h.setPi n r).withResult ws)

theorem SameButUnset.answer_setOsc (n : Nat) (r : OscRegs) (ws : List Word) :
    AnswerAlike (pure ((s.setOsc n r).withResult ws)) (pure ((s'.setOsc n r).withResult ws)) :=
  .ran ((h.setOsc n r).withResult ws)

theorem SameButUnset.answer_setWin (n : Nat) (r : WinRegs) (ws : List Word) :
    AnswerAlike (pure ((s.setWin n r).withResult ws)) (pure ((s'.setWin n r).withResult ws)) :=
  .ran ((h.setWin n r).withResult ws)

theorem SameButUnset.answer_setEnv (n : Nat) (r : EnvRegs) (ws : List Word) :
    AnswerAlike (pure ((s.setEnv n r).withResult ws)) (pure ((s'.setEnv n r).withResult ws)) :=
  .ran ((h.setEnv n r).withResult ws)

end Answers

/-! ### Commands answered alike -/

/-- Both states answer the command, with states no command can tell apart. -/
def ExecAlike (i : Instr) (s s' : State) : Prop :=
  ∃ t t', exec i s = .next t ∧ exec i s' = .next t' ∧ SameButUnset t t'

section Commands

variable {i : Instr} {s s' : State} (h : SameButUnset s s')
include h

/-- A refusal, fault entry with the same code, and a run are each alike where the bodies are. -/
theorem SameButUnset.execAlike_of_perform {body body' : Except FaultCode State} (he : exec i s = perform i s body)
    (he' : exec i s' = perform i s' body') (hbody : AnswerAlike body body') : ExecAlike i s s' := by
  obtain ⟨hfaulted, -⟩ := h.sys_eq
  cases hs : s.faulted with
  | true =>
    exact ⟨_, _, he.trans (perform_faulted hs i body), he'.trans (perform_faulted (hfaulted.trans hs) i body'),
      h.withResult []⟩
  | false =>
    cases hbody with
    | raised c =>
      exact ⟨_, _, he.trans (perform_error hs i rfl), he'.trans (perform_error (hfaulted.trans hs) i rfl),
        h.takeFault c (cmdWord i)⟩
    | ran ht => exact ⟨_, _, exec_of_body_ok hs he rfl, exec_of_body_ok (hfaulted.trans hs) he' rfl, ht⟩

/-- The status is the fault registers', which no unset register stands in (43_system.md R262). -/
theorem SameButUnset.execAlike_sysStatus : ExecAlike .sysStatus s s' := by
  obtain ⟨hfaulted, hfcode, hfcmd, -⟩ := h.sys_eq
  refine ⟨_, _, rfl, rfl, ?_⟩
  rw [hfaulted, hfcode, hfcmd]
  exact h.withResult _

end Commands

/-- Every command is answered alike: its checks and its access to its instance see the parameters, the operands, the
`INIT` bit and set registers alone, and what it then writes and returns is computed from these. -/
theorem SameButUnset.execAlike {s s' : State} (h : SameButUnset s s') (i : Instr) : ExecAlike i s s' := by
  cases i with
  | sysStatus => exact h.execAlike_sysStatus
  | sysNop => exact h.execAlike_of_perform rfl rfl (h.answer_withResult _)
  | sysPhaseFrac32 | sysPhaseFrac64 | sysPhaseFreq =>
    exact h.execAlike_of_perform rfl rfl <| .bind rfl fun _ => h.answer_withResult _
  | piInit =>
    exact h.execAlike_of_perform rfl rfl <| .bind (h.checkInst_eq _ _) fun _ => .bind rfl fun _ => h.answer_setPi _ _ _
  | piLoad => exact h.execAlike_of_perform rfl rfl <| .bind (h.checkInst_eq _ _) fun _ => h.answer_setPi _ _ _
  | piInc | piDec => exact h.execAlike_of_perform rfl rfl <| .bind (h.livePi_eq _) fun _ => h.answer_setPi _ _ _
  | piFirst | piLast => exact h.execAlike_of_perform rfl rfl <| .bind (h.livePi_eq _) fun _ => h.answer_withResult _
  | piRd =>
    exact h.execAlike_of_perform rfl rfl <| .bind rfl fun _ =>
      .bind (h.livePi_eq _) fun _ => .bind rfl fun _ => h.answer_withResult _
  | oscInit =>
    exact h.execAlike_of_perform rfl rfl <| .bind (h.checkInst_eq _ _) fun _ => .bind rfl fun _ => h.answer_setOsc _ _ _
  | oscConfig =>
    exact h.execAlike_of_perform rfl rfl <| .bind (h.liveOsc_eq _) fun _ => .bind rfl fun _ => h.answer_setOsc _ _ _
  | oscTick => exact h.execAlike_of_perform rfl rfl <| .bind (h.liveOsc_eq _) fun _ => h.answer_setOsc _ _ _
  | oscRd =>
    exact h.execAlike_of_perform rfl rfl <| .bind rfl fun _ =>
      .bind (h.liveOsc_eq _) fun _ => .bind rfl fun _ => h.answer_withResult _
  | winInit =>
    exact h.execAlike_of_perform rfl rfl <| .bind (h.checkInst_eq _ _) fun _ => .bind rfl fun _ => h.answer_setWin _ _ _
  | winConfig =>
    exact h.execAlike_of_perform rfl rfl <| .bind (h.liveWin_eq _) fun _ => .bind rfl fun _ => h.answer_setWin _ _ _
  | winTick => exact h.execAlike_of_perform rfl rfl <| .bind (h.liveWin_eq _) fun _ => h.answer_setWin _ _ _
  | winRd =>
    exact h.execAlike_of_perform rfl rfl <| .bind rfl fun _ =>
      .bind (h.liveWin_eq _) fun _ => .bind rfl fun _ => h.answer_withResult _
  | envInit =>
    refine h.execAlike_of_perform rfl rfl <| .bind (h.checkInst_eq _ _) fun _ => .bind rfl fun _ => .bind rfl fun _ =>
      .bind rfl fun _ => .bind rfl fun _ => .bind rfl fun _ => .bind rfl fun _ => ?_
    rw [h.params_eq]
    exact h.answer_setEnv _ _ _
  | envTick | envDecay => exact h.execAlike_of_perform rfl rfl <| .bind (h.liveEnv_eq _) fun _ => h.answer_setEnv _ _ _
  | envState => exact h.execAlike_of_perform rfl rfl <| .bind (h.liveEnv_eq _) fun _ => h.answer_withResult _
  | envLegato =>
    exact h.execAlike_of_perform rfl rfl <| .bind (h.liveEnv_eq _) fun _ =>
      .ite (h.answer_setEnv _ _ _) (h.answer_withResult _)
  | envRelease =>
    exact h.execAlike_of_perform rfl rfl <| .bind (h.liveEnv_eq _) fun _ =>
      .ite (h.answer_withResult _) (h.answer_setEnv _ _ _)
  | envTrigger | envNoteOffLevel =>
    exact h.execAlike_of_perform rfl rfl <| .bind (h.liveEnv_eq _) fun _ => .bind rfl fun _ =>
      .ite (h.answer_setEnv _ _ _) (h.answer_withResult _)
  | envSetAttack | envSetDecay | envSetSlevel | envSetSrate | envSetRelease =>
    exact h.execAlike_of_perform rfl rfl <| .bind (h.liveEnv_eq _) fun _ => .bind rfl fun _ => h.answer_setEnv _ _ _
  | envRd =>
    exact h.execAlike_of_perform rfl rfl <| .bind rfl fun _ =>
      .bind (h.liveEnv_eq _) fun _ => .bind rfl fun _ => h.answer_withResult _

/-! ### Reset and power-up -/

/-- A reset takes its delivery and the transaction it interrupts, and enters the power-up state (R297, R310). -/
theorem step_reset {s : State} {c : Option Transaction} {rest : List HostEvent} (hinbox : s.inbox = .reset c :: rest) :
    step s = .next (applyReset { s with inbox := rest }) := by
  simp [step, hinbox]

theorem powerUp_wf {p : Params} (hp : p.legal = true) : (State.powerUp p).wf = true :=
  (wf_iff _).2 ⟨hp, rfl, rfl, rfl, rfl, rfl⟩

end Sys2Proof.Machine

open Sys2Proof Sys2Proof.Machine

/-- Settles O50: the states that the two runs answer are those every command answers alike. -/
theorem unsetValuesAreUnobservable : Obligations.UnsetValuesAreUnobservable := by
  intro i s s' t t' h ht ht'
  obtain ⟨u, u', hu, hu', halike⟩ := h.execAlike i
  obtain rfl : u = t := Host.Outcome.next.inj (hu.symm.trans ht)
  obtain rfl : u' = t' := Host.Outcome.next.inj (hu'.symm.trans ht')
  exact halike

/-- Settles O44: a reset event steps to the power-up state with the parameters and the waiting deliveries kept, and
that state lists no instance. -/
theorem resetUnsetsEveryInstanceAndClearsTheFault : Obligations.ResetUnsetsEveryInstanceAndClearsTheFault := by
  refine ⟨fun s c rest hinbox => step_reset hinbox, fun p s hs => ?powerUp⟩
  case powerUp =>
    subst hs
    have hunset (n : Nat) : ((State.powerUp p).piAt n).init = false ∧ ((State.powerUp p).oscAt n).init = false
        ∧ ((State.powerUp p).winAt n).init = false ∧ ((State.powerUp p).envAt n).init = false := ⟨rfl, rfl, rfl, rfl⟩
    exact ⟨hunset, rfl, rfl, rfl, rfl, rfl, rfl⟩

/-- Settles O51: power-up lists no instance and records no fault. -/
theorem powerUpSatisfiesTheInvariant : Obligations.PowerUpSatisfiesTheInvariant :=
  fun _ hp => powerUp_wf hp

end
